-- ==== Sys2Proof/Word.lean ====
section
/-! DEFINITION. The words and fields of the voi-synth Gate Block: a 32-bit word (R8), the UNIT and
IMM fields of a command word (R82), the three words of a command (R81), a parameter event (R32),
and the envelope mode that ENV.INIT carries (R131, R138). -/

namespace Sys2Proof

/-- Every sample, state and configuration value, operand and response is 32 bits wide (R8). -/
abbrev Word := BitVec 32

/-- The UNIT field of a command word: 10 bits, unsigned (R8, R82). -/
abbrev UnitIx := BitVec 10

/-- The IMM field of a command word: 12 bits, unsigned (R8, R82). It carries a CSR number, a
parameter index, an envelope mode or a read selector. -/
abbrev Imm := BitVec 12

/-- The two envelope modes, `EMODE` = 0 and 1 (R131). -/
inductive EnvMode where
  | ar
  | adsr
  deriving DecidableEq, Repr

/-- One command as the port carries it: the three words W, A, B presented together (R81). -/
structure Command where
  w : Word
  a : Word
  b : Word
  deriving DecidableEq, Repr

/-- One SetParam event, the entry `(owner, index, value)` of `PWQ` (R32). -/
structure Event where
  owner : Word
  index : Imm
  value : Word
  deriving DecidableEq, Repr

end Sys2Proof
end

