-- ==== Sys2Proof/Syntax.lean ====
section
/-! DEFINITION. The instruction set: one constructor per row of spec/opcode_table.json, with the
fields and operand words its row uses (R86, R87). An operand word that a command does not use is
ignored (R83) and has no place here. -/

namespace Sys2Proof

/-- The 34 commands of R86 and the parameter-write port transaction PW.WRITE of R202. `a` and `b`
are the operand words A and B. -/
inductive Instr where
  | nop
  | csrRd (csr : Imm)
  | csrWr (csr : Imm) (a : Word)
  | gateStep (g : UnitIx) (a : Word)
  | gateCfg (g : UnitIx) (a : Word)
  | gateRd (g : UnitIx)
  | gateInit (g : UnitIx)
  | envInit (e : UnitIx) (mode : EnvMode)
  | envAtk (e : UnitIx) (a : Word)
  | envDec (e : UnitIx) (a : Word)
  | envSus (e : UnitIx) (a : Word)
  | envRel (e : UnitIx) (a : Word)
  | envThr (e : UnitIx) (a : Word)
  | envStep (e : UnitIx) (a : Word)
  | envRdPos (e : UnitIx)
  | envRdStg (e : UnitIx)
  | envRdGate (e : UnitIx)
  | lpfStep (f : UnitIx) (a b : Word)
  | lpfInit (f : UnitIx)
  | lpfRd (f : UnitIx)
  | hpfStep (h : UnitIx) (a b : Word)
  | hpfInit (h : UnitIx)
  | hpfRd (h : UnitIx)
  | dcbStep (a : Word)
  | limStep (a : Word)
  | busMaster
  | busClr
  | busAcc (v : UnitIx) (a : Word)
  | voiceSet (v : UnitIx) (a b : Word)
  | voiceDel (a : Word)
  | paramInit (v : UnitIx) (index : Imm) (a : Word)
  | paramRd (v : UnitIx) (index : Imm) (a : Word)
  | paramPost (index : Imm) (a b : Word)
  | paramCommit
  | pwWrite (owner : Word) (index : Imm) (value : Word)
  deriving DecidableEq, Repr

end Sys2Proof
end

