-- ==== Sys2Proof/Decode.lean ====
section
/-! DEFINITION. Decoding a command (R82, R83, R85 steps 1 and 2, R88), the encoder beside it, and
the opcode map of R86 as a table of match and mask words. Steps 3 and 4 of R85 compare fields with
the implementation's counts and stand in Machine/Ops.lean. -/

namespace Sys2Proof

/-! ## The fields of a command word (R82) -/

/-- OP = W[31:26]. -/
def opField (w : Word) : BitVec 6 := w.extractLsb' 26 6

/-- UNIT = W[25:16]. -/
def unitField (w : Word) : UnitIx := w.extractLsb' 16 10

/-- RSV = W[15:12]. -/
def rsvField (w : Word) : BitVec 4 := w.extractLsb' 12 4

/-- IMM = W[11:0]. -/
def immField (w : Word) : Imm := w.extractLsb' 0 12

/-- The command word with the given OP, UNIT and IMM and with RSV = 0 (R82). -/
def packWord (op : BitVec 6) (unit : UnitIx) (imm : Imm) : Word :=
  op ++ unit ++ 0#4 ++ imm

/-- The mode that `IMM[0]` of ENV.INIT names (R138). -/
def modeOfBit (b : Bool) : EnvMode := if b then .adsr else .ar

/-- The `IMM` of ENV.INIT for a mode: 0 for AR, 1 for ADSR (R138). -/
def modeImm : EnvMode → Imm
  | .ar => 0
  | .adsr => 1

/-! ## Decoding -/

/-- What decoding a command answers: an instruction, or the decode fault of R85 it raises. -/
inductive Decoded where
  | instr (i : Instr)
  /-- R85 step 1: OP is not assigned. -/
  | illegalOpcode (op : BitVec 6)
  /-- R85 step 2: RSV is not 0, an unused field is not 0, or IMM has a value the command does not
  admit. -/
  | illegalField (w : Word)
  deriving DecidableEq, Repr

/-- R85 step 2 for one opcode: the instruction if its fields are as R87 says, else the fault. -/
def fieldCheck (w : Word) (ok : Bool) (i : Instr) : Decoded :=
  if ok then .instr i else .illegalField w

/-- Opcodes that use neither UNIT nor IMM (R87). -/
def plainForm (w : Word) (i : Instr) : Decoded :=
  fieldCheck w (unitField w == 0 && rsvField w == 0 && immField w == 0) i

/-- Opcodes that use UNIT only (R87). -/
def unitForm (w : Word) (mk : UnitIx → Instr) : Decoded :=
  fieldCheck w (rsvField w == 0 && immField w == 0) (mk (unitField w))

/-- Opcodes that use IMM only (R87). -/
def immForm (w : Word) (mk : Imm → Instr) : Decoded :=
  fieldCheck w (unitField w == 0 && rsvField w == 0) (mk (immField w))

/-- Opcodes that use UNIT and IMM (R87). -/
def unitImmForm (w : Word) (mk : UnitIx → Imm → Instr) : Decoded :=
  fieldCheck w (rsvField w == 0) (mk (unitField w) (immField w))

/-- ENV.INIT: IMM[0] is the mode and IMM[11:1] must be 0 (R87, R88, R138). -/
def envInitForm (w : Word) : Decoded :=
  fieldCheck w (rsvField w == 0 && (immField w).extractLsb' 1 11 == 0)
    (.envInit (unitField w) (modeOfBit ((immField w).getLsbD 0)))

/-- OP 0x0F: IMM selects what is read, and 3 and above is illegal (R86, R88). -/
def envReadForm (w : Word) : Decoded :=
  if immField w = 0 then fieldCheck w (rsvField w == 0) (.envRdPos (unitField w))
  else if immField w = 1 then fieldCheck w (rsvField w == 0) (.envRdStg (unitField w))
  else if immField w = 2 then fieldCheck w (rsvField w == 0) (.envRdGate (unitField w))
  else .illegalField w

/-- Decoding steps 1 and 2 of R85, total on every command. -/
def decode (c : Command) : Decoded :=
  match opField c.w with
  | 0x00#6 => plainForm c.w .nop
  | 0x01#6 => immForm c.w .csrRd
  | 0x02#6 => immForm c.w (.csrWr · c.a)
  | 0x04#6 => unitForm c.w (.gateStep · c.a)
  | 0x05#6 => unitForm c.w (.gateCfg · c.a)
  | 0x06#6 => unitForm c.w .gateRd
  | 0x07#6 => unitForm c.w .gateInit
  | 0x08#6 => envInitForm c.w
  | 0x09#6 => unitForm c.w (.envAtk · c.a)
  | 0x0A#6 => unitForm c.w (.envDec · c.a)
  | 0x0B#6 => unitForm c.w (.envSus · c.a)
  | 0x0C#6 => unitForm c.w (.envRel · c.a)
  | 0x0D#6 => unitForm c.w (.envThr · c.a)
  | 0x0E#6 => unitForm c.w (.envStep · c.a)
  | 0x0F#6 => envReadForm c.w
  | 0x10#6 => unitForm c.w (.lpfStep · c.a c.b)
  | 0x11#6 => unitForm c.w .lpfInit
  | 0x12#6 => unitForm c.w .lpfRd
  | 0x14#6 => unitForm c.w (.hpfStep · c.a c.b)
  | 0x15#6 => unitForm c.w .hpfInit
  | 0x16#6 => unitForm c.w .hpfRd
  | 0x18#6 => plainForm c.w (.dcbStep c.a)
  | 0x19#6 => plainForm c.w (.limStep c.a)
  | 0x1A#6 => plainForm c.w .busMaster
  | 0x1C#6 => plainForm c.w .busClr
  | 0x1D#6 => unitForm c.w (.busAcc · c.a)
  | 0x20#6 => unitForm c.w (.voiceSet · c.a c.b)
  | 0x21#6 => plainForm c.w (.voiceDel c.a)
  | 0x24#6 => unitImmForm c.w (.paramInit · · c.a)
  | 0x25#6 => unitImmForm c.w (.paramRd · · c.a)
  | 0x26#6 => immForm c.w (.paramPost · c.a c.b)
  | 0x27#6 => plainForm c.w .paramCommit
  | op => .illegalOpcode op

/-! ## Encoding -/

/-- The command word W of a command (R86). PW.WRITE has no command word; it gets 0 here, and
`encode` answers none for it. -/
def commandWord : Instr → Word
  | .nop => packWord 0x00 0 0
  | .csrRd csr => packWord 0x01 0 csr
  | .csrWr csr _ => packWord 0x02 0 csr
  | .gateStep g _ => packWord 0x04 g 0
  | .gateCfg g _ => packWord 0x05 g 0
  | .gateRd g => packWord 0x06 g 0
  | .gateInit g => packWord 0x07 g 0
  | .envInit e mode => packWord 0x08 e (modeImm mode)
  | .envAtk e _ => packWord 0x09 e 0
  | .envDec e _ => packWord 0x0A e 0
  | .envSus e _ => packWord 0x0B e 0
  | .envRel e _ => packWord 0x0C e 0
  | .envThr e _ => packWord 0x0D e 0
  | .envStep e _ => packWord 0x0E e 0
  | .envRdPos e => packWord 0x0F e 0
  | .envRdStg e => packWord 0x0F e 1
  | .envRdGate e => packWord 0x0F e 2
  | .lpfStep f _ _ => packWord 0x10 f 0
  | .lpfInit f => packWord 0x11 f 0
  | .lpfRd f => packWord 0x12 f 0
  | .hpfStep h _ _ => packWord 0x14 h 0
  | .hpfInit h => packWord 0x15 h 0
  | .hpfRd h => packWord 0x16 h 0
  | .dcbStep _ => packWord 0x18 0 0
  | .limStep _ => packWord 0x19 0 0
  | .busMaster => packWord 0x1A 0 0
  | .busClr => packWord 0x1C 0 0
  | .busAcc v _ => packWord 0x1D v 0
  | .voiceSet v _ _ => packWord 0x20 v 0
  | .voiceDel _ => packWord 0x21 0 0
  | .paramInit v index _ => packWord 0x24 v index
  | .paramRd v index _ => packWord 0x25 v index
  | .paramPost index _ _ => packWord 0x26 0 index
  | .paramCommit => packWord 0x27 0 0
  | .pwWrite _ _ _ => 0

/-- The operand words A and B of a command, 0 where the command uses none (R87, R90). -/
def operandWords : Instr → Word × Word
  | .nop => (0, 0)
  | .csrRd _ => (0, 0)
  | .csrWr _ a => (a, 0)
  | .gateStep _ a => (a, 0)
  | .gateCfg _ a => (a, 0)
  | .gateRd _ => (0, 0)
  | .gateInit _ => (0, 0)
  | .envInit _ _ => (0, 0)
  | .envAtk _ a => (a, 0)
  | .envDec _ a => (a, 0)
  | .envSus _ a => (a, 0)
  | .envRel _ a => (a, 0)
  | .envThr _ a => (a, 0)
  | .envStep _ a => (a, 0)
  | .envRdPos _ => (0, 0)
  | .envRdStg _ => (0, 0)
  | .envRdGate _ => (0, 0)
  | .lpfStep _ a b => (a, b)
  | .lpfInit _ => (0, 0)
  | .lpfRd _ => (0, 0)
  | .hpfStep _ a b => (a, b)
  | .hpfInit _ => (0, 0)
  | .hpfRd _ => (0, 0)
  | .dcbStep a => (a, 0)
  | .limStep a => (a, 0)
  | .busMaster => (0, 0)
  | .busClr => (0, 0)
  | .busAcc _ a => (a, 0)
  | .voiceSet _ a b => (a, b)
  | .voiceDel a => (a, 0)
  | .paramInit _ _ a => (a, 0)
  | .paramRd _ _ a => (a, 0)
  | .paramPost _ a b => (a, b)
  | .paramCommit => (0, 0)
  | .pwWrite _ _ _ => (0, 0)

/-- Whether an instruction is a command of the command port; PW.WRITE is the one that is not
(R86, R202). -/
def Instr.isCommand : Instr → Bool
  | .pwWrite _ _ _ => false
  | _ => true

/-- The three words of a command (R81, R86). PW.WRITE has no command word (R202). -/
def encode (i : Instr) : Option Command :=
  if i.isCommand then some ⟨commandWord i, (operandWords i).1, (operandWords i).2⟩ else none

/-! ## The opcode map (R86) -/

/-- One row of R86's opcode map. -/
structure OpRow where
  mnemonic : String
  pattern : Word
  mask : Word
  deriving DecidableEq, Repr

/-- The row of R86 that an instruction stands on; none for PW.WRITE. -/
def Instr.row? : Instr → Option OpRow
  | .nop => some ⟨"NOP", 0x00000000, 0xFFFFFFFF⟩
  | .csrRd _ => some ⟨"CSR.RD", 0x04000000, 0xFFFFF000⟩
  | .csrWr _ _ => some ⟨"CSR.WR", 0x08000000, 0xFFFFF000⟩
  | .gateStep _ _ => some ⟨"GATE.STEP", 0x10000000, 0xFC00FFFF⟩
  | .gateCfg _ _ => some ⟨"GATE.CFG", 0x14000000, 0xFC00FFFF⟩
  | .gateRd _ => some ⟨"GATE.RD", 0x18000000, 0xFC00FFFF⟩
  | .gateInit _ => some ⟨"GATE.INIT", 0x1C000000, 0xFC00FFFF⟩
  | .envInit _ _ => some ⟨"ENV.INIT", 0x20000000, 0xFC00FFFE⟩
  | .envAtk _ _ => some ⟨"ENV.ATK", 0x24000000, 0xFC00FFFF⟩
  | .envDec _ _ => some ⟨"ENV.DEC", 0x28000000, 0xFC00FFFF⟩
  | .envSus _ _ => some ⟨"ENV.SUS", 0x2C000000, 0xFC00FFFF⟩
  | .envRel _ _ => some ⟨"ENV.REL", 0x30000000, 0xFC00FFFF⟩
  | .envThr _ _ => some ⟨"ENV.THR", 0x34000000, 0xFC00FFFF⟩
  | .envStep _ _ => some ⟨"ENV.STEP", 0x38000000, 0xFC00FFFF⟩
  | .envRdPos _ => some ⟨"ENV.RDPOS", 0x3C000000, 0xFC00FFFF⟩
  | .envRdStg _ => some ⟨"ENV.RDSTG", 0x3C000001, 0xFC00FFFF⟩
  | .envRdGate _ => some ⟨"ENV.RDGATE", 0x3C000002, 0xFC00FFFF⟩
  | .lpfStep _ _ _ => some ⟨"LPF.STEP", 0x40000000, 0xFC00FFFF⟩
  | .lpfInit _ => some ⟨"LPF.INIT", 0x44000000, 0xFC00FFFF⟩
  | .lpfRd _ => some ⟨"LPF.RD", 0x48000000, 0xFC00FFFF⟩
  | .hpfStep _ _ _ => some ⟨"HPF.STEP", 0x50000000, 0xFC00FFFF⟩
  | .hpfInit _ => some ⟨"HPF.INIT", 0x54000000, 0xFC00FFFF⟩
  | .hpfRd _ => some ⟨"HPF.RD", 0x58000000, 0xFC00FFFF⟩
  | .dcbStep _ => some ⟨"DCB.STEP", 0x60000000, 0xFFFFFFFF⟩
  | .limStep _ => some ⟨"LIM.STEP", 0x64000000, 0xFFFFFFFF⟩
  | .busMaster => some ⟨"BUS.MASTER", 0x68000000, 0xFFFFFFFF⟩
  | .busClr => some ⟨"BUS.CLR", 0x70000000, 0xFFFFFFFF⟩
  | .busAcc _ _ => some ⟨"BUS.ACC", 0x74000000, 0xFC00FFFF⟩
  | .voiceSet _ _ _ => some ⟨"VOICE.SET", 0x80000000, 0xFC00FFFF⟩
  | .voiceDel _ => some ⟨"VOICE.DEL", 0x84000000, 0xFFFFFFFF⟩
  | .paramInit _ _ _ => some ⟨"PARAM.INIT", 0x90000000, 0xFC00F000⟩
  | .paramRd _ _ _ => some ⟨"PARAM.RD", 0x94000000, 0xFC00F000⟩
  | .paramPost _ _ _ => some ⟨"PARAM.POST", 0x98000000, 0xFFFFF000⟩
  | .paramCommit => some ⟨"PARAM.COMMIT", 0x9C000000, 0xFFFFFFFF⟩
  | .pwWrite _ _ _ => none

/-! ## The host's entry point -/

/-- The command whose bits are `w`, numbered from bit 0 of W, with every bit from `nbits` up at 0:
W is bits 31 to 0, A bits 63 to 32, B bits 95 to 64. The port carries the three words in parallel,
so no byte order applies (R66, R81). -/
def commandOfBits (nbits w : Nat) : Command :=
  let v := w % 2 ^ nbits
  ⟨BitVec.ofNat 32 v, BitVec.ofNat 32 (v >>> 32), BitVec.ofNat 32 (v >>> 64)⟩

/-- The instruction the decoder reads from a command whose bits are `w`. -/
def decodeTableWord (nbits w : Nat) : Option Instr :=
  match decode (commandOfBits nbits w) with
  | .instr i => some i
  | .illegalOpcode _ => none
  | .illegalField _ => none

end Sys2Proof
end

