-- ==== Sys2Proof/Config.lean ====
section
/-! DEFINITION. What an implementation fixes (the parameters of R7) and the values the spec leaves
free: the bit pattern of a NaN result (R16) and the four parameters marked OPEN in R7. -/

namespace Sys2Proof

/-- The implementation parameters of R7, as the machine holds them: the counts it was built with
(visible in CAPS0 to CAPS3), the two constants readable in `ENV_EPS` and `HEADROOM`, and the two
retrigger choices of R135. No step changes them. -/
structure Params where
  /-- `N_GATE`: number of standalone Gate units -/
  nGate : Nat
  /-- `N_ENV`: number of envelope units -/
  nEnv : Nat
  /-- `N_LPF`: number of lowpass units -/
  nLpf : Nat
  /-- `N_HPF`: number of highpass units -/
  nHpf : Nat
  /-- `N_VOICE`: number of voice slots -/
  nVoice : Nat
  /-- `N_PARAM`: parameters per voice slot -/
  nParam : Nat
  /-- `P_PWQ_DEPTH`: depth of the pending parameter-event FIFO -/
  pwqDepth : Nat
  /-- `P_ENV_EPS`: the floor of envelope times -/
  envEps : Word
  /-- `P_HEADROOM`: the limiter's headroom factor -/
  headroom : Word
  /-- `P_RETRIG_ATTACK`: a rising edge during Attack restarts Attack -/
  retrigAttack : Bool
  /-- `P_ADSR_RETRIG_RELEASE`: a rising edge during ADSR Release retriggers -/
  adsrRetrigRelease : Bool
  deriving DecidableEq, Repr

/-- A positive finite binary32: sign 0, and below the pattern of infinity (R7, layout of R66). -/
def positiveFinite (x : Word) : Bool :=
  decide (0 < x.toNat) && decide (x.toNat < 0x7F800000)

/-- The legal values of R7's table. -/
def Params.legal (p : Params) : Bool :=
  decide (1 ≤ p.nGate ∧ p.nGate ≤ 1024) &&
  decide (1 ≤ p.nEnv ∧ p.nEnv ≤ 1024) &&
  decide (1 ≤ p.nLpf ∧ p.nLpf ≤ 1024) &&
  decide (1 ≤ p.nHpf ∧ p.nHpf ≤ 1024) &&
  decide (1 ≤ p.nVoice ∧ p.nVoice ≤ 1024) &&
  decide (1 ≤ p.nParam ∧ p.nParam ≤ 4096) &&
  decide (1 ≤ p.pwqDepth ∧ p.pwqDepth ≤ 65535) &&
  positiveFinite p.envEps && positiveFinite p.headroom

/-- FREE VALUE (`P_NAN`, R16): the `k`-th NaN the machine draws, as a sign and a nonzero fraction
less one. Nothing constrains it; `Machine.nanPattern` lays it out as a binary32 NaN, and every
binary32 NaN is one of its values. Log entry 1. -/
opaque Config.nanDraw : Nat → Bool × Fin 8388607

/-- FREE VALUE (`P_ENV_EPS`, OPEN in R7): the pattern less one of a positive finite binary32.
Log entry 3. -/
opaque Config.envEpsCode : Fin 0x7F7FFFFF

/-- FREE VALUE (`P_HEADROOM`, OPEN in R7): the pattern less one of a positive finite binary32.
Log entry 3. -/
opaque Config.headroomCode : Fin 0x7F7FFFFF

/-- FREE VALUE (`P_RETRIG_ATTACK`, OPEN in R7). Log entry 3. -/
opaque Config.retrigAttack : Bool

/-- FREE VALUE (`P_ADSR_RETRIG_RELEASE`, OPEN in R7). Log entry 3. -/
opaque Config.adsrRetrigRelease : Bool

/-- The parameters of the machine that `State.reset` stands for: R7's reference counts, and a free
legal value for each parameter R7 marks OPEN. Log entries 2 and 3. -/
def Config.params : Params where
  nGate := 16
  nEnv := 16
  nLpf := 16
  nHpf := 16
  nVoice := 16
  nParam := 16
  pwqDepth := 64
  envEps := BitVec.ofNat 32 (Config.envEpsCode.val + 1)
  headroom := BitVec.ofNat 32 (Config.headroomCode.val + 1)
  retrigAttack := Config.retrigAttack
  adsrRetrigRelease := Config.adsrRetrigRelease

end Sys2Proof
end

