-- ==== Sys2Proof/Machine/State.lean ====
section
/-! DEFINITION. The state of the block: every register of spec/10_state.md, the hard-wired
implementation parameters, the response port, what the two agents offer on their ports, and the
count of NaN draws. The block has no memory (R46, R60). The reset state is R291's. -/

namespace Sys2Proof.Machine

/-- The four Gate states (R110). -/
inductive GateState where
  | low
  | risingEdge
  | high
  | fallingEdge
  deriving DecidableEq, Repr

/-- The five envelope stages (R130). Codes 5 to 7 are never held and have no constructor (I12). -/
inductive Stage where
  | silence
  | attack
  | decay
  | sustain
  | release
  deriving DecidableEq, Repr

/-- The ten fault causes of R260. -/
inductive Cause where
  | illegalOpcode
  | illegalField
  | unitRange
  | indexRange
  | csrAccess
  | paramOwner
  | voiceInactive
  | duplicateId
  | paramIndex
  | pwqFull
  deriving DecidableEq, Repr

/-- The two agents that act on the block (R61). -/
inductive Agent where
  | host
  | writer
  deriving DecidableEq, Repr

/-- What happens next on the block's ports: an agent has its turn, or the reset event (R290). -/
inductive Turn where
  | agent (a : Agent)
  | reset
  deriving DecidableEq, Repr

/-- One response on the response port: `rsp_data` and `rsp_err` (R84). -/
structure Response where
  data : Word
  err : Bool
  deriving DecidableEq, Repr

/-- A standalone Gate unit: `GSTATE` and `GTHR` (R23). -/
structure GateUnit where
  state : GateState
  thr : Word
  deriving DecidableEq, Repr

/-- An envelope unit: `EMODE`, `ESTAGE`, `EPOS`, `EGATE`, `ETHR`, `EATK`, `EDEC`, `ESUS`, `EREL`
(R24). -/
structure EnvUnit where
  mode : EnvMode
  stage : Stage
  pos : Word
  gate : GateState
  thr : Word
  atk : Word
  dec : Word
  sus : Word
  rel : Word
  deriving DecidableEq, Repr

/-- A voice slot: `VACTIVE`, `VID`, `VGAIN` (R30) and the row `PACT[v][*]` of active parameter
values (R31). -/
structure Voice where
  active : Bool
  id : Word
  gain : Word
  params : List Word
  deriving DecidableEq, Repr

/-- The whole state. Unit arrays are lists in index order; `Safety.lean`'s invariant says that
their lengths are the counts of `params`. -/
structure State where
  /-- the hard-wired implementation parameters (R7; CAPS0 to CAPS3, HEADROOM, ENV_EPS) -/
  params : Params
  /-- the standalone Gate units (R23) -/
  gates : List GateUnit
  /-- the envelope units (R24) -/
  envs : List EnvUnit
  /-- `LSTATE` (R25) -/
  lpfs : List Word
  /-- `HPREV` (R26) -/
  hpfs : List Word
  /-- `ACC` (R27) -/
  acc : Word
  /-- `DC_AVG` (R28) -/
  dcAvg : Word
  /-- `LIM_ENV` (R29) -/
  limEnv : Word
  /-- the voice slots (R30, R31) -/
  voices : List Voice
  /-- `PWQ`, oldest first (R32) -/
  pwq : List Event
  /-- `STATUS.FAULT`, the halted condition (R39, R264) -/
  fault : Bool
  /-- `STATUS.CAUSE` (R39) -/
  cause : BitVec 8
  /-- `FINFO` (R40) -/
  finfo : Word
  /-- `FAUX` (R40) -/
  faux : Word
  /-- `CTRL.FIE` (R41) -/
  fie : Bool
  /-- `SRATE` (R43) -/
  srate : Word
  /-- `SPERIOD` (R43, R44) -/
  speriod : Word
  /-- `DC_K` (R43, R44) -/
  dcK : Word
  /-- `LIM_CA` (R45) -/
  limCA : Word
  /-- `LIM_CR` (R45) -/
  limCR : Word
  /-- the response waiting for `rsp_ready`, if there is one (R80, R84) -/
  rsp : Option Response
  /-- the commands the host has to offer on the command port, in its issue order; the first is on
  `cmd_word`, `cmd_a`, `cmd_b` (R80) -/
  cmdPort : List Command
  /-- the events the parameter writer has to offer on its port, in its issue order; the first is
  on `pw_owner`, `pw_index`, `pw_value` (R80) -/
  pwPort : List Event
  /-- whose turn it is, in the order the turns come; any order is admitted (R63) -/
  sched : List Turn
  /-- the MODEL's own field: how many NaN results the machine has drawn (R16; log entry 1) -/
  nanDraws : Nat
  deriving DecidableEq, Repr

/-- The reasons for which a step could stop with no next state. There is NONE: every fault of this
block is architected, is taken as a next state (R262) and leaves a machine that still answers
(R264). The type is empty. -/
inductive Fault where
  deriving DecidableEq, Repr

/-- The reasons for which the model could have no meaning for an instruction. -/
inductive Refusal where
  /-- Raised by an arm of `exec` whose instruction has no meaning yet. Safe: nothing can be proved of
  a next state. No arm raises it. -/
  | notModelled (mnemonic : String)
  deriving DecidableEq, Repr

/-- What a step of this machine answers. -/
abbrev Result := Host.Outcome State Fault Refusal

/-- A Gate unit after reset: Low, threshold 0.05 (R23, R291). -/
def GateUnit.initial : GateUnit := ⟨.low, 0x3D4CCCCD⟩

/-- An envelope unit after reset (R24, R291). -/
def EnvUnit.initial : EnvUnit where
  mode := .ar
  stage := .silence
  pos := 0x00000000
  gate := .low
  thr := 0x3D4CCCCD
  atk := 0x00000000
  dec := 0x00000000
  sus := 0x00000000
  rel := 0x00000000

/-- A voice slot after reset, with `n` parameters (R30, R31, R291). -/
def Voice.initial (n : Nat) : Voice := ⟨false, 0x00000000, 0x00000000, List.replicate n 0x00000000⟩

/-- The state right after reset of a machine with parameters `p` (R291), with nothing offered on
its ports, no turn to come and no NaN drawn. -/
def State.initial (p : Params) : State where
  params := p
  gates := List.replicate p.nGate GateUnit.initial
  envs := List.replicate p.nEnv EnvUnit.initial
  lpfs := List.replicate p.nLpf 0x00000000
  hpfs := List.replicate p.nHpf 0x00000000
  acc := 0x00000000
  dcAvg := 0x00000000
  limEnv := 0x3F800000
  voices := List.replicate p.nVoice (Voice.initial p.nParam)
  pwq := []
  fault := false
  cause := 0x00
  finfo := 0x00000000
  faux := 0x00000000
  fie := false
  srate := 0x472C4400
  speriod := 0x37BE37C6
  dcK := 0x373E37C6
  limCA := 0x00000000
  limCR := 0x00000000
  rsp := none
  cmdPort := []
  pwPort := []
  sched := []
  nanDraws := 0

/-- The machine right after reset (R291), built with the parameters of `Config.params`. -/
def State.reset : State := State.initial Config.params

end Sys2Proof.Machine
end

