-- ==== Sys2Proof/Machine/Binary32.lean ====
section
/-! DEFINITION. IEEE 754 binary32 on 32-bit words: the layout (R66), the primitives of R11 rounded
once to nearest, ties to even, with subnormals kept, the ordered comparisons and `fabs` of R12, the
helpers of R13, the constants of R9 and R14, and the draw of a NaN result (R16).

A finite value is held exactly as an integer number of units of 2^-149, the least subnormal, so the
exact result of an operation is a quotient of integers and is rounded in one place. -/

namespace Sys2Proof.Machine

/-! ## Layout (R66) -/

/-- Bit 31 is the sign. -/
def isNeg (a : Word) : Bool := a.getLsbD 31

/-- Bits 30 to 0: the pattern of the magnitude. -/
def magBits (a : Word) : Nat := a.toNat % 2 ^ 31

/-- Bits 30 to 23: the biased exponent. -/
def expField (a : Word) : Nat := magBits a / 2 ^ 23

/-- Bits 22 to 0: the fraction. -/
def fracField (a : Word) : Nat := magBits a % 2 ^ 23

/-- A NaN: exponent all ones, fraction not 0. -/
def isNaN (a : Word) : Bool := expField a == 255 && fracField a != 0

/-- An infinity: exponent all ones, fraction 0. -/
def isInf (a : Word) : Bool := expField a == 255 && fracField a == 0

/-- A finite value: exponent not all ones. -/
def isFinite (a : Word) : Bool := expField a != 255

/-- A zero of either sign. -/
def isZero (a : Word) : Bool := magBits a == 0

/-- `+0.0`. -/
def posZero : Word := 0x00000000

/-- `-0.0`. -/
def negZero : Word := 0x80000000

/-- `1.0`. -/
def one : Word := 0x3F800000

/-- `-1.0`. -/
def minusOne : Word := 0xBF800000

/-- `0.5`. -/
def half : Word := 0x3F000000

/-- `TWO_PI`, the binary32 nearest 2π (R14). -/
def twoPi : Word := 0x40C90FDB

/-- The pattern of a magnitude with a sign. -/
def withSign (neg : Bool) (mag : Nat) : Word :=
  BitVec.ofNat 32 (if neg then 2 ^ 31 + mag else mag)

/-- The pattern of the magnitude of infinity. -/
def infBits : Nat := 0x7F800000

/-! ## Exact values and rounding (R11) -/

/-- The magnitude of a finite value in units of 2^-149. -/
def magUnits (a : Word) : Nat :=
  if expField a = 0 then fracField a else (2 ^ 23 + fracField a) * 2 ^ (expField a - 1)

/-- A finite value in units of 2^-149. -/
def units (a : Word) : Int := if isNeg a then -(magUnits a : Int) else magUnits a

/-- `num / den` rounded to an integer, to nearest, ties to even. -/
def roundDiv (num den : Nat) : Nat :=
  let q := num / den
  let r := num % den
  if 2 * r < den then q else if 2 * r = den then q + q % 2 else q + 1

/-- The magnitude pattern of the binary32 nearest to `num / den` units of 2^-149, ties to even, with
overflow to infinity (R11). The unit in the last place is 2^k units; a significand that rounds up
to 2^24 carries into the exponent. -/
def roundMag (num den : Nat) : Nat :=
  let k := Nat.log2 (num / den) - 23
  min (k * 2 ^ 23 + roundDiv num (den * 2 ^ k)) infBits

/-- A number of units of 2^-149, rounded to binary32. -/
def roundUnits (x : Int) : Word := withSign (decide (x < 0)) (roundMag x.natAbs 1)

/-! ## Signs (R12) -/

/-- `fabs(a)` clears bit 31 (R12). -/
def fabs (a : Word) : Word := a &&& 0x7FFFFFFF

/-- `a` with bit 31 inverted: what a subtraction adds. -/
def fneg (a : Word) : Word := a ^^^ 0x80000000

/-! ## Arithmetic (R11)

Each operation takes as first argument the NaN it returns if its result is a NaN (R16). -/

/-- `fadd(a, b)` (R11): an exact sum of 0 is `-0` only when both operands are negative. -/
def fadd (nan a b : Word) : Word :=
  if isNaN a || isNaN b then nan
  else if isInf a then
    if isInf b && (isNeg a != isNeg b) then nan else a
  else if isInf b then b
  else if units a + units b = 0 then
    if isNeg a && isNeg b then negZero else posZero
  else roundUnits (units a + units b)

/-- `fsub(a, b)` (R11): the sum with `b` negated. -/
def fsub (nan a b : Word) : Word := fadd nan a (fneg b)

/-- `fmul(a, b)` (R11). -/
def fmul (nan a b : Word) : Word :=
  let neg := isNeg a != isNeg b
  if isNaN a || isNaN b then nan
  else if isInf a || isInf b then
    if isZero a || isZero b then nan else withSign neg infBits
  else withSign neg (roundMag (magUnits a * magUnits b) (2 ^ 149))

/-- `fdiv(a, b)` (R11). -/
def fdiv (nan a b : Word) : Word :=
  let neg := isNeg a != isNeg b
  if isNaN a || isNaN b then nan
  else if isInf a then
    if isInf b then nan else withSign neg infBits
  else if isInf b then withSign neg 0
  else if isZero b then
    if isZero a then nan else withSign neg infBits
  else withSign neg (roundMag (magUnits a * 2 ^ 149) (magUnits b))

/-! ## Comparisons (R12) -/

/-- An integer that orders the values that are not NaN as IEEE 754 does, with both zeros at 0. -/
def orderKey (a : Word) : Int := if isNeg a then -(magBits a : Int) else magBits a

/-- `a < b`: false if either is a NaN. -/
def flt (a b : Word) : Bool := !isNaN a && !isNaN b && decide (orderKey a < orderKey b)

/-- `a <= b`: false if either is a NaN. -/
def fle (a b : Word) : Bool := !isNaN a && !isNaN b && decide (orderKey a ≤ orderKey b)

/-- `a > b`. -/
def fgt (a b : Word) : Bool := flt b a

/-- `a >= b`. -/
def fge (a b : Word) : Bool := fle b a

/-! ## Helpers (R13) -/

/-- `floor_eps(t)` for the machine's `P_ENV_EPS`. -/
def floorEps (eps t : Word) : Word := if flt t eps then eps else t

/-- `floor_one(e)`. -/
def floorOne (e : Word) : Word := if flt e one then one else e

/-- `clamp(v, lo, hi)`. -/
def clamp (v lo hi : Word) : Word := if flt v lo then lo else if fgt v hi then hi else v

/-! ## NaN results (R16) -/

/-- The NaN with the given sign and with the given fraction less one. -/
def nanPattern (d : Bool × Fin 8388607) : Word := withSign d.1 (infBits + (d.2.val + 1))

/-- The NaN that the `k`-th operation from here on returns if its result is a NaN: a free value. -/
def State.nan (s : State) (k : Nat) : Word := nanPattern (Config.nanDraw (s.nanDraws + k))

/-- The state after `n` operations have had their draws. -/
def State.drew (s : State) (n : Nat) : State := { s with nanDraws := s.nanDraws + n }

end Sys2Proof.Machine
end

