-- ==== Sys2Proof/Machine/Flags.lean ====
section
/-! DEFINITION. The flag-like values of the block. It has no condition codes (R22): a Gate state is
a code with four predicates (R110, R114), computed by one transition function (R111); an envelope
stage is a code (R130) with a retrigger policy (R135). `rsp_err` is set in Ops.lean. -/

namespace Sys2Proof.Machine

/-- The 2-bit code of a Gate state (R110). -/
def GateState.code : GateState → BitVec 2
  | .low => 0
  | .risingEdge => 1
  | .high => 2
  | .fallingEdge => 3

/-- The 3-bit code of a stage (R130). -/
def Stage.code : Stage → BitVec 3
  | .silence => 0
  | .attack => 1
  | .decay => 2
  | .sustain => 3
  | .release => 4

/-- `GateNext(st, s, thr)` (R111). -/
def gateNext (st : GateState) (s thr : Word) : GateState :=
  match st with
  | .low => if fgt s thr then .risingEdge else .low
  | .risingEdge => if fge s thr then .high else .fallingEdge
  | .high => if flt s thr then .fallingEdge else .high
  | .fallingEdge => if fle s thr then .low else .risingEdge

/-- `is_rising_edge` (R114). -/
def isRisingEdge (st : GateState) : Bool := st == .risingEdge

/-- `is_falling_edge` (R114). -/
def isFallingEdge (st : GateState) : Bool := st == .fallingEdge

/-- `is_highish` (R114). -/
def isHighish (st : GateState) : Bool := st == .high || st == .risingEdge

/-- `is_lowish` (R114). -/
def isLowish (st : GateState) : Bool := st == .low || st == .fallingEdge

/-- `RetrigAllowed(mode, st)` (R135), with the two OPEN choices from the parameters. -/
def retrigAllowed (p : Params) (mode : EnvMode) (st : Stage) : Bool :=
  match st with
  | .silence => true
  | .attack => p.retrigAttack
  | .decay => true
  | .sustain => true
  | .release =>
    match mode with
    | .ar => true
    | .adsr => p.adsrRetrigRelease

/-- The 8-bit code of a fault cause (R260). -/
def Cause.code : Cause → BitVec 8
  | .illegalOpcode => 0x01
  | .illegalField => 0x02
  | .unitRange => 0x03
  | .indexRange => 0x04
  | .csrAccess => 0x05
  | .paramOwner => 0x06
  | .voiceInactive => 0x07
  | .duplicateId => 0x08
  | .paramIndex => 0x09
  | .pwqFull => 0x0A

end Sys2Proof.Machine
end

