-- ==== Sys2Proof/WellFormed.lean ====
section
/-! DEFINITION. When an instruction is well-formed for a machine built with given parameters: its
UNIT names a unit that exists (R85 step 3) and, for PARAM.INIT and PARAM.RD, its index names a
parameter that exists (R85 step 4). The field widths are in the types. -/

namespace Sys2Proof

/-- The five kinds of unit that UNIT can select (R82, R85 step 3). -/
inductive UnitKind where
  | gate
  | env
  | lpf
  | hpf
  | voice
  deriving DecidableEq, Repr

/-- How many units of a kind the machine has (R7). -/
def Params.count (p : Params) : UnitKind → Nat
  | .gate => p.nGate
  | .env => p.nEnv
  | .lpf => p.nLpf
  | .hpf => p.nHpf
  | .voice => p.nVoice

/-- R85 step 3 as a check: UNIT is below the count of its kind. -/
def Params.hasUnit (p : Params) (k : UnitKind) (u : UnitIx) : Bool :=
  decide (u.toNat < p.count k)

/-- R85 step 4 as a check: the index is below `N_PARAM`. -/
def Params.hasIndex (p : Params) (index : Imm) : Bool :=
  decide (index.toNat < p.nParam)

/-- The kind of unit and the UNIT value of an instruction that uses UNIT (R87). -/
def Instr.unit? : Instr → Option (UnitKind × UnitIx)
  | .nop => none
  | .csrRd _ => none
  | .csrWr _ _ => none
  | .gateStep g _ => some (.gate, g)
  | .gateCfg g _ => some (.gate, g)
  | .gateRd g => some (.gate, g)
  | .gateInit g => some (.gate, g)
  | .envInit e _ => some (.env, e)
  | .envAtk e _ => some (.env, e)
  | .envDec e _ => some (.env, e)
  | .envSus e _ => some (.env, e)
  | .envRel e _ => some (.env, e)
  | .envThr e _ => some (.env, e)
  | .envStep e _ => some (.env, e)
  | .envRdPos e => some (.env, e)
  | .envRdStg e => some (.env, e)
  | .envRdGate e => some (.env, e)
  | .lpfStep f _ _ => some (.lpf, f)
  | .lpfInit f => some (.lpf, f)
  | .lpfRd f => some (.lpf, f)
  | .hpfStep h _ _ => some (.hpf, h)
  | .hpfInit h => some (.hpf, h)
  | .hpfRd h => some (.hpf, h)
  | .dcbStep _ => none
  | .limStep _ => none
  | .busMaster => none
  | .busClr => none
  | .busAcc v _ => some (.voice, v)
  | .voiceSet v _ _ => some (.voice, v)
  | .voiceDel _ => none
  | .paramInit v _ _ => some (.voice, v)
  | .paramRd v _ _ => some (.voice, v)
  | .paramPost _ _ _ => none
  | .paramCommit => none
  | .pwWrite _ _ _ => none

/-- The parameter index of an instruction whose index R85 step 4 checks: PARAM.INIT and PARAM.RD
only. PARAM.POST and PW.WRITE carry an index that is checked at commit (R206). -/
def Instr.index? : Instr → Option Imm
  | .paramInit _ index _ => some index
  | .paramRd _ index _ => some index
  | .nop => none
  | .csrRd _ => none
  | .csrWr _ _ => none
  | .gateStep _ _ => none
  | .gateCfg _ _ => none
  | .gateRd _ => none
  | .gateInit _ => none
  | .envInit _ _ => none
  | .envAtk _ _ => none
  | .envDec _ _ => none
  | .envSus _ _ => none
  | .envRel _ _ => none
  | .envThr _ _ => none
  | .envStep _ _ => none
  | .envRdPos _ => none
  | .envRdStg _ => none
  | .envRdGate _ => none
  | .lpfStep _ _ _ => none
  | .lpfInit _ => none
  | .lpfRd _ => none
  | .hpfStep _ _ _ => none
  | .hpfInit _ => none
  | .hpfRd _ => none
  | .dcbStep _ => none
  | .limStep _ => none
  | .busMaster => none
  | .busClr => none
  | .busAcc _ _ => none
  | .voiceSet _ _ _ => none
  | .voiceDel _ => none
  | .paramPost _ _ _ => none
  | .paramCommit => none
  | .pwWrite _ _ _ => none

/-- R85 steps 3 and 4: the range checks a command word passes on a machine with parameters `p`. -/
def Instr.wellFormed (p : Params) (i : Instr) : Bool :=
  (match i.unit? with
   | some (k, u) => p.hasUnit k u
   | none => true) &&
  (match i.index? with
   | some index => p.hasIndex index
   | none => true)

end Sys2Proof
end

