-- ==== Sys2Proof/Machine/Operands.lean ====
section
/-! DEFINITION. The operand forms: UNIT as an index into a register array, with reads and writes of
one unit (R10, R83), IMM as a CSR number (R33 to R45) and as a parameter index, and zero extension
(R9). -/

namespace Sys2Proof.Machine

/-- `zext_32` (R9). -/
def zext32 {n : Nat} (v : BitVec n) : Word := v.setWidth 32

/-! ## UNIT: one unit of a register array (R10, R83) -/

/-- Gate unit `g`. -/
def State.gate (s : State) (g : UnitIx) : GateUnit := s.gates.getD g.toNat GateUnit.initial

/-- Writes Gate unit `g`. -/
def State.setGate (s : State) (g : UnitIx) (u : GateUnit) : State :=
  { s with gates := s.gates.set g.toNat u }

/-- Envelope unit `e`. -/
def State.env (s : State) (e : UnitIx) : EnvUnit := s.envs.getD e.toNat EnvUnit.initial

/-- Writes envelope unit `e`. -/
def State.setEnv (s : State) (e : UnitIx) (u : EnvUnit) : State :=
  { s with envs := s.envs.set e.toNat u }

/-- `LSTATE[f]`. -/
def State.lpf (s : State) (f : UnitIx) : Word := s.lpfs.getD f.toNat posZero

/-- Writes `LSTATE[f]`. -/
def State.setLpf (s : State) (f : UnitIx) (x : Word) : State :=
  { s with lpfs := s.lpfs.set f.toNat x }

/-- `HPREV[h]`. -/
def State.hpf (s : State) (h : UnitIx) : Word := s.hpfs.getD h.toNat posZero

/-- Writes `HPREV[h]`. -/
def State.setHpf (s : State) (h : UnitIx) (x : Word) : State :=
  { s with hpfs := s.hpfs.set h.toNat x }

/-- Voice slot `v`. -/
def State.voice (s : State) (v : UnitIx) : Voice := s.voices.getD v.toNat (Voice.initial 0)

/-- Writes voice slot `v`. -/
def State.setVoice (s : State) (v : UnitIx) (x : Voice) : State :=
  { s with voices := s.voices.set v.toNat x }

/-- Element `index` of a slot's row `PACT[v][*]` (R31). -/
def Voice.param (x : Voice) (index : Imm) : Word := x.params.getD index.toNat posZero

/-- Writes element `index` of a slot's row `PACT[v][*]`. -/
def Voice.setParam (x : Voice) (index : Imm) (value : Word) : Voice :=
  { x with params := x.params.set index.toNat value }

/-! ## IMM: CSR numbers (R33) -/

/-- The twenty CSRs of R33's map. -/
inductive Csr where
  | id
  | caps0
  | caps1
  | caps2
  | caps3
  | status
  | finfo
  | faux
  | ctrl
  | pwqlvl
  | srate
  | speriod
  | dcK
  | limCA
  | limCR
  | headroom
  | envEps
  | dcAvg
  | limEnv
  | acc
  deriving DecidableEq, Repr

/-- The CSR with a number, or none for a reserved number (R33). -/
def csrOfNumber (n : Imm) : Option Csr :=
  match n with
  | 0x000#12 => some .id
  | 0x001#12 => some .caps0
  | 0x002#12 => some .caps1
  | 0x003#12 => some .caps2
  | 0x004#12 => some .caps3
  | 0x008#12 => some .status
  | 0x009#12 => some .finfo
  | 0x00A#12 => some .faux
  | 0x00B#12 => some .ctrl
  | 0x00C#12 => some .pwqlvl
  | 0x010#12 => some .srate
  | 0x011#12 => some .speriod
  | 0x012#12 => some .dcK
  | 0x013#12 => some .limCA
  | 0x014#12 => some .limCR
  | 0x015#12 => some .headroom
  | 0x016#12 => some .envEps
  | 0x018#12 => some .dcAvg
  | 0x019#12 => some .limEnv
  | 0x01A#12 => some .acc
  | _ => none

/-- The number of a CSR (R33). -/
def Csr.number : Csr → Imm
  | .id => 0x000
  | .caps0 => 0x001
  | .caps1 => 0x002
  | .caps2 => 0x003
  | .caps3 => 0x004
  | .status => 0x008
  | .finfo => 0x009
  | .faux => 0x00A
  | .ctrl => 0x00B
  | .pwqlvl => 0x00C
  | .srate => 0x010
  | .speriod => 0x011
  | .dcK => 0x012
  | .limCA => 0x013
  | .limCR => 0x014
  | .headroom => 0x015
  | .envEps => 0x016
  | .dcAvg => 0x018
  | .limEnv => 0x019
  | .acc => 0x01A

/-- Two 16-bit counts in one word, `{hi, lo}` (R35 to R38). -/
def halves (hi lo : Nat) : Word := BitVec.ofNat 16 hi ++ BitVec.ofNat 16 lo

/-- `STATUS`: FAULT in bit 0, CAUSE in bits 15 to 8, every other bit 0 (R39). -/
def State.status (s : State) : Word := 0#16 ++ s.cause ++ 0#7 ++ BitVec.ofBool s.fault

/-- `CTRL`: FIE in bit 0, every other bit 0 (R41). -/
def State.ctrl (s : State) : Word := 0#31 ++ BitVec.ofBool s.fie

/-- `PWQLVL`: the number of entries in `PWQ` in bits 15 to 0 (R42). -/
def State.pwqlvl (s : State) : Word := halves 0 s.pwq.length

/-- The value a read of a CSR gives (R34 to R45, R241). No read has a side effect (R65). -/
def State.readCsr (s : State) : Csr → Word
  | .id => 0x56534731
  | .caps0 => halves s.params.nEnv s.params.nGate
  | .caps1 => halves s.params.nHpf s.params.nLpf
  | .caps2 => halves s.params.nParam s.params.nVoice
  | .caps3 => halves 0 s.params.pwqDepth
  | .status => s.status
  | .finfo => s.finfo
  | .faux => s.faux
  | .ctrl => s.ctrl
  | .pwqlvl => s.pwqlvl
  | .srate => s.srate
  | .speriod => s.speriod
  | .dcK => s.dcK
  | .limCA => s.limCA
  | .limCR => s.limCR
  | .headroom => s.params.headroom
  | .envEps => s.params.envEps
  | .dcAvg => s.dcAvg
  | .limEnv => s.limEnv
  | .acc => s.acc

/-- A write of `SRATE` writes `SPERIOD` and `DC_K` in the same command (R43): two operations. -/
def State.writeSrate (s : State) (a : Word) : State :=
  State.drew
    { s with
      srate := a
      speriod := fdiv (s.nan 0) one a
      dcK := fdiv (s.nan 1) half a } 2

/-- The effect of a write of a CSR, or none for a read-only one (R33, R242). -/
def State.writeCsr (s : State) (csr : Csr) (a : Word) : Option State :=
  match csr with
  | .ctrl => some { s with fie := a.getLsbD 0 }
  | .srate => some (s.writeSrate a)
  | .limCA => some { s with limCA := a }
  | .limCR => some { s with limCR := a }
  | .id => none
  | .caps0 => none
  | .caps1 => none
  | .caps2 => none
  | .caps3 => none
  | .status => none
  | .finfo => none
  | .faux => none
  | .pwqlvl => none
  | .speriod => none
  | .dcK => none
  | .headroom => none
  | .envEps => none
  | .dcAvg => none
  | .limEnv => none
  | .acc => none

end Sys2Proof.Machine
end

