-- ==== Sys2Proof/Machine/Ops.lean ====
section
/-! DEFINITION. The shared operations: completing a command, raising a fault (the block's one
exception, R262), the halted block (R264, R268), the reset event that alone leaves it (R269, R290),
the range checks of R85 steps 3 and 4, voice lookup (R200), the parameter FIFO (R202, R203), the
two master-bus recursions (R180, R182), the ports (R80), and what an agent's turn takes from
them. -/

namespace Sys2Proof.Machine

/-! ## Responses and faults -/

/-- A normal response: `rsp_err` = 0 (R84). -/
def State.respond (s : State) (data : Word) : State := { s with rsp := some ⟨data, false⟩ }

/-- The response of a command that faulted or was discarded: data 0, `rsp_err` = 1 (R84). -/
def State.respondError (s : State) : State := { s with rsp := some ⟨0x00000000, true⟩ }

/-- TAKING A FAULT (R262): the command with word `w` ends at once, and FAULT, CAUSE, FINFO and FAUX
are written together with the error response. The block has no program counter and no handler, so
no control is transferred (R263). While halted the fault registers keep the first fault (R268). -/
def State.takeFault (s : State) (w : Word) (cause : Cause) (aux : Word) : State :=
  if s.fault then s.respondError
  else
    { s with
      fault := true
      cause := cause.code
      finfo := w
      faux := aux
      rsp := some ⟨0x00000000, true⟩ }

/-- THE RESET EVENT (R290), the only way out of the halted state (R269): every register takes its
value of R291, `PWQ` is emptied and a waiting response is withdrawn. What the agents offer is not
accepted and stays offered; the hard-wired parameters stay; NaN draws go on and are not repeated. -/
def State.resetEvent (s : State) : State :=
  { State.initial s.params with
    cmdPort := s.cmdPort
    pwPort := s.pwPort
    sched := s.sched
    nanDraws := s.nanDraws }

/-- What the body of a command does: it completes with a new state and response data, or it raises
a fault, and then writes nothing else (R10, R262). -/
inductive Effect where
  | done (t : State) (data : Word)
  | raise (cause : Cause) (aux : Word)
  deriving DecidableEq, Repr

/-- The end of the command with word `w` that began in state `s` (R84, R262). -/
def finish (w : Word) (s : State) (e : Effect) : Result :=
  match e with
  | .done t data => .next (t.respond data)
  | .raise cause aux => .next (s.takeFault w cause aux)

/-- A command that runs only while the block is not halted; halted, it is discarded: no state is
written and the response is the error response (R264). -/
def gated (w : Word) (s : State) (e : Effect) : Result :=
  if s.fault then .next s.respondError else finish w s e

/-! ## Range checks (R85 steps 3 and 4) -/

/-- R85 step 3: UNIT_RANGE with aux = `zext_32(UNIT)`, or the rest of the command. -/
def withUnit (s : State) (k : UnitKind) (u : UnitIx) (e : Effect) : Effect :=
  if s.params.hasUnit k u then e else .raise .unitRange (zext32 u)

/-- R85 step 4: INDEX_RANGE with aux = `zext_32(IMM)`, or the rest of the command. -/
def withIndex (s : State) (index : Imm) (e : Effect) : Effect :=
  if s.params.hasIndex index then e else .raise .indexRange (zext32 index)

/-! ## Voices and the parameter FIFO -/

/-- Whether a slot holds an active voice with SynthID `o`. -/
def Voice.holds (x : Voice) (o : Word) : Bool := x.active && x.id == o

/-- `FindSlot(o)` (R200): the slot that holds the active voice with SynthID `o`. -/
def findSlot (voices : List Voice) (o : Word) : Option Nat := voices.findIdx? (·.holds o)

/-- Whether a slot other than `v` holds an active voice with SynthID `o` (R208). -/
def heldElsewhere (voices : List Voice) (v : Nat) (o : Word) : Bool :=
  voices.zipIdx.any fun x => x.2 != v && x.1.holds o

/-- `|PWQ| < P_PWQ_DEPTH` (R202, R203). -/
def State.pwqHasRoom (s : State) : Bool := decide (s.pwq.length < s.params.pwqDepth)

/-- Appends an event to the tail of `PWQ` (R202, R203). -/
def State.append (s : State) (e : Event) : State := { s with pwq := s.pwq ++ [e] }

/-- Whether a pending event names an active owner with an index that does not exist (R206). -/
def eventOffends (p : Params) (voices : List Voice) (e : Event) : Bool :=
  (findSlot voices e.owner).isSome && !p.hasIndex e.index

/-- The oldest event of a batch that offends (R205, R206). -/
def firstOffender (p : Params) (voices : List Voice) (batch : List Event) : Option Event :=
  batch.find? (eventOffends p voices)

/-- One event applied to the slots: `new[v][i] <- val`, or nothing for an owner with no active
slot (R205, R213). -/
def applyEvent (voices : List Voice) (e : Event) : List Voice :=
  match findSlot voices e.owner with
  | some v => voices.modify v (·.setParam e.index e.value)
  | none => voices

/-- A batch applied oldest first, so that later entries overwrite earlier ones (R205). -/
def applyBatch (voices : List Voice) (batch : List Event) : List Voice :=
  batch.foldl applyEvent voices

/-! ## Increments and the two master-bus recursions -/

/-- `fdiv(1.0, floor_eps(t))`, the increment of an envelope time (R134): one operation. -/
def State.increment (s : State) (t : Word) : Word :=
  fdiv (s.nan 0) one (floorEps s.params.envEps t)

/-- `DcStep(x)` (R180): the state after it and the DC-removed sample. Four operations. -/
def State.dcStep (s : State) (x : Word) : State × Word :=
  let avg := fadd (s.nan 2) s.dcAvg (fmul (s.nan 1) (fsub (s.nan 0) x s.dcAvg) s.dcK)
  (State.drew { s with dcAvg := avg } 4, fsub (s.nan 3) x avg)

/-- The limiter's follower before the floor (R182): attack when `|y|` exceeds the envelope, release
otherwise. Three operations. -/
def State.follow (s : State) (y : Word) : Word :=
  let c := if fgt (fabs y) s.limEnv then s.limCA else s.limCR
  fadd (s.nan 2) s.limEnv (fmul (s.nan 1) (fsub (s.nan 0) (fabs y) s.limEnv) c)

/-- `LimStep(y)` (R182): the state after it and the limited sample. Five operations. -/
def State.limStep (s : State) (y : Word) : State × Word :=
  let env := floorOne (s.follow y)
  (State.drew { s with limEnv := env } 5,
   clamp (fdiv (s.nan 4) y (fmul (s.nan 3) env s.params.headroom)) minusOne one)

/-! ## Ports (R80) -/

/-- `rst`: the reset input in the cycle of the turn to come. -/
def State.rst (s : State) : Bool := s.sched.head? == some .reset

/-- `rsp_valid` (R80), 0 during reset (R290). -/
def State.rspValid (s : State) : Bool := !s.rst && s.rsp.isSome

/-- `cmd_ready`: 0 while a response waits (R80) and during reset (R290). Cycles in which the block
could hold it at 0 for no such reason are not modelled (R300). -/
def State.cmdReady (s : State) : Bool := !s.rst && s.rsp.isNone

/-- `pw_ready`: 0 while `PWQ` is full (R202) and during reset (R290). -/
def State.pwReady (s : State) : Bool := !s.rst && s.pwqHasRoom

/-- `irq`: FAULT and FIE, a level (R266), 0 during reset (R290). -/
def State.irq (s : State) : Bool := !s.rst && (s.fault && s.fie)

/-- What a turn of the host comes to. -/
inductive HostMove where
  /-- the waiting response is taken; `cmd_ready` is 0 until it is (R80) -/
  | takeResponse (t : State)
  /-- a command is accepted (R80) -/
  | accept (c : Command) (t : State)
  /-- the host offers nothing: no state changes (R276) -/
  | idle
  deriving DecidableEq, Repr

/-- The host's turn on its two ports: it takes the response that waits, else it has its next
command accepted (R62, R80). -/
def State.hostMove (s : State) : HostMove :=
  match s.rsp, s.cmdPort with
  | some _, _ => .takeResponse { s with rsp := none }
  | none, c :: rest => .accept c { s with cmdPort := rest }
  | none, [] => .idle

/-- The writer's turn on its port: the event it offers, accepted only while `PWQ` has room; while
`PWQ` is full the writer waits and keeps offering it (R202, R265). -/
def State.writerMove (s : State) : Option (Event × State) :=
  match s.pwPort with
  | e :: rest => if s.pwqHasRoom then some (e, { s with pwPort := rest }) else none
  | [] => none

/-- A command word that does not decode (R85 steps 1 and 2): the fault it raises. Halted, it is
discarded (R264), and so is a CSR.RD word whose fields fail (R268). -/
def rejectOpcode (c : Command) (op : BitVec 6) (s : State) : Result :=
  gated c.w s (.raise .illegalOpcode (zext32 op))

/-- As `rejectOpcode`, for a field that fails (R85 step 2). -/
def rejectField (c : Command) (s : State) : Result :=
  gated c.w s (.raise .illegalField c.w)

end Sys2Proof.Machine
end

