-- ==== Sys2Proof/Machine/Control.lean ====
section
/-! DEFINITION. The control commands NOP, CSR.RD and CSR.WR (R240 to R242). -/

namespace Sys2Proof.Machine

/-- NOP (R240): no state is read or written; it runs while the block is halted too (R264). -/
def execNop (s : State) : Result := .next (s.respond 0x00000000)

/-- CSR.RD (R241): it runs while the block is halted too (R264); a reserved number then gives the
error response and leaves the fault registers (R268). -/
def execCsrRd (csr : Imm) (s : State) : Result :=
  finish (commandWord (.csrRd csr)) s <|
    match csrOfNumber csr with
    | some r => .done s (s.readCsr r)
    | none => .raise .csrAccess (zext32 csr)

/-- CSR.WR (R242): a reserved number is tested before a read-only register (R267). -/
def execCsrWr (csr : Imm) (a : Word) (s : State) : Result :=
  gated (commandWord (.csrWr csr a)) s <|
    match csrOfNumber csr with
    | none => .raise .csrAccess (zext32 csr)
    | some r =>
      match s.writeCsr r a with
      | none => .raise .csrAccess (zext32 csr)
      | some t => .done t 0x00000000

end Sys2Proof.Machine
end

