-- ==== Sys2Proof/Machine/Envelope.lean ====
section
/-! DEFINITION. The envelope commands (R136, R138 to R146). -/

namespace Sys2Proof.Machine

/-- Phase 1 of ENV.STEP (R136): the stage and position after the transitions that the Gate drives.
`g` is the Gate's state after this step's update. -/
def envTransition (p : Params) (u : EnvUnit) (g : GateState) : Stage × Word :=
  if isRisingEdge g && retrigAllowed p u.mode u.stage then (.attack, posZero)
  else if u.mode == .adsr && u.stage == .sustain && isLowish g then (.release, u.pos)
  else (u.stage, u.pos)

/-- Phase 2 of ENV.STEP (R136, R137): the advance of the stage now current from position `x`.
`nan0` and `nan1` are the NaNs of its multiplication and of its addition or subtraction. -/
def envAdvance (nan0 nan1 : Word) (u : EnvUnit) (dt : Word) (st : Stage) (x : Word) :
    Stage × Word :=
  match st with
  | .silence => (.silence, x)
  | .attack =>
    let y := fadd nan1 x (fmul nan0 u.atk dt)
    if fge y one then (if u.mode = .ar then .release else .decay, one) else (.attack, y)
  | .decay =>
    let y := fsub nan1 x (fmul nan0 u.dec dt)
    if fle y u.sus then (.sustain, u.sus) else (.decay, y)
  | .sustain => (.sustain, x)
  | .release =>
    let y := fsub nan1 x (fmul nan0 u.rel dt)
    if fle y posZero then (.silence, posZero) else (.release, y)

/-- The envelope unit after one ENV.STEP with Gate input `a` (R136). -/
def envNext (nan0 nan1 : Word) (p : Params) (dt : Word) (u : EnvUnit) (a : Word) : EnvUnit :=
  let g := gateNext u.gate a u.thr
  let x := envTransition p u g
  let y := envAdvance nan0 nan1 u dt x.1 x.2
  { u with gate := g, stage := y.1, pos := y.2 }

/-- ENV.STEP (R136): advances envelope `e` by one sample. Two operations. -/
def execEnvStep (e : UnitIx) (a : Word) (s : State) : Result :=
  gated (commandWord (.envStep e a)) s <| withUnit s .env e <|
    let u := envNext (s.nan 0) (s.nan 1) s.params s.speriod (s.env e) a
    .done ((s.setEnv e u).drew 2) u.pos

/-- ENV.INIT (R138): constructs envelope `e` afresh; its times, level and threshold stay. -/
def execEnvInit (e : UnitIx) (mode : EnvMode) (s : State) : Result :=
  gated (commandWord (.envInit e mode)) s <| withUnit s .env e <|
    .done
      (s.setEnv e { s.env e with mode := mode, stage := .silence, pos := posZero, gate := .low })
      0x00000000

/-- ENV.ATK (R139): sets the attack increment. One operation. -/
def execEnvAtk (e : UnitIx) (a : Word) (s : State) : Result :=
  gated (commandWord (.envAtk e a)) s <| withUnit s .env e <|
    .done ((s.setEnv e { s.env e with atk := s.increment a }).drew 1) 0x00000000

/-- ENV.DEC (R140): sets the decay increment. One operation. -/
def execEnvDec (e : UnitIx) (a : Word) (s : State) : Result :=
  gated (commandWord (.envDec e a)) s <| withUnit s .env e <|
    .done ((s.setEnv e { s.env e with dec := s.increment a }).drew 1) 0x00000000

/-- ENV.SUS (R141): sets the sustain level as given. -/
def execEnvSus (e : UnitIx) (a : Word) (s : State) : Result :=
  gated (commandWord (.envSus e a)) s <| withUnit s .env e <|
    .done (s.setEnv e { s.env e with sus := a }) 0x00000000

/-- ENV.REL (R142): sets the release increment. One operation. -/
def execEnvRel (e : UnitIx) (a : Word) (s : State) : Result :=
  gated (commandWord (.envRel e a)) s <| withUnit s .env e <|
    .done ((s.setEnv e { s.env e with rel := s.increment a }).drew 1) 0x00000000

/-- ENV.THR (R143): sets the threshold of the envelope's own Gate. -/
def execEnvThr (e : UnitIx) (a : Word) (s : State) : Result :=
  gated (commandWord (.envThr e a)) s <| withUnit s .env e <|
    .done (s.setEnv e { s.env e with thr := a }) 0x00000000

/-- ENV.RDPOS (R144): reads the position. -/
def execEnvRdPos (e : UnitIx) (s : State) : Result :=
  gated (commandWord (.envRdPos e)) s <| withUnit s .env e <|
    .done s (s.env e).pos

/-- ENV.RDSTG (R145): reads the stage code. -/
def execEnvRdStg (e : UnitIx) (s : State) : Result :=
  gated (commandWord (.envRdStg e)) s <| withUnit s .env e <|
    .done s (zext32 (s.env e).stage.code)

/-- ENV.RDGATE (R146): reads the state of the envelope's own Gate. -/
def execEnvRdGate (e : UnitIx) (s : State) : Result :=
  gated (commandWord (.envRdGate e)) s <| withUnit s .env e <|
    .done s (zext32 (s.env e).gate.code)

end Sys2Proof.Machine
end

