-- ==== Sys2Proof/Machine/Gate.lean ====
section
/-! DEFINITION. The standalone Gate commands (R115 to R118). -/

namespace Sys2Proof.Machine

/-- GATE.STEP (R115): advances Gate `g` by one sample. -/
def execGateStep (g : UnitIx) (a : Word) (s : State) : Result :=
  gated (commandWord (.gateStep g a)) s <| withUnit s .gate g <|
    let st := gateNext (s.gate g).state a (s.gate g).thr
    .done (s.setGate g { s.gate g with state := st }) (zext32 st.code)

/-- GATE.CFG (R116): sets the threshold of Gate `g`. -/
def execGateCfg (g : UnitIx) (a : Word) (s : State) : Result :=
  gated (commandWord (.gateCfg g a)) s <| withUnit s .gate g <|
    .done (s.setGate g { s.gate g with thr := a }) 0x00000000

/-- GATE.RD (R117): reads the state of Gate `g`. -/
def execGateRd (g : UnitIx) (s : State) : Result :=
  gated (commandWord (.gateRd g)) s <| withUnit s .gate g <|
    .done s (zext32 (s.gate g).state.code)

/-- GATE.INIT (R118): returns Gate `g` to Low and keeps its threshold. -/
def execGateInit (g : UnitIx) (s : State) : Result :=
  gated (commandWord (.gateInit g)) s <| withUnit s .gate g <|
    .done (s.setGate g { s.gate g with state := .low }) 0x00000000

end Sys2Proof.Machine
end

