-- ==== Sys2Proof/Machine/MasterBus.lean ====
section
/-! DEFINITION. The master-bus commands (R181, R184, R185) and the voice-sum commands (R230,
R231). -/

namespace Sys2Proof.Machine

/-- DCB.STEP (R181): one sample through the DC blocker alone. -/
def execDcbStep (a : Word) (s : State) : Result :=
  gated (commandWord (.dcbStep a)) s <|
    .done (s.dcStep a).1 (s.dcStep a).2

/-- LIM.STEP (R184): one sample through the limiter alone. -/
def execLimStep (a : Word) (s : State) : Result :=
  gated (commandWord (.limStep a)) s <|
    .done (s.limStep a).1 (s.limStep a).2

/-- BUS.MASTER (R185): the accumulated sample through DC removal and then the limiter; `ACC` is not
changed. -/
def execBusMaster (s : State) : Result :=
  gated (commandWord .busMaster) s <|
    let x := s.dcStep s.acc
    let y := x.1.limStep x.2
    .done y.1 y.2

/-- BUS.CLR (R230): starts a new sample sum. -/
def execBusClr (s : State) : Result :=
  gated (commandWord .busClr) s <|
    .done { s with acc := posZero } 0x00000000

/-- BUS.ACC (R231): adds a voice's sample, scaled by its gain, into the sum. Two operations. -/
def execBusAcc (v : UnitIx) (a : Word) (s : State) : Result :=
  gated (commandWord (.busAcc v a)) s <| withUnit s .voice v <|
    if (s.voice v).active then
      .done
        (State.drew { s with acc := fadd (s.nan 1) s.acc (fmul (s.nan 0) a (s.voice v).gain) } 2)
        0x00000000
    else .raise .voiceInactive (zext32 v)

end Sys2Proof.Machine
end

