-- ==== Sys2Proof/Machine/OnePole.lean ====
section
/-! DEFINITION. The one-pole filter commands (R161 to R163, R165 to R167). -/

namespace Sys2Proof.Machine

/-- `rc = fdiv(1.0, fmul(TWO_PI, cutoff))` (R160, R164). -/
def filterRc (nan0 nan1 cutoff : Word) : Word := fdiv nan1 one (fmul nan0 twoPi cutoff)

/-- The new lowpass state from state `x0`, input `x` and `cutoff` (R160, R161); `nan` numbers its
seven operations. -/
def lpfNext (nan : Nat → Word) (dt x0 x cutoff : Word) : Word :=
  if fle cutoff posZero then posZero
  else
    let rc := filterRc (nan 0) (nan 1) cutoff
    let k := fdiv (nan 3) dt (fadd (nan 2) dt rc)
    fadd (nan 6) x0 (fmul (nan 5) (fsub (nan 4) x x0) k)

/-- The highpass output from `prevDiff` `d`, input `x` and `cutoff` (R164, R165); `nan` numbers
its first six operations. -/
def hpfOut (nan : Nat → Word) (dt d x cutoff : Word) : Word :=
  let rc := filterRc (nan 0) (nan 1) cutoff
  let k := fdiv (nan 3) rc (fadd (nan 2) rc dt)
  fmul (nan 5) k (fadd (nan 4) d x)

/-- LPF.STEP (R161): advances lowpass `f` by one sample. Seven operations. -/
def execLpfStep (f : UnitIx) (a b : Word) (s : State) : Result :=
  gated (commandWord (.lpfStep f a b)) s <| withUnit s .lpf f <|
    let x := lpfNext s.nan s.speriod (s.lpf f) a b
    .done ((s.setLpf f x).drew 7) x

/-- LPF.INIT (R162): clears lowpass `f`. -/
def execLpfInit (f : UnitIx) (s : State) : Result :=
  gated (commandWord (.lpfInit f)) s <| withUnit s .lpf f <|
    .done (s.setLpf f posZero) 0x00000000

/-- LPF.RD (R163): reads the lowpass state. -/
def execLpfRd (f : UnitIx) (s : State) : Result :=
  gated (commandWord (.lpfRd f)) s <| withUnit s .lpf f <|
    .done s (s.lpf f)

/-- HPF.STEP (R165): advances highpass `h` by one sample; `prevDiff` becomes `fsub(y, x)`. Seven
operations. -/
def execHpfStep (h : UnitIx) (a b : Word) (s : State) : Result :=
  gated (commandWord (.hpfStep h a b)) s <| withUnit s .hpf h <|
    let y := hpfOut s.nan s.speriod (s.hpf h) a b
    .done ((s.setHpf h (fsub (s.nan 6) y a)).drew 7) y

/-- HPF.INIT (R166): clears highpass `h`. -/
def execHpfInit (h : UnitIx) (s : State) : Result :=
  gated (commandWord (.hpfInit h)) s <| withUnit s .hpf h <|
    .done (s.setHpf h posZero) 0x00000000

/-- HPF.RD (R167): reads the highpass difference memory. -/
def execHpfRd (h : UnitIx) (s : State) : Result :=
  gated (commandWord (.hpfRd h)) s <| withUnit s .hpf h <|
    .done s (s.hpf h)

end Sys2Proof.Machine
end

