-- ==== Sys2Proof/Machine/Param.lean ====
section
/-! DEFINITION. The voice-slot and parameter commands (R203, R205, R208 to R211) and the
parameter-write port transaction (R202). -/

namespace Sys2Proof.Machine

/-- VOICE.SET (R208): installs a voice in slot `v` and clears the slot's parameters. -/
def execVoiceSet (v : UnitIx) (a b : Word) (s : State) : Result :=
  gated (commandWord (.voiceSet v a b)) s <| withUnit s .voice v <|
    if heldElsewhere s.voices v.toNat a then .raise .duplicateId a
    else .done (s.setVoice v ⟨true, a, b, List.replicate s.params.nParam posZero⟩) 0x00000000

/-- VOICE.DEL (R209): removes the voice with a SynthID; an id in no active slot changes nothing. -/
def execVoiceDel (a : Word) (s : State) : Result :=
  gated (commandWord (.voiceDel a)) s <|
    match findSlot s.voices a with
    | some v =>
      .done { s with voices := s.voices.modify v ({ · with active := false }) } 0x00000000
    | none => .done s 0x00000000

/-- PARAM.INIT (R210): writes an active parameter value directly. -/
def execParamInit (v : UnitIx) (index : Imm) (a : Word) (s : State) : Result :=
  gated (commandWord (.paramInit v index a)) s <| withUnit s .voice v <| withIndex s index <|
    if (s.voice v).active then .done (s.setVoice v ((s.voice v).setParam index a)) 0x00000000
    else .raise .voiceInactive (zext32 v)

/-- PARAM.RD (R211): reads an active parameter value and asserts its owner. -/
def execParamRd (v : UnitIx) (index : Imm) (a : Word) (s : State) : Result :=
  gated (commandWord (.paramRd v index a)) s <| withUnit s .voice v <| withIndex s index <|
    if (s.voice v).holds a then .done s ((s.voice v).param index)
    else .raise .paramOwner a

/-- PARAM.POST (R203): posts an event from the command port; a full `PWQ` faults. -/
def execParamPost (index : Imm) (a b : Word) (s : State) : Result :=
  gated (commandWord (.paramPost index a b)) s <|
    if s.pwqHasRoom then .done (s.append ⟨a, index, b⟩) 0x00000000
    else .raise .pwqFull a

/-- PARAM.COMMIT (R205, R206): applies every pending event in one step, or, if one of them names an
active owner with an index that does not exist, faults with the oldest such index and writes
nothing. -/
def execParamCommit (s : State) : Result :=
  gated (commandWord .paramCommit) s <|
    match firstOffender s.params s.voices s.pwq with
    | some e => .raise .paramIndex (zext32 e.index)
    | none => .done { s with voices := applyBatch s.voices s.pwq, pwq := [] } 0x00000000

/-- PW.WRITE (R202): a parameter-write port transaction. It never faults, it runs while the block
is halted (R265), it gives no response, and while `PWQ` is full it is not accepted: the writer
waits and no state changes. -/
def execPwWrite (owner : Word) (index : Imm) (value : Word) (s : State) : Result :=
  if s.pwqHasRoom then .next (s.append ⟨owner, index, value⟩) else .next s

end Sys2Proof.Machine
end

