-- ==== Sys2Proof/Machine/Dispatch.lean ====
section
/-! DEFINITION. The dispatch: one arm per constructor of Instr, each one call of its meaning. -/

namespace Sys2Proof.Machine

def exec (i : Instr) (s : State) : Host.Outcome State Fault Refusal :=
  match i with
  | .nop => Sys2Proof.Machine.execNop s
  | .csrRd csr => Sys2Proof.Machine.execCsrRd csr s
  | .csrWr csr a => Sys2Proof.Machine.execCsrWr csr a s
  | .gateStep g a => Sys2Proof.Machine.execGateStep g a s
  | .gateCfg g a => Sys2Proof.Machine.execGateCfg g a s
  | .gateRd g => Sys2Proof.Machine.execGateRd g s
  | .gateInit g => Sys2Proof.Machine.execGateInit g s
  | .envInit e mode => Sys2Proof.Machine.execEnvInit e mode s
  | .envAtk e a => Sys2Proof.Machine.execEnvAtk e a s
  | .envDec e a => Sys2Proof.Machine.execEnvDec e a s
  | .envSus e a => Sys2Proof.Machine.execEnvSus e a s
  | .envRel e a => Sys2Proof.Machine.execEnvRel e a s
  | .envThr e a => Sys2Proof.Machine.execEnvThr e a s
  | .envStep e a => Sys2Proof.Machine.execEnvStep e a s
  | .envRdPos e => Sys2Proof.Machine.execEnvRdPos e s
  | .envRdStg e => Sys2Proof.Machine.execEnvRdStg e s
  | .envRdGate e => Sys2Proof.Machine.execEnvRdGate e s
  | .lpfStep f a b => Sys2Proof.Machine.execLpfStep f a b s
  | .lpfInit f => Sys2Proof.Machine.execLpfInit f s
  | .lpfRd f => Sys2Proof.Machine.execLpfRd f s
  | .hpfStep h a b => Sys2Proof.Machine.execHpfStep h a b s
  | .hpfInit h => Sys2Proof.Machine.execHpfInit h s
  | .hpfRd h => Sys2Proof.Machine.execHpfRd h s
  | .dcbStep a => Sys2Proof.Machine.execDcbStep a s
  | .limStep a => Sys2Proof.Machine.execLimStep a s
  | .busMaster => Sys2Proof.Machine.execBusMaster s
  | .busClr => Sys2Proof.Machine.execBusClr s
  | .busAcc v a => Sys2Proof.Machine.execBusAcc v a s
  | .voiceSet v a b => Sys2Proof.Machine.execVoiceSet v a b s
  | .voiceDel a => Sys2Proof.Machine.execVoiceDel a s
  | .paramInit v index a => Sys2Proof.Machine.execParamInit v index a s
  | .paramRd v index a => Sys2Proof.Machine.execParamRd v index a s
  | .paramPost index a b => Sys2Proof.Machine.execParamPost index a b s
  | .paramCommit => Sys2Proof.Machine.execParamCommit s
  | .pwWrite owner index value => Sys2Proof.Machine.execPwWrite owner index value s

end Sys2Proof.Machine
end

