-- ==== Sys2Proof/Machine/Step.lean ====
section
/-! DEFINITION. One step of the machine: the next turn in `sched` is taken (R61 to R63). The host's
turn hands over the waiting response or accepts, decodes and executes one command; the writer's
turn accepts one event if `PWQ` has room; a reset turn is the reset event. With no turn to come no
state changes (R276). -/

namespace Sys2Proof.Machine

/-- The command `c`, accepted in state `s`: decoded (R85) and executed, or its decode fault. -/
def runCommand (c : Command) (s : State) : Host.Outcome State Fault Refusal :=
  match decode c with
  | .instr i => exec i s
  | .illegalOpcode op => rejectOpcode c op s
  | .illegalField _ => rejectField c s

/-- The host's turn. -/
def hostTurn (s : State) : Host.Outcome State Fault Refusal :=
  match s.hostMove with
  | .takeResponse t => .next t
  | .accept c t => runCommand c t
  | .idle => .next s

/-- The writer's turn. -/
def writerTurn (s : State) : Host.Outcome State Fault Refusal :=
  match s.writerMove with
  | some (e, t) => exec (.pwWrite e.owner e.index e.value) t
  | none => .next s

/-- One step: the next turn is taken off `sched` and happens. -/
def step (s : State) : Host.Outcome State Fault Refusal :=
  match s.sched with
  | [] => .next s
  | .agent .host :: rest => hostTurn { s with sched := rest }
  | .agent .writer :: rest => writerTurn { s with sched := rest }
  | .reset :: rest => .next (State.resetEvent { s with sched := rest })

/-- `s` with the command whose bits are `w` as the host's next command, no response in its way, and
the host's turn next: the very next step accepts and runs it. It stands for the host, which holds
the program and sends it from outside (R21; log entry 5). -/
def State.withFetchWord (s : State) (nbits w : Nat) : State :=
  { s with
    cmdPort := commandOfBits nbits w :: s.cmdPort
    rsp := none
    sched := .agent .host :: s.sched }

end Sys2Proof.Machine
end

