-- ==== Sys2Proof/Machine/Assembly.lean ====
section
/-! DEFINITION. The assembler's lines (R90) and the pseudo-instructions with their expansions
(R91). -/

namespace Sys2Proof.Machine

/-- One operand of an assembler line (R90). -/
inductive AsmOperand where
  | unit (u : UnitIx)
  | index (n : Imm)
  | csr (r : Csr)
  | mode (m : EnvMode)
  | word (w : Word)
  deriving DecidableEq, Repr

/-- One line of assembly: `MNEMONIC [unit][, imm][, A][, B]` (R90). -/
structure AsmLine where
  mnemonic : String
  operands : List AsmOperand
  deriving DecidableEq, Repr

/-- A CSR number as an operand: the CSR's name where it has one. -/
def asmCsr (n : Imm) : AsmOperand :=
  match csrOfNumber n with
  | some r => .csr r
  | none => .index n

/-- The operands of a command, in the order of R87's columns, absent fields omitted (R90). -/
def asmOperands : Instr → List AsmOperand
  | .nop => []
  | .csrRd csr => [asmCsr csr]
  | .csrWr csr a => [asmCsr csr, .word a]
  | .gateStep g a => [.unit g, .word a]
  | .gateCfg g a => [.unit g, .word a]
  | .gateRd g => [.unit g]
  | .gateInit g => [.unit g]
  | .envInit e mode => [.unit e, .mode mode]
  | .envAtk e a => [.unit e, .word a]
  | .envDec e a => [.unit e, .word a]
  | .envSus e a => [.unit e, .word a]
  | .envRel e a => [.unit e, .word a]
  | .envThr e a => [.unit e, .word a]
  | .envStep e a => [.unit e, .word a]
  | .envRdPos e => [.unit e]
  | .envRdStg e => [.unit e]
  | .envRdGate e => [.unit e]
  | .lpfStep f a b => [.unit f, .word a, .word b]
  | .lpfInit f => [.unit f]
  | .lpfRd f => [.unit f]
  | .hpfStep h a b => [.unit h, .word a, .word b]
  | .hpfInit h => [.unit h]
  | .hpfRd h => [.unit h]
  | .dcbStep a => [.word a]
  | .limStep a => [.word a]
  | .busMaster => []
  | .busClr => []
  | .busAcc v a => [.unit v, .word a]
  | .voiceSet v a b => [.unit v, .word a, .word b]
  | .voiceDel a => [.word a]
  | .paramInit v index a => [.unit v, .index index, .word a]
  | .paramRd v index a => [.unit v, .index index, .word a]
  | .paramPost index a b => [.index index, .word a, .word b]
  | .paramCommit => []
  | .pwWrite _ _ _ => []

/-- The line of a command; none for PW.WRITE, which is no command (R90, R202). -/
def asmLine (i : Instr) : Option AsmLine :=
  i.row?.map fun r => ⟨r.mnemonic, asmOperands i⟩

/-- The name of a CSR (R33). -/
def Csr.name : Csr → String
  | .id => "ID"
  | .caps0 => "CAPS0"
  | .caps1 => "CAPS1"
  | .caps2 => "CAPS2"
  | .caps3 => "CAPS3"
  | .status => "STATUS"
  | .finfo => "FINFO"
  | .faux => "FAUX"
  | .ctrl => "CTRL"
  | .pwqlvl => "PWQLVL"
  | .srate => "SRATE"
  | .speriod => "SPERIOD"
  | .dcK => "DC_K"
  | .limCA => "LIM_CA"
  | .limCR => "LIM_CR"
  | .headroom => "HEADROOM"
  | .envEps => "ENV_EPS"
  | .dcAvg => "DC_AVG"
  | .limEnv => "LIM_ENV"
  | .acc => "ACC"

/-- The text of an operand: indices in decimal, names for CSRs and modes, operand words as 32-bit
hex words (R90). -/
def AsmOperand.text : AsmOperand → String
  | .unit u => toString u.toNat
  | .index n => toString n.toNat
  | .csr r => r.name
  | .mode .ar => "AR"
  | .mode .adsr => "ADSR"
  | .word w => "0x" ++ w.toHex

/-- The text of a line (R90). -/
def AsmLine.text (l : AsmLine) : String :=
  match l.operands with
  | [] => l.mnemonic
  | ops => l.mnemonic ++ " " ++ String.intercalate ", " (ops.map AsmOperand.text)

/-- The pseudo-instructions of R91. -/
inductive Pseudo where
  | srateSet (r : Word)
  | limSet (ca cr : Word)
  | statusRd
  | envCfgAr (e : UnitIx) (atk rel : Word)
  | envCfgAdsr (e : UnitIx) (atk dec sus rel : Word)
  | busMix (xs : List (UnitIx × Word))
  | busSample (xs : List (UnitIx × Word))
  deriving DecidableEq, Repr

/-- The expansion of `BUS.MIX` (R91). -/
def mixCommands (xs : List (UnitIx × Word)) : List Instr :=
  .busClr :: xs.map fun x => .busAcc x.1 x.2

/-- The expansion of a pseudo-instruction, in order (R91). -/
def expand : Pseudo → List Instr
  | .srateSet r => [.csrWr Csr.srate.number r]
  | .limSet ca cr => [.csrWr Csr.limCA.number ca, .csrWr Csr.limCR.number cr]
  | .statusRd => [.csrRd Csr.status.number]
  | .envCfgAr e atk rel => [.envInit e .ar, .envAtk e atk, .envRel e rel]
  | .envCfgAdsr e atk dec sus rel =>
    [.envInit e .adsr, .envAtk e atk, .envDec e dec, .envSus e sus, .envRel e rel]
  | .busMix xs => mixCommands xs
  | .busSample xs => mixCommands xs ++ [.busMaster]

end Sys2Proof.Machine
end

