-- ==== Sys2Proof/Safety.lean ====
section
/-! DEFINITION. What counts as a safe state and a safe run, in the terms the statements use: the
invariant every step keeps, binary32 values alike up to their NaN encoding (R16), value ranges, the
write sets of R87, and sequences of commands. -/

namespace Sys2Proof.Machine

/-! ## Values -/

/-- Equal, or both NaNs: no rule tells two NaN encodings apart (R16). -/
def sameFloat (a b : Word) : Bool := a == b || (isNaN a && isNaN b)

/-- A value in [0, 1]. -/
def inUnit (x : Word) : Bool := fle posZero x && fle x one

/-- A finite value that is not below 0. -/
def finiteNonneg (x : Word) : Bool := isFinite x && fle posZero x

/-- A value in [-1, 1]. -/
def inClamp (x : Word) : Bool := fle minusOne x && fle x one

/-- A NaN used only to name the quotients of `State.Wf`; `sameFloat` forgets which NaN it is. -/
def someNaN : Word := 0x7FC00000

/-! ## The invariant -/

/-- What holds of every state a run can reach. -/
structure State.Wf (s : State) : Prop where
  /-- the implementation parameters are legal (R7) -/
  paramsLegal : s.params.legal = true
  /-- each unit array has its count of units (R23 to R26, R30) -/
  gatesLength : s.gates.length = s.params.nGate
  envsLength : s.envs.length = s.params.nEnv
  lpfsLength : s.lpfs.length = s.params.nLpf
  hpfsLength : s.hpfs.length = s.params.nHpf
  voicesLength : s.voices.length = s.params.nVoice
  /-- each slot has `N_PARAM` parameters (R31) -/
  rowsLength : ∀ x ∈ s.voices, x.params.length = s.params.nParam
  /-- no event is ever lost by overflow (R204) -/
  pwqBound : s.pwq.length ≤ s.params.pwqDepth
  /-- at most one active slot holds a SynthID (R200) -/
  idsUnique : ((s.voices.filter (·.active)).map (·.id)).Nodup
  /-- an AR unit never holds Decay or Sustain (R131) -/
  arStages : ∀ u ∈ s.envs, u.mode = .ar → u.stage ≠ .decay ∧ u.stage ≠ .sustain
  /-- CAUSE, FINFO and FAUX are 0 while FAULT is 0 (R39, R40) -/
  noFault : s.fault = false → s.cause = 0 ∧ s.finfo = 0 ∧ s.faux = 0
  /-- CAUSE is a code of R260 while FAULT is 1 -/
  faultCause : s.fault = true → 0x01 ≤ s.cause.toNat ∧ s.cause.toNat ≤ 0x0A
  /-- `ACC` is never `-0.0` (R231) -/
  accSign : s.acc ≠ negZero
  /-- `LIM_ENV` is never below 1.0 (R29, R182) -/
  limFloor : flt s.limEnv one = false
  /-- `SPERIOD` and `DC_K` are derived from `SRATE` (R43) -/
  speriodDerived : sameFloat s.speriod (fdiv someNaN one s.srate) = true
  dcKDerived : sameFloat s.dcK (fdiv someNaN half s.srate) = true

/-! ## Write sets (R87): everything else is as before

A command that completes writes its own column of R87 and the response; the model's count of NaN
draws may advance. -/

/-- Nothing but the response changes. -/
def onlyRsp (s t : State) : Prop := t = { s with rsp := t.rsp }

/-- Nothing but Gate unit `g` and the response changes. -/
def onlyGate (s t : State) (g : UnitIx) : Prop :=
  t = { s with gates := t.gates, rsp := t.rsp } ∧ ∀ x, x ≠ g → t.gate x = s.gate x

/-- Nothing but envelope unit `e`, the response and the count of draws changes. -/
def onlyEnv (s t : State) (e : UnitIx) : Prop :=
  t = { s with envs := t.envs, rsp := t.rsp, nanDraws := t.nanDraws } ∧
    ∀ x, x ≠ e → t.env x = s.env x

/-- Nothing but `LSTATE[f]`, the response and the count of draws changes. -/
def onlyLpf (s t : State) (f : UnitIx) : Prop :=
  t = { s with lpfs := t.lpfs, rsp := t.rsp, nanDraws := t.nanDraws } ∧
    ∀ x, x ≠ f → t.lpf x = s.lpf x

/-- Nothing but `HPREV[h]`, the response and the count of draws changes. -/
def onlyHpf (s t : State) (h : UnitIx) : Prop :=
  t = { s with hpfs := t.hpfs, rsp := t.rsp, nanDraws := t.nanDraws } ∧
    ∀ x, x ≠ h → t.hpf x = s.hpf x

/-- Nothing but `ACC`, the response and the count of draws changes. -/
def onlyAcc (s t : State) : Prop :=
  t = { s with acc := t.acc, rsp := t.rsp, nanDraws := t.nanDraws }

/-- Nothing but `DC_AVG`, `LIM_ENV`, the response and the count of draws changes. -/
def onlyMaster (s t : State) : Prop :=
  t = { s with dcAvg := t.dcAvg, limEnv := t.limEnv, rsp := t.rsp, nanDraws := t.nanDraws }

/-- Nothing but voice slot `v` and the response changes. -/
def onlyVoice (s t : State) (v : UnitIx) : Prop :=
  t = { s with voices := t.voices, rsp := t.rsp } ∧ ∀ x, x ≠ v → t.voice x = s.voice x

/-- Nothing but `SRATE`, `SPERIOD`, `DC_K`, the response and the count of draws changes. -/
def onlySrate (s t : State) : Prop :=
  t = { s with srate := t.srate, speriod := t.speriod, dcK := t.dcK, rsp := t.rsp,
               nanDraws := t.nanDraws }

/-- Nothing but the voice slots, `PWQ` and the response changes. -/
def onlySlotsAndPwq (s t : State) : Prop :=
  t = { s with voices := t.voices, pwq := t.pwq, rsp := t.rsp }

/-- What a fault of the command with word `w` leaves (R262): FAULT, CAUSE, FINFO, FAUX and the error
response, and nothing else. `code` is the number of R260 that CAUSE takes. -/
def State.faulted (s : State) (w : Word) (code : BitVec 8) (aux : Word) : State :=
  { s with
    fault := true
    cause := code
    finfo := w
    faux := aux
    rsp := some ⟨0x00000000, true⟩ }

/-- `s` without `PWQ`, the waiting response, what the agents offer and the turns to come: the
registers that a halted block keeps (R264, R265, R268). -/
def State.registers (s : State) : State :=
  { s with pwq := [], rsp := none, cmdPort := [], pwPort := [], sched := [] }

/-! ## Sequences -/

/-- The commands in order, each executed in the state the one before left; none if one does not
answer a next state. -/
def execAll : List Instr → State → Option State
  | [], s => some s
  | i :: is, s =>
    match exec i s with
    | .next t => execAll is t
    | .fault _ => none
    | .refused _ => none

/-- One BUS.MASTER per sample of `xs`, in order, each with the sample in `ACC`: the state after and
the outputs (R186). -/
def masterPass : State → List Word → State × List Word
  | s, [] => (s, [])
  | s, x :: xs =>
    let d := s.dcStep x
    let l := d.1.limStep d.2
    let r := masterPass l.1 xs
    (r.1, l.2 :: r.2)

/-- DC removal over a whole buffer (R186). -/
def dcPass : State → List Word → State × List Word
  | s, [] => (s, [])
  | s, x :: xs =>
    let d := s.dcStep x
    let r := dcPass d.1 xs
    (r.1, d.2 :: r.2)

/-- The limiter over a whole buffer (R186). -/
def limPass : State → List Word → State × List Word
  | s, [] => (s, [])
  | s, x :: xs =>
    let l := s.limStep x
    let r := limPass l.1 xs
    (r.1, l.2 :: r.2)

/-- The sum of R235 from `acc` on: each sample times its slot's gain, each product and each sum
rounded, in order. `nan` numbers the operations. -/
def voiceSum (nan : Nat → Word) (gain : UnitIx → Word) : Word → Nat → List (UnitIx × Word) → Word
  | acc, _, [] => acc
  | acc, k, x :: xs =>
    voiceSum nan gain (fadd (nan (2 * k + 1)) acc (fmul (nan (2 * k)) x.2 (gain x.1))) (k + 1) xs

/-- The value that a batch leaves in parameter `index` of the voice with SynthID `o`, from value
`x`: the latest matching entry's, or `x` (R205). -/
def latest (o : Word) (index : Imm) (x : Word) : List Event → Word
  | [] => x
  | e :: es => latest o index (if e.owner = o ∧ e.index = index then e.value else x) es

end Sys2Proof.Machine
end

