-- ==== Sys2Proof/Certificates/Slice0/Obligations.lean ====
section
/-! DEFINITION. The statements for the provers. Each says what the machine does by a rule of spec/;
OBLIGATIONS.json gives each one's rules. -/

open Sys2Proof Sys2Proof.Machine

/-- For every instruction i: if encode i gives the three words c, then decode c is i, with every
field and operand at every value; every instruction but PW.WRITE, which has no command word, is
encoded; and for every command c that decodes to an instruction i, i is a command, c's W is the
command word of i, and decoding c with i's own operand words in place of c's gives i again, so
that an operand word encode drops is one the command does not use. (R81, R82, R83, R86, R87) -/
def Obligations.DecodeAndEncodeAgree : Prop :=
  (∀ i : Instr,
    (∀ c, encode i = some c → decode c = .instr i) ∧
      (encode i = none → ∃ owner index value, i = .pwWrite owner index value)) ∧
    ∀ (c : Command) (i : Instr), decode c = .instr i →
      i.isCommand = true ∧ commandWord i = c.w ∧
        decode ⟨c.w, (operandWords i).1, (operandWords i).2⟩ = .instr i

/-- For every row of the opcode map, every command c and every choice of implementation
parameters: c's word ANDed with the row's mask is the row's match word and the instruction it
stands for passes the range checks, exactly when c decodes to an instruction of that row that
passes the range checks. (R86) -/
def Obligations.DecodeIsMatchAndMask : Prop :=
  ∀ (j : Instr) (row : OpRow) (c : Command) (p : Params), j.row? = some row →
    ((c.w &&& row.mask = row.pattern ∧ ∀ i, decode c = .instr i → i.wellFormed p = true) ↔
      ∃ i, decode c = .instr i ∧ i.row? = some row ∧ i.wellFormed p = true)

/-- While the block runs: a word whose opcode is reserved takes the fault ILLEGAL_OPCODE (code
0x01) with aux the opcode; a word whose opcode is assigned but which matches no row takes
ILLEGAL_FIELD (code 0x02) with aux the word; and a word decodes to NOP exactly when it is 0. (R88)
-/
def Obligations.ReservedAndMalformedWordsFault : Prop :=
  ∀ (c : Command) (s : State), s.fault = false →
    let op := (opField c.w).toNat
    let reserved := op ∈ [0x03, 0x13, 0x17, 0x1B, 0x1E, 0x1F, 0x22, 0x23] ∨ 0x28 ≤ op
    (reserved →
        runCommand c s = .next (s.faulted c.w 0x01 (BitVec.ofNat 32 op))) ∧
      (¬ reserved → (∀ (j : Instr) (row : OpRow), j.row? = some row → c.w &&& row.mask ≠ row.pattern) →
        runCommand c s = .next (s.faulted c.w 0x02 c.w)) ∧
      (decode c = .instr .nop ↔ c.w = 0)

/-- The four worked commands of the spec encode to the words given and decode back, and the two
illegal words raise ILLEGAL_OPCODE and ILLEGAL_FIELD. (R92) -/
def Obligations.WorkedEncodingsDecode : Prop :=
  encode (.gateStep 3 0x3F800000) = some ⟨0x10030000, 0x3F800000, 0⟩ ∧
    decode ⟨0x10030000, 0x3F800000, 0⟩ = .instr (.gateStep 3 0x3F800000) ∧
    encode (.envInit 2 .adsr) = some ⟨0x20020001, 0, 0⟩ ∧
    decode ⟨0x20020001, 0, 0⟩ = .instr (.envInit 2 .adsr) ∧
    encode (.csrWr 0x010 0x42C80000) = some ⟨0x08000010, 0x42C80000, 0⟩ ∧
    decode ⟨0x08000010, 0x42C80000, 0⟩ = .instr (.csrWr 0x010 0x42C80000) ∧
    encode (.paramRd 1 5 7) = some ⟨0x94010005, 7, 0⟩ ∧
    decode ⟨0x94010005, 7, 0⟩ = .instr (.paramRd 1 5 7) ∧
    decode ⟨0xFC000000, 0, 0⟩ = .illegalOpcode 0x3F ∧
    decode ⟨0x10031000, 0, 0⟩ = .illegalField 0x10031000

/-- When the host's turn is next, no response waits and a command c is on the port, the step runs
c at the state with that turn and that command taken off: it is exec of i there when c decodes to
an instruction i, and for a word that does not decode it leaves that state with the error response
alone, or, while the block runs, with the fault that the decoding names (ILLEGAL_OPCODE, code
0x01, with aux the opcode, or ILLEGAL_FIELD, code 0x02, with aux the word). (R62, R80, R85) -/
def Obligations.StepRunsTheDecodedCommand : Prop :=
  ∀ (s : State) (rest : List Turn) (c : Command) (cs : List Command),
    s.sched = .agent .host :: rest → s.rsp = none → s.cmdPort = c :: cs →
    let r := { s with sched := rest, cmdPort := cs }
    step s = runCommand c r ∧
      (∀ i, decode c = .instr i → step s = exec i r) ∧
      (∀ op, decode c = .illegalOpcode op → s.fault = false →
        step s = .next (r.faulted c.w 0x01 (BitVec.ofNat 32 op.toNat))) ∧
      (∀ w, decode c = .illegalField w → s.fault = false →
        step s = .next (r.faulted c.w 0x02 c.w)) ∧
      ((∀ i, decode c ≠ .instr i) → s.fault = true →
        step s = .next { r with rsp := some ⟨0, true⟩ })

/-- When the host's turn is next and a response waits, cmd_ready is 0 (R80), and the step takes
the response off the port and changes nothing else. That the turn takes it is the model's choice
(log entry 4, DESIGN CHOICE): the rules leave rsp_ready to the host. (R62, R80, R84) -/
def Obligations.NoCommandWhileAResponseWaits : Prop :=
  ∀ (s : State) (rest : List Turn) (r : Response),
    s.sched = .agent .host :: rest → s.rsp = some r →
    s.cmdReady = false ∧ s.rspValid = true ∧
      step s = .next { s with sched := rest, rsp := none }

/-- In every state, halted or not, every instruction answers a next state; a command (completed,
faulted or discarded) leaves a response on the port, and PW.WRITE leaves the response port as it
was. That PW.WRITE at a full PWQ is a step, one that changes nothing, is log entry 13 (DEDUCED).
(R62, R84, R264) -/
def Obligations.EveryCommandIsAnswered : Prop :=
  ∀ (i : Instr) (s : State), ∃ t, exec i s = .next t ∧
    (i.isCommand = true → ∃ r, t.rsp = some r) ∧ (i.isCommand = false → t.rsp = s.rsp)

/-- PW.WRITE answers a next state in every state: with room, the entry is at the tail of PWQ and
nothing else changes; with PWQ full, no state changes. On the writer's turn the offered event is
taken from the port as exactly that effect while PWQ has room; while PWQ is full pw_ready is 0,
the event stays offered and nothing but the turn passes. FAULT does not matter. R202 gives the
writer no step while PWQ is full; that the model shows the wait as a step that changes nothing is
log entry 13 (DEDUCED). (R202, R63, R265) -/
def Obligations.PortTransactionAppendsOrWaits : Prop :=
  (∀ (s : State) (owner : Word) (index : Imm) (value : Word),
    (s.pwq.length < s.params.pwqDepth →
        exec (.pwWrite owner index value) s =
          .next { s with pwq := s.pwq ++ [⟨owner, index, value⟩] }) ∧
      (s.params.pwqDepth ≤ s.pwq.length → exec (.pwWrite owner index value) s = .next s)) ∧
    ∀ (s : State) (rest : List Turn) (e : Event) (es : List Event),
      s.sched = .agent .writer :: rest → s.pwPort = e :: es →
      (s.pwq.length < s.params.pwqDepth →
          s.pwReady = true ∧
          step s = exec (.pwWrite e.owner e.index e.value)
            { s with sched := rest, pwPort := es }) ∧
        (s.params.pwqDepth ≤ s.pwq.length →
          s.pwReady = false ∧ step s = .next { s with sched := rest })

/-- NOP answers the state with the response 0 and rsp_err 0, in every state; and with no turn to
come a step changes no state. (R240, R264, R276) -/
def Obligations.NopAndIdleChangeNothing : Prop :=
  (∀ s : State, exec .nop s = .next { s with rsp := some ⟨0, false⟩ }) ∧
    (∀ s : State, s.sched = [] → step s = .next s)

/-- For ID, FINFO, FAUX, SRATE, SPERIOD, DC_K, LIM_CA, LIM_CR, HEADROOM, ENV_EPS, DC_AVG, LIM_ENV
and ACC, the CSRs that are one whole 32-bit value, CSR.RD responds that value, with rsp_err 0 and
nothing else changed. The other seven, which have fields, are CsrFieldsReadAsLaidOut's. (R34, R40,
R241, R264, R43, R44, R45) -/
def Obligations.CsrReadGivesTheRegister : Prop :=
  ∀ s : State,
    let reads := fun (n : Imm) (v : Word) =>
      exec (.csrRd n) s = .next { s with rsp := some ⟨v, false⟩ }
    reads 0x000 0x56534731 ∧ reads 0x009 s.finfo ∧ reads 0x00A s.faux ∧
      reads 0x010 s.srate ∧ reads 0x011 s.speriod ∧ reads 0x012 s.dcK ∧
      reads 0x013 s.limCA ∧ reads 0x014 s.limCR ∧
      reads 0x015 s.params.headroom ∧ reads 0x016 s.params.envEps ∧
      reads 0x018 s.dcAvg ∧ reads 0x019 s.limEnv ∧ reads 0x01A s.acc

/-- For every state with legal parameters and PWQ within its depth, CSR.RD of each packed CSR
responds a word whose 16-bit halves are the two counts (CAPS0 to CAPS2, CAPS3 and PWQLVL with
upper half 0), whose bit 0 is FAULT and bits 15 to 8 CAUSE with every other bit 0 (STATUS), or
whose bit 0 is FIE with every other bit 0 (CTRL). Nothing but the response changes. A halted block
reads them too. (R35, R36, R37, R38, R39, R41, R42, R241, R264) -/
def Obligations.CsrFieldsReadAsLaidOut : Prop :=
  ∀ s : State, s.params.legal = true → s.pwq.length ≤ s.params.pwqDepth →
    let reads := fun (n : Imm) (v : Nat) =>
      exec (.csrRd n) s = .next { s with rsp := some ⟨BitVec.ofNat 32 v, false⟩ } ∧ v < 2 ^ 32
    reads 0x001 (s.params.nGate + s.params.nEnv * 2 ^ 16) ∧
      reads 0x002 (s.params.nLpf + s.params.nHpf * 2 ^ 16) ∧
      reads 0x003 (s.params.nVoice + s.params.nParam * 2 ^ 16) ∧
      reads 0x004 s.params.pwqDepth ∧
      reads 0x008 (s.fault.toNat + s.cause.toNat * 2 ^ 8) ∧
      reads 0x00B s.fie.toNat ∧
      reads 0x00C s.pwq.length

/-- While the block runs: CTRL takes bit 0 of A as FIE; SRATE takes A while SPERIOD and DC_K take
1.0/A and 0.5/A in the same command, a NaN quotient being any NaN; LIM_CA and LIM_CR take A. Each
responds 0 and changes nothing else. (R41, R43, R45, R242, R303) -/
def Obligations.CsrWriteOfEachWritableRegister : Prop :=
  ∀ (s : State) (a : Word), s.fault = false →
    exec (.csrWr 0x00B a) s = .next { s with fie := a.getLsbD 0, rsp := some ⟨0, false⟩ } ∧
      exec (.csrWr 0x013 a) s = .next { s with limCA := a, rsp := some ⟨0, false⟩ } ∧
      exec (.csrWr 0x014 a) s = .next { s with limCR := a, rsp := some ⟨0, false⟩ } ∧
      ∃ n m t, isNaN n = true ∧ isNaN m = true ∧ exec (.csrWr 0x010 a) s = .next t ∧
        t.srate = a ∧ t.speriod = fdiv n one a ∧ t.dcK = fdiv m half a ∧
        t.rsp = some ⟨0, false⟩ ∧ onlySrate s t

/-- While the block runs: CSR.RD of a number that is not in the CSR map, and CSR.WR of any number
but CTRL, SRATE, LIM_CA and LIM_CR, take the fault CSR_ACCESS (code 0x05) with aux the
zero-extended number. (R33, R241, R242, R260, R267) -/
def Obligations.ReservedAndReadOnlyCsrsFault : Prop :=
  ∀ (s : State) (n : Imm) (a : Word), s.fault = false →
    (n.toNat ∉ [0x000, 0x001, 0x002, 0x003, 0x004, 0x008, 0x009, 0x00A, 0x00B, 0x00C, 0x010, 0x011,
        0x012, 0x013, 0x014, 0x015, 0x016, 0x018, 0x019, 0x01A] →
      exec (.csrRd n) s =
        .next (s.faulted (commandWord (.csrRd n)) 0x05 (BitVec.ofNat 32 n.toNat))) ∧
    (n.toNat ∉ [0x00B, 0x010, 0x013, 0x014] →
      exec (.csrWr n a) s =
        .next (s.faulted (commandWord (.csrWr n a)) 0x05 (BitVec.ofNat 32 n.toNat)))

/-- While the block runs and the unit exists, each unit read command responds the register it
names with rsp_err 0, and nothing else changes. A Gate state is responded as its code 0 for Low, 1
for RisingEdge, 2 for High, 3 for FallingEdge, and a stage as 0 for Silence, 1 for Attack, 2 for
Decay, 3 for Sustain, 4 for Release. (R65, R110, R117, R130, R144, R145, R146, R163, R167) -/
def Obligations.UnitReadsHaveNoSideEffect : Prop :=
  ∀ (s : State) (u : UnitIx), s.fault = false →
    let responds := fun (i : Instr) (v : Word) =>
      exec i s = .next { s with rsp := some ⟨v, false⟩ }
    let gateCode := fun x : GateState =>
      if x = .low then 0 else if x = .risingEdge then 1 else if x = .high then 2 else 3
    let stageCode := fun x : Stage =>
      if x = .silence then 0 else if x = .attack then 1 else if x = .decay then 2
      else if x = .sustain then 3 else 4
    (u.toNat < s.params.nGate → responds (.gateRd u) (gateCode (s.gate u).state)) ∧
      (u.toNat < s.params.nEnv →
        responds (.envRdPos u) (s.env u).pos ∧
        responds (.envRdStg u) (stageCode (s.env u).stage) ∧
        responds (.envRdGate u) (gateCode (s.env u).gate)) ∧
      (u.toNat < s.params.nLpf → responds (.lpfRd u) (s.lpf u)) ∧
      (u.toNat < s.params.nHpf → responds (.hpfRd u) (s.hpf u))

/-- While the block runs and Gate g exists: the state of g becomes GateNext of its state, the
sample and its threshold; the response is the new state's code; the threshold, every other Gate
and every other register are unchanged. (R110, R113, R115) -/
def Obligations.GateStepAdvancesOneGate : Prop :=
  ∀ (s : State) (g : UnitIx) (a : Word),
    s.fault = false → g.toNat < s.params.nGate → s.gates.length = s.params.nGate →
    let code := fun x : GateState =>
      if x = .low then 0 else if x = .risingEdge then 1 else if x = .high then 2 else 3
    ∃ t, exec (.gateStep g a) s = .next t ∧
      (t.gate g).state = gateNext (s.gate g).state a (s.gate g).thr ∧
      (t.gate g).thr = (s.gate g).thr ∧
      t.rsp = some ⟨code (t.gate g).state, false⟩ ∧
      onlyGate s t g

/-- While the block runs and Gate g exists: GATE.CFG leaves g with threshold A and its state;
GATE.INIT leaves g Low with its threshold. Each responds 0 and changes nothing else. (R113, R116,
R118) -/
def Obligations.GateConfigAndInitWriteOneField : Prop :=
  ∀ (s : State) (g : UnitIx) (a : Word),
    s.fault = false → g.toNat < s.params.nGate → s.gates.length = s.params.nGate →
    (∃ t, exec (.gateCfg g a) s = .next t ∧ t.gate g = ⟨(s.gate g).state, a⟩ ∧
        t.rsp = some ⟨0, false⟩ ∧ onlyGate s t g) ∧
      ∃ t, exec (.gateInit g) s = .next t ∧ t.gate g = ⟨.low, (s.gate g).thr⟩ ∧
        t.rsp = some ⟨0, false⟩ ∧ onlyGate s t g

/-- For every sample and threshold: above the threshold, Low and FallingEdge go to RisingEdge,
RisingEdge and High to High; at the threshold, Low and FallingEdge go to Low, RisingEdge and High
to High; below it, Low and FallingEdge go to Low, RisingEdge and High to FallingEdge; and with a
NaN on either side, Low and High stay, RisingEdge goes to FallingEdge and FallingEdge to
RisingEdge. Values that are not NaN are compared by their real values, with both zeros equal.
(R111) -/
def Obligations.GateTransitionTable : Prop :=
  ∀ a thr : Word,
    (isNaN a = true ∨ isNaN thr = true →
        gateNext .low a thr = .low ∧ gateNext .risingEdge a thr = .fallingEdge ∧
        gateNext .high a thr = .high ∧ gateNext .fallingEdge a thr = .risingEdge) ∧
      (isNaN a = false → isNaN thr = false →
        (orderKey thr < orderKey a →
            gateNext .low a thr = .risingEdge ∧ gateNext .risingEdge a thr = .high ∧
            gateNext .high a thr = .high ∧ gateNext .fallingEdge a thr = .risingEdge) ∧
          (orderKey a = orderKey thr →
            gateNext .low a thr = .low ∧ gateNext .risingEdge a thr = .high ∧
            gateNext .high a thr = .high ∧ gateNext .fallingEdge a thr = .low) ∧
          (orderKey a < orderKey thr →
            gateNext .low a thr = .low ∧ gateNext .risingEdge a thr = .fallingEdge ∧
            gateNext .high a thr = .fallingEdge ∧ gateNext .fallingEdge a thr = .low))

/-- For every command, every unit and every state: after GATE.STEP a Gate that was in RisingEdge
is in High or FallingEdge, one that was in FallingEdge is in Low or RisingEdge, one that was Low
is not High, one that was High is not Low; the same holds of an envelope's Gate after ENV.STEP.
(R112) -/
def Obligations.EdgesLastOneSample : Prop :=
  ∀ (s t : State) (u : UnitIx) (a : Word), s.fault = false →
    let okay := fun (x y : GateState) =>
      (x = .risingEdge → y = .high ∨ y = .fallingEdge) ∧
      (x = .fallingEdge → y = .low ∨ y = .risingEdge) ∧
      (x = .low → y ≠ .high) ∧ (x = .high → y ≠ .low)
    (u.toNat < s.params.nGate → s.gates.length = s.params.nGate →
        exec (.gateStep u a) s = .next t → okay (s.gate u).state (t.gate u).state) ∧
      (u.toNat < s.params.nEnv → s.envs.length = s.params.nEnv →
        exec (.envStep u a) s = .next t → okay (s.env u).gate (t.env u).gate)

/-- From a Low Gate of any threshold, four GATE.STEPs with samples above, above, below, below the
threshold leave and respond RisingEdge, High, FallingEdge, Low; three with above, below, below
leave and respond RisingEdge, FallingEdge, Low; and any number of samples below the threshold
leave it Low. (R119, R120) -/
def Obligations.GateStepResponse : Prop :=
  ∀ (s : State) (g : UnitIx) (hi lo : Word),
    s.fault = false → g.toNat < s.params.nGate → s.gates.length = s.params.nGate →
    (s.gate g).state = .low → flt (s.gate g).thr hi = true → flt lo (s.gate g).thr = true →
    let gives := fun (t : State) (x : GateState) (code : Word) =>
      (t.gate g).state = x ∧ t.rsp = some ⟨code, false⟩
    (∃ t1 t2 t3 t4,
        exec (.gateStep g hi) s = .next t1 ∧ gives t1 .risingEdge 1 ∧
        exec (.gateStep g hi) t1 = .next t2 ∧ gives t2 .high 2 ∧
        exec (.gateStep g lo) t2 = .next t3 ∧ gives t3 .fallingEdge 3 ∧
        exec (.gateStep g lo) t3 = .next t4 ∧ gives t4 .low 0) ∧
      (∃ t1 t2 t3,
        exec (.gateStep g hi) s = .next t1 ∧ gives t1 .risingEdge 1 ∧
        exec (.gateStep g lo) t1 = .next t2 ∧ gives t2 .fallingEdge 3 ∧
        exec (.gateStep g lo) t2 = .next t3 ∧ gives t3 .low 0) ∧
      ∀ n, ∃ t, execAll (List.replicate n (.gateStep g lo)) s = some t ∧
        (t.gate g).state = .low

/-- While the block runs and envelope e exists: each of the three commands sets its own increment
to the quotient of 1.0 and the time floored at P_ENV_EPS, a NaN quotient being any NaN, responds
0, and changes no other field and nothing else. (R134, R139, R140, R142) -/
def Obligations.EnvTimesSetTheirIncrement : Prop :=
  ∀ (s : State) (e : UnitIx) (a : Word),
    s.fault = false → e.toNat < s.params.nEnv → s.envs.length = s.params.nEnv →
    ∃ n, isNaN n = true ∧
      let inc := fdiv n one (if flt a s.params.envEps then s.params.envEps else a)
      (∃ t, exec (.envAtk e a) s = .next t ∧ t.env e = { s.env e with atk := inc } ∧
          t.rsp = some ⟨0, false⟩ ∧ onlyEnv s t e) ∧
        (∃ t, exec (.envDec e a) s = .next t ∧ t.env e = { s.env e with dec := inc } ∧
          t.rsp = some ⟨0, false⟩ ∧ onlyEnv s t e) ∧
        ∃ t, exec (.envRel e a) s = .next t ∧ t.env e = { s.env e with rel := inc } ∧
          t.rsp = some ⟨0, false⟩ ∧ onlyEnv s t e

/-- While the block runs and envelope e exists: ENV.SUS sets only the sustain level and ENV.THR
only the threshold, each to A unchanged; ENV.INIT sets the mode, the stage to Silence, the
position to +0.0 and the Gate to Low and keeps times, level and threshold. Each responds 0 and
changes nothing else. (R138, R141, R143) -/
def Obligations.EnvLevelThresholdAndInit : Prop :=
  ∀ (s : State) (e : UnitIx) (a : Word) (m : EnvMode),
    s.fault = false → e.toNat < s.params.nEnv → s.envs.length = s.params.nEnv →
    (∃ t, exec (.envSus e a) s = .next t ∧ t.env e = { s.env e with sus := a } ∧
        t.rsp = some ⟨0, false⟩ ∧ onlyEnv s t e) ∧
      (∃ t, exec (.envThr e a) s = .next t ∧ t.env e = { s.env e with thr := a } ∧
        t.rsp = some ⟨0, false⟩ ∧ onlyEnv s t e) ∧
      ∃ t, exec (.envInit e m) s = .next t ∧
        t.env e =
          { s.env e with mode := m, stage := .silence, pos := 0x00000000, gate := .low } ∧
        t.rsp = some ⟨0, false⟩ ∧ onlyEnv s t e

/-- While the block runs and envelope e exists, ENV.STEP updates the unit's Gate; on an allowed
rising edge it restarts Attack from +0.0, the edge being allowed in Silence, Decay and Sustain, in
Attack where P_RETRIG_ATTACK says so, in Release of an AR unit, and in Release of an ADSR unit
where P_ADSR_RETRIG_RELEASE says so; otherwise each stage advances from its position, Sustain
first going to Release when an ADSR unit's Gate is low-ish. Attack adds, Decay and Release
subtract the increment times SPERIOD, and a stage ends exactly when its target is reached or
passed, at the target. The response is the new position; the unit's configuration, every other
unit and every other register are unchanged. (R132, R133, R135, R136, R137) -/
def Obligations.EnvStepByStage : Prop :=
  ∀ (s : State) (e : UnitIx) (a : Word),
    s.fault = false → e.toNat < s.params.nEnv → s.envs.length = s.params.nEnv →
    ∃ t n m, exec (.envStep e a) s = .next t ∧ isNaN n = true ∧ isNaN m = true ∧
      onlyEnv s t e ∧ t.rsp = some ⟨(t.env e).pos, false⟩ ∧
      (let u := s.env e
       let v := t.env e
       let g := gateNext u.gate a u.thr
       let edge := g = .risingEdge ∧
         (u.stage = .silence ∨ u.stage = .decay ∨ u.stage = .sustain ∨
           (u.stage = .attack ∧ s.params.retrigAttack = true) ∨
           (u.stage = .release ∧ (u.mode = .ar ∨ s.params.adsrRetrigRelease = true)))
       let attackFrom := fun (x : Word) =>
         let y := fadd m x (fmul n u.atk s.speriod)
         if fge y one then v.pos = one ∧ v.stage = (if u.mode = .ar then .release else .decay)
         else v.pos = y ∧ v.stage = .attack
       let decayFrom := fun (x : Word) =>
         let y := fsub m x (fmul n u.dec s.speriod)
         if fle y u.sus then v.pos = u.sus ∧ v.stage = .sustain
         else v.pos = y ∧ v.stage = .decay
       let releaseFrom := fun (x : Word) =>
         let y := fsub m x (fmul n u.rel s.speriod)
         if fle y posZero then v.pos = posZero ∧ v.stage = .silence
         else v.pos = y ∧ v.stage = .release
       v = { u with gate := g, stage := v.stage, pos := v.pos } ∧
         (edge → attackFrom posZero) ∧
         (¬ edge → u.stage = .silence → v.stage = .silence ∧ v.pos = u.pos) ∧
         (¬ edge → u.stage = .attack → attackFrom u.pos) ∧
         (¬ edge → u.stage = .decay → decayFrom u.pos) ∧
         (¬ edge → u.stage = .sustain →
           if u.mode = .adsr ∧ (g = .low ∨ g = .fallingEdge) then releaseFrom u.pos
           else v.stage = .sustain ∧ v.pos = u.pos) ∧
         (¬ edge → u.stage = .release → releaseFrom u.pos))

/-- For every ENV.STEP of an ADSR unit that answers a next state: if the unit holds Release after
the step and did not before, it held Sustain and its Gate is low-ish; and if it held Attack or
Decay and the step saw no rising edge, it holds after the step the same stage or the next one of
the chain (Decay after Attack, Sustain after Decay). (R135, R136, R151) -/
def Obligations.ReleaseIsEnteredOnlyFromSustain : Prop :=
  ∀ (s t : State) (e : UnitIx) (a : Word),
    s.fault = false → e.toNat < s.params.nEnv → s.envs.length = s.params.nEnv →
    (s.env e).mode = .adsr → exec (.envStep e a) s = .next t →
    ((t.env e).stage = .release → (s.env e).stage ≠ .release →
        (s.env e).stage = .sustain ∧ isLowish (t.env e).gate = true) ∧
      ((t.env e).gate ≠ .risingEdge → (s.env e).stage = .attack →
        (t.env e).stage = .attack ∨ (t.env e).stage = .decay) ∧
      ((t.env e).gate ≠ .risingEdge → (s.env e).stage = .decay →
        (t.env e).stage = .decay ∨ (t.env e).stage = .sustain)

/-- For every ENV.STEP of a unit whose position and sustain level are in [0, 1] and whose three
increments and SPERIOD are finite and not negative, the step completes and the new position is in
[0, 1]; an Attack that ends is at 1.0, a Decay that ends is at the sustain level and a Release
that ends is at +0.0. (R152) -/
def Obligations.EnvPositionStaysNormalized : Prop :=
  ∀ (s : State) (e : UnitIx) (a : Word),
    s.fault = false → e.toNat < s.params.nEnv → s.envs.length = s.params.nEnv →
    inUnit (s.env e).pos = true → inUnit (s.env e).sus = true →
    finiteNonneg (s.env e).atk = true → finiteNonneg (s.env e).dec = true →
    finiteNonneg (s.env e).rel = true → finiteNonneg s.speriod = true →
    ∃ t, exec (.envStep e a) s = .next t ∧ inUnit (t.env e).pos = true ∧
      ((s.env e).stage = .attack → (t.env e).stage ≠ .attack → (t.env e).pos = one) ∧
      ((s.env e).stage = .decay → (t.env e).stage = .sustain → (t.env e).pos = (s.env e).sus) ∧
      ((s.env e).stage = .release → (t.env e).stage = .silence → (t.env e).pos = posZero)

/-- For every ENV.STEP that is no retrigger of R135, of a unit in Attack, Decay or Release: if the
stage's increment, SPERIOD or the position is a NaN, the unit stays in that stage and its position
is a NaN. (R135, R150) -/
def Obligations.EnvNanHoldsTheStage : Prop :=
  ∀ (s t : State) (e : UnitIx) (a : Word),
    s.fault = false → e.toNat < s.params.nEnv → s.envs.length = s.params.nEnv →
    exec (.envStep e a) s = .next t →
    ¬ ((t.env e).gate = .risingEdge ∧
        ((s.env e).stage = .silence ∨ (s.env e).stage = .decay ∨ (s.env e).stage = .sustain ∨
          ((s.env e).stage = .attack ∧ s.params.retrigAttack = true) ∨
          ((s.env e).stage = .release ∧
            ((s.env e).mode = .ar ∨ s.params.adsrRetrigRelease = true)))) →
    let bad := fun (inc : Word) =>
      isNaN inc = true ∨ isNaN s.speriod = true ∨ isNaN (s.env e).pos = true
    ((s.env e).stage = .attack ∧ bad (s.env e).atk ∨
      (s.env e).stage = .decay ∧ bad (s.env e).dec ∨
      (s.env e).stage = .release ∧ bad (s.env e).rel) →
    (t.env e).stage = (s.env e).stage ∧ isNaN (t.env e).pos = true

/-- While the block runs and lowpass f exists: LPF.STEP with a cutoff at or below zero leaves
state +0.0 and responds +0.0, for every input and every prior state, and changes nothing else.
(R168) -/
def Obligations.LowpassSilencesNonpositiveCutoff : Prop :=
  ∀ (s : State) (f : UnitIx) (a b : Word),
    s.fault = false → f.toNat < s.params.nLpf → s.lpfs.length = s.params.nLpf →
    fle b posZero = true →
    ∃ t, exec (.lpfStep f a b) s = .next t ∧ t.lpf f = 0x00000000 ∧
      t.rsp = some ⟨0x00000000, false⟩ ∧ onlyLpf s t f

/-- While the block runs and the unit exists: LPF.STEP with a cutoff not at or below zero (a NaN
cutoff included) leaves and responds state + (x - state) * dt/(dt + 1/(2π*cutoff)); HPF.STEP, for
every cutoff, responds y = rc/(rc + dt) * (prevDiff + x) and leaves prevDiff at y - x. Each
operation is rounded once, each NaN result is any NaN, and nothing else changes. (R160, R161,
R164, R165) -/
def Obligations.FiltersFollowTheirRecursions : Prop :=
  ∀ (s : State) (u : UnitIx) (a b : Word), s.fault = false →
    (u.toNat < s.params.nLpf → s.lpfs.length = s.params.nLpf → fle b posZero = false →
      ∃ (t : State) (n : Nat → Word), (∀ k, isNaN (n k) = true) ∧
        exec (.lpfStep u a b) s = .next t ∧
        (let rc := fdiv (n 1) 0x3F800000 (fmul (n 0) 0x40C90FDB b)
         let k := fdiv (n 3) s.speriod (fadd (n 2) s.speriod rc)
         t.lpf u = fadd (n 6) (s.lpf u) (fmul (n 5) (fsub (n 4) a (s.lpf u)) k)) ∧
        t.rsp = some ⟨t.lpf u, false⟩ ∧ onlyLpf s t u) ∧
      (u.toNat < s.params.nHpf → s.hpfs.length = s.params.nHpf →
        ∃ (t : State) (n : Nat → Word), (∀ k, isNaN (n k) = true) ∧
          exec (.hpfStep u a b) s = .next t ∧
          (let rc := fdiv (n 1) 0x3F800000 (fmul (n 0) 0x40C90FDB b)
           let k := fdiv (n 3) rc (fadd (n 2) rc s.speriod)
           let y := fmul (n 5) k (fadd (n 4) (s.hpf u) a)
           t.hpf u = fsub (n 6) y a ∧ t.rsp = some ⟨y, false⟩) ∧
          onlyHpf s t u)

/-- While the block runs: LPF.INIT and HPF.INIT of a unit that exists leave its state +0.0, a NaN
included, and BUS.CLR leaves ACC +0.0. Each responds 0 and changes nothing else. (R162, R166,
R230) -/
def Obligations.InitAndClearWriteZero : Prop :=
  ∀ (s : State) (u : UnitIx), s.fault = false →
    (u.toNat < s.params.nLpf → s.lpfs.length = s.params.nLpf →
        ∃ t, exec (.lpfInit u) s = .next t ∧ t.lpf u = 0x00000000 ∧
          t.rsp = some ⟨0, false⟩ ∧ onlyLpf s t u) ∧
      (u.toNat < s.params.nHpf → s.hpfs.length = s.params.nHpf →
        ∃ t, exec (.hpfInit u) s = .next t ∧ t.hpf u = 0x00000000 ∧
          t.rsp = some ⟨0, false⟩ ∧ onlyHpf s t u) ∧
      exec .busClr s = .next { s with acc := 0x00000000, rsp := some ⟨0, false⟩ }

/-- For every step command that answers a next state while the block runs: a NaN highpass memory
stays a NaN through HPF.STEP, a NaN lowpass state through LPF.STEP with a cutoff not at or below
zero, a NaN DC average through DCB.STEP and BUS.MASTER, a NaN limiter envelope through LIM.STEP
and BUS.MASTER; and the response is then a NaN. (R161, R165, R181, R188) -/
def Obligations.NanStateIsStuck : Prop :=
  ∀ (s t : State) (u : UnitIx) (a b : Word), s.fault = false →
    let nanRsp := ∃ d, t.rsp = some ⟨d, false⟩ ∧ isNaN d = true
    (u.toNat < s.params.nHpf → s.hpfs.length = s.params.nHpf → isNaN (s.hpf u) = true →
        exec (.hpfStep u a b) s = .next t → isNaN (t.hpf u) = true ∧ nanRsp) ∧
      (u.toNat < s.params.nLpf → s.lpfs.length = s.params.nLpf → isNaN (s.lpf u) = true →
        fle b posZero = false →
        exec (.lpfStep u a b) s = .next t → isNaN (t.lpf u) = true ∧ nanRsp) ∧
      (isNaN s.dcAvg = true →
        exec (.dcbStep a) s = .next t → isNaN t.dcAvg = true ∧ nanRsp) ∧
      (isNaN s.limEnv = true →
        exec (.limStep a) s = .next t → isNaN t.limEnv = true ∧ nanRsp) ∧
      (isNaN s.dcAvg = true ∨ isNaN s.limEnv = true →
        exec .busMaster s = .next t → isNaN t.limEnv = true ∧ nanRsp ∧
          (isNaN s.dcAvg = true → isNaN t.dcAvg = true))

/-- While the block runs: DCB.STEP leaves in DC_AVG the average moved by (x - DC_AVG) * DC_K and
responds x less the new average; LIM.STEP takes the attack coefficient when |y| exceeds LIM_ENV
and the release coefficient otherwise, leaves in LIM_ENV the followed value floored at 1.0, and
responds y over the envelope times HEADROOM clamped to [-1, 1]. Each NaN result is any NaN, and
each command changes nothing else. (R180, R181, R182, R184) -/
def Obligations.DcBlockerAndLimiterFollowTheirRecursions : Prop :=
  ∀ (s : State) (a : Word), s.fault = false →
    (∃ (t : State) (n : Nat → Word), (∀ k, isNaN (n k) = true) ∧
      exec (.dcbStep a) s = .next t ∧
      t.dcAvg = fadd (n 2) s.dcAvg (fmul (n 1) (fsub (n 0) a s.dcAvg) s.dcK) ∧
      t.rsp = some ⟨fsub (n 3) a t.dcAvg, false⟩ ∧
      onlyMaster s t ∧ t.limEnv = s.limEnv) ∧
    ∃ (t : State) (n : Nat → Word), (∀ k, isNaN (n k) = true) ∧
      exec (.limStep a) s = .next t ∧
      (let m := a &&& 0x7FFFFFFF
       let c := if flt s.limEnv m then s.limCA else s.limCR
       let env := fadd (n 2) s.limEnv (fmul (n 1) (fsub (n 0) m s.limEnv) c)
       let y := fdiv (n 4) a (fmul (n 3) t.limEnv s.params.headroom)
       t.limEnv = (if flt env 0x3F800000 then 0x3F800000 else env) ∧
         t.rsp = some ⟨if flt y 0xBF800000 then 0xBF800000
                       else if flt 0x3F800000 y then 0x3F800000 else y, false⟩) ∧
      onlyMaster s t ∧ t.dcAvg = s.dcAvg

/-- While the block runs, BUS.MASTER completes in exactly the state and response that LIM.STEP
gives on the response of DCB.STEP of ACC; ACC is unchanged and nothing but DC_AVG, LIM_ENV and the
response changes. (R185) -/
def Obligations.BusMasterIsDcThenLimiter : Prop :=
  ∀ s : State, s.fault = false →
    ∃ r y t, exec (.dcbStep s.acc) s = .next r ∧ r.rsp = some ⟨y, false⟩ ∧
      exec (.limStep y) r = .next t ∧ exec .busMaster s = .next t ∧
      t.acc = s.acc ∧ onlyMaster s t

/-- Rule R188(a): while the block runs, for a finite input, a finite envelope not below 1.0 (as
every reachable state has it), finite coefficients and a positive finite HEADROOM, LIM.STEP
completes with a response in [-1, 1] and leaves LIM_ENV at or above 1.0, never a NaN. (R188, R182)
-/
def Obligations.LimiterOutputIsClamped : Prop :=
  ∀ (s : State) (a : Word), s.fault = false →
    isFinite a = true → isFinite s.limEnv = true → fle one s.limEnv = true →
    isFinite s.limCA = true → isFinite s.limCR = true → positiveFinite s.params.headroom = true →
    ∃ t y, exec (.limStep a) s = .next t ∧ t.rsp = some ⟨y, false⟩ ∧
      inClamp y = true ∧ fle one t.limEnv = true

/-- While the block runs, from DC_AVG and ACC +0.0, a finite LIM_ENV at least 1.0, LIM_CR in [0,
1], a positive finite HEADROOM and a finite DC_K (the one condition rule R189 leaves unsaid: with
an infinite or NaN DC_K the average becomes a NaN), BUS.MASTER responds +0.0 and leaves DC_AVG
+0.0 and LIM_ENV finite and at least 1.0, so the same holds of every later BUS.MASTER; and the
state after reset meets the conditions. The condition on DC_K is the model's reading (log entry
11). (R189, R292) -/
def Obligations.MasterBusPassesSilence : Prop :=
  let silent := fun s : State =>
    s.fault = false ∧ s.acc = 0x00000000 ∧ s.dcAvg = 0x00000000 ∧ isFinite s.limEnv = true ∧
      fle one s.limEnv = true ∧ inUnit s.limCR = true ∧ positiveFinite s.params.headroom = true ∧
      isFinite s.dcK = true
  (∀ s, silent s → ∃ t, exec .busMaster s = .next t ∧ t.rsp = some ⟨0x00000000, false⟩ ∧
      silent t ∧ onlyMaster s t) ∧
    ∀ p : Params, p.legal = true → silent (State.initial p)

/-- For every state and every buffer of samples: the outputs of DC step then limiter step on each
sample in turn are, sample for sample, those of the DC pass over the whole buffer followed by the
limiter pass over its output, and DC_AVG and LIM_ENV end the same; NaNs are compared as NaNs,
since every encoding of a NaN is a fresh draw. (R186, R180, R182, R185) -/
def Obligations.MasterBusEqualsTwoPasses : Prop :=
  ∀ (s : State) (xs : List Word),
    let one := masterPass s xs
    let dc := dcPass s xs
    let two := limPass dc.1 dc.2
    List.Forall₂ (fun x y => sameFloat x y = true) one.2 two.2 ∧
      sameFloat one.1.dcAvg two.1.dcAvg = true ∧ sameFloat one.1.limEnv two.1.limEnv = true

/-- While the block runs, with LIM_CA and LIM_CR +0.0, LIM_ENV 1.0 and a positive finite HEADROOM,
LIM.STEP of a finite sample leaves LIM_ENV at 1.0 and responds the sample over HEADROOM clamped to
[-1, 1]. (An infinite or NaN sample makes the envelope a NaN by rule R182: log entry 11.) (R293)
-/
def Obligations.LimiterIsFixedAtZeroCoefficients : Prop :=
  ∀ (s : State) (a : Word), s.fault = false →
    s.limCA = 0x00000000 → s.limCR = 0x00000000 → s.limEnv = 0x3F800000 →
    positiveFinite s.params.headroom = true → isFinite a = true →
    ∃ t n, isNaN n = true ∧ exec (.limStep a) s = .next t ∧ t.limEnv = 0x3F800000 ∧
      t.rsp = some ⟨clamp (fdiv n a s.params.headroom) minusOne one, false⟩

/-- While the block runs, slot v exists and holds an active voice: BUS.ACC leaves ACC at the
rounded sum of ACC and the rounded product of the sample and the slot's gain, each NaN result
being any NaN, responds 0 and changes nothing else. (R231) -/
def Obligations.BusAccAddsOneScaledSample : Prop :=
  ∀ (s : State) (v : UnitIx) (a : Word),
    s.fault = false → v.toNat < s.params.nVoice → (s.voice v).active = true →
    ∃ t n m, isNaN n = true ∧ isNaN m = true ∧ exec (.busAcc v a) s = .next t ∧
      t.acc = fadd m s.acc (fmul n a (s.voice v).gain) ∧
      t.rsp = some ⟨0, false⟩ ∧ onlyAcc s t

/-- For every list of voice slots and samples whose slots exist and are active: BUS.MIX completes
with ACC equal to the sum from +0.0 in list order, every product and sum rounded, each NaN result
being any NaN, and nothing else changed; and BUS.SAMPLE completes in the state and response that
BUS.MASTER gives on that sum. (R235) -/
def Obligations.BusMixSumsInOrder : Prop :=
  ∀ (s : State) (xs : List (UnitIx × Word)), s.fault = false →
    (∀ x ∈ xs, x.1.toNat < s.params.nVoice ∧ (s.voice x.1).active = true) →
    ∃ (t : State) (n : Nat → Word), (∀ k, isNaN (n k) = true) ∧
      execAll (expand (.busMix xs)) s = some t ∧
      t.acc = voiceSum n (fun v => (s.voice v).gain) posZero 0 xs ∧
      onlyAcc s t ∧
      ∃ u, exec .busMaster t = .next u ∧ execAll (expand (.busSample xs)) s = some u

/-- While the block runs, slot v exists and no other slot holds the id in an active voice:
VOICE.SET leaves the slot active with the id and gain given and every parameter +0.0, responds 0
and changes nothing else. The slot's own id may be given again. (R208) -/
def Obligations.VoiceSetInstallsAVoice : Prop :=
  ∀ (s : State) (v : UnitIx) (a b : Word),
    s.fault = false → v.toNat < s.params.nVoice → s.voices.length = s.params.nVoice →
    (∀ u, u ≠ v.toNat → ∀ x, s.voices[u]? = some x → ¬ (x.active = true ∧ x.id = a)) →
    ∃ t, exec (.voiceSet v a b) s = .next t ∧
      t.voice v = ⟨true, a, b, List.replicate s.params.nParam 0x00000000⟩ ∧
      t.rsp = some ⟨0, false⟩ ∧ onlyVoice s t v

/-- While the block runs and no two active slots hold one id: VOICE.DEL completes with response 0;
every slot keeps its id, gain and parameters; a slot is active afterwards exactly when it was and
its id is another; and nothing else changes. (R209, R200) -/
def Obligations.VoiceDelRemovesTheVoice : Prop :=
  ∀ (s : State) (a : Word), s.fault = false →
    ((s.voices.filter (·.active)).map (·.id)).Nodup →
    ∃ t, exec (.voiceDel a) s = .next t ∧ t.rsp = some ⟨0, false⟩ ∧
      t = { s with voices := t.voices, rsp := t.rsp } ∧
      t.voices = s.voices.map fun x => { x with active := x.active && x.id != a }

/-- While the block runs, slot v exists and is active and the index exists: PARAM.INIT leaves the
parameter at A; the slot's other parameters, its id and gain, every other slot and everything else
are unchanged, and it responds 0. If A is the slot's id, PARAM.RD responds the parameter's active
value with rsp_err 0, and nothing else changes. (R210, R211, R65) -/
def Obligations.ParamInitWritesAndParamRdReads : Prop :=
  ∀ (s : State) (v : UnitIx) (n : Imm) (a : Word),
    s.fault = false → v.toNat < s.params.nVoice → s.voices.length = s.params.nVoice →
    n.toNat < s.params.nParam → (s.voice v).params.length = s.params.nParam →
    (s.voice v).active = true →
    (∃ t, exec (.paramInit v n a) s = .next t ∧
      (t.voice v).param n = a ∧ (∀ m, m ≠ n → (t.voice v).param m = (s.voice v).param m) ∧
      t.voice v = { s.voice v with params := (t.voice v).params } ∧
      t.rsp = some ⟨0, false⟩ ∧ onlyVoice s t v) ∧
    ((s.voice v).id = a →
      exec (.paramRd v n a) s = .next { s with rsp := some ⟨(s.voice v).param n, false⟩ })

/-- While the block runs: with room, PARAM.POST puts (A, IMM, B) at the tail of PWQ, responds 0
and changes nothing else, whatever the index; with PWQ full it takes the fault PWQ_FULL (code
0x0A) with aux A, and PWQ is unchanged. (R203, R309) -/
def Obligations.ParamPostAppendsOrFaults : Prop :=
  ∀ (s : State) (n : Imm) (a b : Word), s.fault = false →
    (s.pwq.length < s.params.pwqDepth →
        exec (.paramPost n a b) s =
          .next { s with pwq := s.pwq ++ [⟨a, n, b⟩], rsp := some ⟨0, false⟩ }) ∧
      (s.params.pwqDepth ≤ s.pwq.length →
        exec (.paramPost n a b) s =
          .next (s.faulted (commandWord (.paramPost n a b)) 0x0A a))

/-- While the block runs, no two active slots hold one id, every slot has N_PARAM parameters and
no pending entry names an active owner with an index that does not exist: PARAM.COMMIT completes
with PWQ empty; each parameter of an active slot has the value of the latest entry with the slot's
id and that index, or its old value where there is none; inactive slots, every slot's active bit,
id and gain and everything else are unchanged. (R205, R68) -/
def Obligations.ParamCommitAppliesTheBatch : Prop :=
  ∀ s : State, s.fault = false → s.voices.length ≤ 1024 →
    ((s.voices.filter (·.active)).map (·.id)).Nodup →
    (∀ x ∈ s.voices, x.params.length = s.params.nParam) →
    (∀ e ∈ s.pwq, (∃ x ∈ s.voices, x.active = true ∧ x.id = e.owner) →
      e.index.toNat < s.params.nParam) →
    ∃ t, exec .paramCommit s = .next t ∧ t.pwq = [] ∧ t.rsp = some ⟨0, false⟩ ∧
      onlySlotsAndPwq s t ∧ t.voices.length = s.voices.length ∧
      ∀ v : UnitIx, v.toNat < s.voices.length →
        (t.voice v).active = (s.voice v).active ∧ (t.voice v).id = (s.voice v).id ∧
        (t.voice v).gain = (s.voice v).gain ∧
        ∀ n : Imm, n.toNat < s.params.nParam →
          (t.voice v).param n =
            if (s.voice v).active = true then
              latest (s.voice v).id n ((s.voice v).param n) s.pwq
            else (s.voice v).param n

/-- While the block runs, for PWQ split at an entry that names an active owner with an index of at
least N_PARAM, no entry before it doing so: PARAM.COMMIT takes the fault PARAM_INDEX (code 0x09)
with aux that entry's index, and PWQ and every parameter are unchanged. An entry whose owner has
no active slot never faults, whatever its index. (R206) -/
def Obligations.CommitFaultIsAllOrNothing : Prop :=
  ∀ (s : State) (before after : List Event) (e : Event), s.fault = false →
    let offends := fun e : Event =>
      (∃ x ∈ s.voices, x.active = true ∧ x.id = e.owner) ∧ s.params.nParam ≤ e.index.toNat
    (s.pwq = before ++ e :: after → (∀ d ∈ before, ¬ offends d) → offends e →
        exec .paramCommit s =
          .next (s.faulted 0x9C000000 0x09 (BitVec.ofNat 32 e.index.toNat))) ∧
      ((∀ d ∈ s.pwq, ¬ offends d) → ∃ t, exec .paramCommit s = .next t ∧ t.fault = false)

/-- While the block runs, a PARAM.COMMIT that completes leaves exactly the state it would leave if
every pending entry whose owner is in no active slot had never been posted. (R213) -/
def Obligations.DroppedEventsLeaveNoTrace : Prop :=
  ∀ s t : State, s.fault = false → exec .paramCommit s = .next t → t.fault = false →
    exec .paramCommit
        { s with pwq := s.pwq.filter fun e => s.voices.any fun x => x.active && x.id == e.owner } =
      .next t

/-- For every instruction other than those three, port transactions included, and for every step
that is not a reset and runs none of those three commands: no active parameter value of any slot
changes. (R207) -/
def Obligations.SnapshotIsStableBetweenCommits : Prop :=
  (∀ (i : Instr) (s t : State), exec i s = .next t → i ≠ .paramCommit →
      (∀ v n a, i ≠ .paramInit v n a) → (∀ v a b, i ≠ .voiceSet v a b) →
      t.voices.map (·.params) = s.voices.map (·.params)) ∧
    ∀ s t : State, step s = .next t → s.sched.head? ≠ some .reset →
      (s.sched.head? = some (.agent .host) → s.rsp = none → ∀ c, s.cmdPort.head? = some c →
        decode c ≠ .instr .paramCommit ∧ (∀ v n a, decode c ≠ .instr (.paramInit v n a)) ∧
        ∀ v a b, decode c ≠ .instr (.voiceSet v a b)) →
      t.voices.map (·.params) = s.voices.map (·.params)

/-- For every writer's turn the step changes nothing but the turn list, what the writer offers and
PWQ: with an event offered and room in PWQ, the event goes to its tail, and otherwise PWQ is as it
was. PW.WRITE appends its event while there is room, changes nothing else, and what it appends
depends on no other register. For every command: other than PARAM.POST and PARAM.COMMIT it leaves
PWQ as it was; PARAM.POST appends its event when the block runs and PWQ has room, and leaves PWQ
as it was otherwise; PARAM.COMMIT leaves PWQ empty when it responds with rsp_err 0 and as it was
when it faults or is discarded. That a full PWQ makes PW.WRITE a step that changes nothing is log
entry 13 (DEDUCED). (R48, R202, R203, R205) -/
def Obligations.OnlyPwqIsSharedByTheAgents : Prop :=
  (∀ (s t : State) (rest : List Turn), s.sched = .agent .writer :: rest → step s = .next t →
      t = { s with sched := rest, pwPort := t.pwPort, pwq := t.pwq } ∧
      (∀ e es, s.pwPort = e :: es → s.pwq.length < s.params.pwqDepth →
        t.pwq = s.pwq ++ [e] ∧ t.pwPort = es) ∧
      (s.pwPort = [] ∨ s.params.pwqDepth ≤ s.pwq.length →
        t.pwq = s.pwq ∧ t.pwPort = s.pwPort)) ∧
    (∀ (s t : State) (owner : Word) (index : Imm) (value : Word),
      exec (.pwWrite owner index value) s = .next t →
      t = { s with
        pwq := if s.pwq.length < s.params.pwqDepth then s.pwq ++ [⟨owner, index, value⟩]
          else s.pwq }) ∧
    (∀ (s r t u : State) (owner : Word) (index : Imm) (value : Word),
      r.pwq = s.pwq → r.params = s.params →
      exec (.pwWrite owner index value) s = .next t →
      exec (.pwWrite owner index value) r = .next u → u.pwq = t.pwq) ∧
    (∀ (i : Instr) (s t : State), i.isCommand = true → exec i s = .next t →
      ((∀ n a b, i ≠ .paramPost n a b) → i ≠ .paramCommit → t.pwq = s.pwq) ∧
      (∀ n a b, i = .paramPost n a b →
        t.pwq = if s.fault = false ∧ s.pwq.length < s.params.pwqDepth then s.pwq ++ [⟨a, n, b⟩]
          else s.pwq) ∧
      (i = .paramCommit →
        (∀ d, t.rsp = some ⟨d, false⟩ → t.pwq = []) ∧
        (∀ d, t.rsp = some ⟨d, true⟩ → t.pwq = s.pwq)))

/-- For every command other than PARAM.POST, PARAM.COMMIT and CSR.RD of PWQLVL, in every state:
executing the command and then PW.WRITE leaves the same state as PW.WRITE and then the command, so
the order in which the two agents' steps interleave is not visible outside PWQ. (R63, R48, R68) -/
def Obligations.PortTransactionsCommuteWithCommands : Prop :=
  ∀ (i : Instr) (owner : Word) (index : Imm) (value : Word) (s t u : State),
    i.isCommand = true → (∀ n a b, i ≠ .paramPost n a b) → i ≠ .paramCommit →
    i ≠ .csrRd 0x00C →
    exec i s = .next t → exec (.pwWrite owner index value) s = .next u →
    exec i u = exec (.pwWrite owner index value) t

/-- For every three words accepted while the block runs, decodable or not: the block answers a
next state; if FAULT is 1 in it, it is the state before with FAULT, CAUSE (a code from 0x01 to
0x0A), FINFO (the command's word), FAUX and the error response written and nothing else, and no
command accepted after it executes: each changes nothing but the response; if FAULT is 0 in it,
the response has rsp_err 0. The same holds of every command instruction. (R84, R260, R262) -/
def Obligations.FaultsArePrecise : Prop :=
  let inTable := fun cause : BitVec 8 => 0x01 ≤ cause.toNat ∧ cause.toNat ≤ 0x0A
  (∀ (c : Command) (s : State), s.fault = false →
    ∃ t, runCommand c s = .next t ∧
      (t.fault = true → (∃ cause aux, t = s.faulted c.w cause aux ∧ inTable cause) ∧
        ∀ d u, runCommand d t = .next u → u = { t with rsp := u.rsp }) ∧
      (t.fault = false → ∃ d, t.rsp = some ⟨d, false⟩)) ∧
    ∀ (i : Instr) (s : State), i.isCommand = true → s.fault = false →
      ∃ t, exec i s = .next t ∧
        (t.fault = true → ∃ cause aux, t = s.faulted (commandWord i) cause aux ∧ inTable cause) ∧
        (t.fault = false → ∃ d, t.rsp = some ⟨d, false⟩)

/-- While the block runs: a command that uses UNIT with UNIT not below the count of its kind takes
UNIT_RANGE (code 0x03) with aux the UNIT; PARAM.INIT and PARAM.RD with a UNIT in range and an
index not below N_PARAM take INDEX_RANGE (code 0x04) with aux the index; whatever else is wrong
with the command. (R85, R260, R267) -/
def Obligations.RangeChecksFaultFirst : Prop :=
  ∀ (i : Instr) (s : State) (k : UnitKind) (u : UnitIx), s.fault = false →
    i.unit? = some (k, u) →
    (s.params.count k ≤ u.toNat →
        exec i s =
          .next (s.faulted (commandWord i) 0x03 (BitVec.ofNat 32 u.toNat))) ∧
      (u.toNat < s.params.count k → ∀ n, i.index? = some n → s.params.nParam ≤ n.toNat →
        exec i s =
          .next (s.faulted (commandWord i) 0x04 (BitVec.ofNat 32 n.toNat)))

/-- While the block runs and slot v (and the index) exist: BUS.ACC and PARAM.INIT on an inactive
slot take VOICE_INACTIVE (code 0x07) with aux the slot; PARAM.RD on an inactive slot or with
another owner takes PARAM_OWNER (code 0x06) with aux A; VOICE.SET with an id that another active
slot holds takes DUPLICATE_ID (code 0x08) with aux A. (R208, R210, R211, R231, R260) -/
def Obligations.VoiceChecksFault : Prop :=
  ∀ (s : State) (v : UnitIx) (n : Imm) (a b : Word),
    s.fault = false → v.toNat < s.params.nVoice → n.toNat < s.params.nParam →
    ((s.voice v).active = false →
        exec (.busAcc v a) s =
          .next (s.faulted (commandWord (.busAcc v a)) 0x07 (BitVec.ofNat 32 v.toNat)) ∧
        exec (.paramInit v n a) s =
          .next (s.faulted (commandWord (.paramInit v n a)) 0x07
            (BitVec.ofNat 32 v.toNat))) ∧
      ((s.voice v).active = false ∨ (s.voice v).id ≠ a →
        exec (.paramRd v n a) s =
          .next (s.faulted (commandWord (.paramRd v n a)) 0x06 a)) ∧
      (∀ u x, u ≠ v.toNat → s.voices[u]? = some x → x.active = true → x.id = a →
        exec (.voiceSet v a b) s =
          .next (s.faulted (commandWord (.voiceSet v a b)) 0x08 a))

/-- While FAULT is 1, for every command c accepted: W = 0 responds 0 with rsp_err 0; a word of
opcode CSR.RD with its unused fields 0 and a number of the CSR map responds the CSR with rsp_err
0; and every other word, decodable or not, responds 0 with rsp_err 1. Nothing but the response
changes, and every command is answered. (R264) -/
def Obligations.HaltedBlockDiscardsCommands : Prop :=
  ∀ (c : Command) (s : State), s.fault = true →
    (c.w = 0 → runCommand c s = .next { s with rsp := some ⟨0, false⟩ }) ∧
      (∀ r : Csr, c.w = commandWord (.csrRd r.number) →
        runCommand c s = .next { s with rsp := some ⟨s.readCsr r, false⟩ }) ∧
      (c.w ≠ 0 → (∀ r : Csr, c.w ≠ commandWord (.csrRd r.number)) →
        runCommand c s = .next { s with rsp := some ⟨0, true⟩ })

/-- For every state with FAULT 1 and every step from it that is not the reset event: every
register but PWQ keeps its value, FAULT, CAUSE, FINFO and FAUX among them; only the response, PWQ,
what the agents offer and the turn list may change. And a halted block executes no command but NOP
and CSR.RD: every other word, and a CSR.RD that fails a check, gets the response 0 with rsp_err 1
and changes nothing else. (R268) -/
def Obligations.HaltedUntilReset : Prop :=
  (∀ s t : State, s.fault = true → step s = .next t → s.sched.head? ≠ some .reset →
    t.registers = s.registers) ∧
    ∀ (c : Command) (s : State), s.fault = true → c.w ≠ 0 →
      (opField c.w = 0x01 → ∀ r : Csr, c.w ≠ commandWord (.csrRd r.number)) →
      runCommand c s = .next { s with rsp := some ⟨0, true⟩ }

/-- For every state: outside a reset cycle irq is the conjunction of FAULT and FIE, and in a reset
cycle it is 0; no step but reset clears FAULT, or changes FIE while FAULT is 1; and if irq is 1,
then after the step irq is 1 unless the next cycle is a reset. That a reset cycle is a state whose
next turn is a reset is the model's reading of R290 (log entry 9, DEDUCED). (R266, R290) -/
def Obligations.IrqHoldsUntilReset : Prop :=
  (∀ s : State, s.rst = false → s.irq = (s.fault && s.fie)) ∧
    (∀ s : State, s.rst = true → s.irq = false) ∧
    (∀ s t : State, s.fault = true → step s = .next t →
      s.sched.head? = some .reset ∨ t.fault = true ∧ t.fie = s.fie) ∧
    ∀ s t : State, s.irq = true → step s = .next t → t.irq = true ∨ t.rst = true

/-- When the reset turn is next, the step leaves every Gate, envelope, filter, slot, parameter,
FIFO and control register at its reset value, withdraws the response (R290) and keeps the
hard-wired parameters. The values are R291's. That the commands and events which the agents offer,
and the turns to come, stay as they were is the model's reading (log entry 9, DEDUCED). (R290,
R291) -/
def Obligations.ResetEventGivesEveryRegisterItsValue : Prop :=
  ∀ (s : State) (rest : List Turn), s.sched = .reset :: rest →
    ∃ t, step s = .next t ∧ t.params = s.params ∧
      t.gates = List.replicate s.params.nGate ⟨.low, 0x3D4CCCCD⟩ ∧
      t.envs = List.replicate s.params.nEnv
        ⟨.ar, .silence, 0, .low, 0x3D4CCCCD, 0, 0, 0, 0⟩ ∧
      t.lpfs = List.replicate s.params.nLpf 0 ∧ t.hpfs = List.replicate s.params.nHpf 0 ∧
      t.acc = 0 ∧ t.dcAvg = 0 ∧ t.limEnv = 0x3F800000 ∧
      t.voices = List.replicate s.params.nVoice
        ⟨false, 0, 0, List.replicate s.params.nParam 0⟩ ∧
      t.pwq = [] ∧ t.status = 0 ∧ t.finfo = 0 ∧ t.faux = 0 ∧ t.ctrl = 0 ∧ t.pwqlvl = 0 ∧
      t.srate = 0x472C4400 ∧ t.speriod = 0x37BE37C6 ∧ t.dcK = 0x373E37C6 ∧
      t.limCA = 0 ∧ t.limCR = 0 ∧ t.rsp = none ∧
      t.cmdPort = s.cmdPort ∧ t.pwPort = s.pwPort ∧ t.sched = rest

/-- For every legal choice of implementation parameters the initial state is well-formed, and so
is the model's reset state, whose OPEN parameters are free legal values (log entries 2 and 3: the
model's choice of what reset stands for). (R291, R7) -/
def Obligations.ResetStateIsWellFormed : Prop :=
  (∀ p : Params, p.legal = true → (State.initial p).Wf) ∧ State.reset.Wf

/-- Every step from every state, reset included, keeps the implementation parameters. For every
well-formed state, reachable or not, and every step from it: the arrays have, and so keep, the
sizes the parameters give, PWQ stays within its depth, no two active slots hold one SynthID, an AR
unit never holds Decay or Sustain, CAUSE, FINFO and FAUX are 0 while FAULT is 0 and CAUSE is a
code of the table while it is 1, ACC is not -0.0, LIM_ENV is not below 1.0, and SPERIOD and DC_K
are the quotients by SRATE. (R29, R35, R36, R37, R38, R40, R43, R131, R200, R204, R231, R260) -/
def Obligations.EveryStepKeepsWellFormedness : Prop :=
  (∀ s t : State, step s = .next t → t.params = s.params) ∧
    ∀ s t : State, s.Wf → step s = .next t → t.Wf

/-- For all finite operands (and a divisor that is not zero): if the result is finite, no finite
binary32 is nearer to the exact sum, difference, product or quotient, and if another is equally
near the result's significand is even; the result is infinite exactly when the exact result's
magnitude is at or beyond half a unit in the last place above the largest finite value; and a
result has the sign of the exact result wherever that is not zero, an overflow to infinity and an
underflow to zero included. A product and a quotient have the exclusive or of the operands' signs,
a zero one too; an exact sum or difference of zero is -0 only where both addends (the subtrahend
negated) are negative, and +0 otherwise. Values are compared exactly, in units of 2^-149, with
fractions cleared: the exact result is num / den. (R11) -/
def Obligations.ArithmeticRoundsToNearestEven : Prop :=
  let nearest := fun (r : Word) (num den : Int) =>
    (isFinite r = true → ∀ c : Word, isFinite c = true →
      (units r * den - num).natAbs ≤ (units c * den - num).natAbs ∧
      ((units r * den - num).natAbs = (units c * den - num).natAbs → units c ≠ units r →
        magBits r % 2 = 0)) ∧
    (isFinite r = false →
      isInf r = true ∧ (2 ^ 25 - 1) * 2 ^ 252 * den.natAbs ≤ num.natAbs) ∧
    ((2 ^ 25 - 1) * 2 ^ 252 * den.natAbs ≤ num.natAbs → isFinite r = false) ∧
    (0 < num * den → isNeg r = false) ∧ (num * den < 0 → isNeg r = true)
  ∀ n a b : Word, isFinite a = true → isFinite b = true →
    nearest (fadd n a b) (units a + units b) 1 ∧
      (units a + units b = 0 →
        fadd n a b = if isNeg a = true ∧ isNeg b = true then 0x80000000 else 0) ∧
      nearest (fsub n a b) (units a - units b) 1 ∧
      (units a - units b = 0 →
        fsub n a b = if isNeg a = true ∧ isNeg b = false then 0x80000000 else 0) ∧
      nearest (fmul n a b) (units a * units b) (2 ^ 149) ∧
      isNeg (fmul n a b) = (isNeg a != isNeg b) ∧
      (units b ≠ 0 → nearest (fdiv n a b) (units a * 2 ^ 149) (units b) ∧
        isNeg (fdiv n a b) = (isNeg a != isNeg b))

/-- fadd(+0, -0) = +0; a finite value minus itself is +0; a finite nonzero value over a zero is an
infinity with the sign of the quotient; 0/0, the difference of two infinities of one sign and the
sum of two of opposite signs, inf/inf, 0 * inf and any operation with a NaN operand give the drawn
NaN; and an infinite operand otherwise gives the correctly signed infinity, on either side of
every sum, difference and product (the product of two infinities too) and over every finite
divisor, or a signed zero as a divisor. (R11) -/
def Obligations.ArithmeticOfSpecialValues : Prop :=
  ∀ n a b : Word,
    let signedInf := if isNeg a = isNeg b then (0x7F800000 : Word) else 0xFF800000
    fadd n posZero negZero = posZero ∧ fadd n negZero negZero = negZero ∧
    (isFinite a = true → fsub n a a = posZero) ∧
    (isFinite a = true → isZero a = false → isZero b = true → fdiv n a b = signedInf) ∧
    (isZero a = true → isZero b = true → fdiv n a b = n) ∧
    (isInf a = true → isInf b = true → isNeg a = isNeg b → fsub n a b = n ∧ fadd n a b = a) ∧
    (isInf a = true → isInf b = true → isNeg a ≠ isNeg b → fadd n a b = n ∧ fsub n a b = a) ∧
    (isInf a = true → isInf b = true → fdiv n a b = n ∧ fmul n a b = signedInf) ∧
    (isInf a = true → isFinite b = true → fadd n a b = a ∧ fadd n b a = a ∧ fsub n a b = a ∧
      fsub n b a = (if isNeg a = true then 0x7F800000 else 0xFF800000) ∧
      (isZero b = true → fmul n a b = n ∧ fmul n b a = n) ∧
      (isZero b = false → fmul n a b = signedInf ∧ fmul n b a = signedInf) ∧
      fdiv n a b = signedInf ∧
      fdiv n b a = if isNeg a = isNeg b then posZero else negZero) ∧
    (isNaN a = true ∨ isNaN b = true →
      fadd n a b = n ∧ fsub n a b = n ∧ fmul n a b = n ∧ fdiv n a b = n)

/-- For finite values a < b and a <= b hold exactly when the real values are so ordered; an
infinity lies beyond every finite value on its side; with a NaN on either side every comparison is
false; fabs clears the sign bit only; and floor_eps, floor_one and clamp return a NaN unchanged.
(R12, R13) -/
def Obligations.ComparisonsAreOrdered : Prop :=
  ∀ a b : Word,
    (isFinite a = true → isFinite b = true →
        (flt a b = true ↔ units a < units b) ∧ (fle a b = true ↔ units a ≤ units b)) ∧
      (isFinite a = true → flt a 0x7F800000 = true ∧ flt 0xFF800000 a = true) ∧
      (isNaN a = true ∨ isNaN b = true →
        flt a b = false ∧ fle a b = false ∧ fgt a b = false ∧ fge a b = false) ∧
      (fabs a).getLsbD 31 = false ∧ (∀ k, k < 31 → (fabs a).getLsbD k = a.getLsbD k) ∧
      (isNaN a = true → floorOne a = a ∧ (∀ eps, floorEps eps a = a) ∧
        ∀ lo hi, clamp a lo hi = a)

/-- For every primitive: a result that is a NaN is the NaN given for that operation, whatever its
encoding; every draw of the machine is a NaN; and replacing operands by operands alike up to NaN
encoding gives results alike up to NaN encoding. No instruction and no step, reset included,
lowers the count of draws, and a NaN that a command newly leaves in a computed register (ACC,
DC_AVG, LIM_ENV, SPERIOD, DC_K, a filter's memory, an envelope's position or increment) is a draw
numbered from the count before the command to below the count after it, so no earlier command had
it. The counted draws are the model's own form of R16's fresh draw (log entry 1, DESIGN CHOICE);
the statement holds for every value of the count. (R16) -/
def Obligations.NanResultsAreFreshDraws : Prop :=
  (∀ n a b : Word, isNaN n = true →
      (isNaN (fadd n a b) = true → fadd n a b = n) ∧ (isNaN (fsub n a b) = true → fsub n a b = n) ∧
      (isNaN (fmul n a b) = true → fmul n a b = n) ∧
      (isNaN (fdiv n a b) = true → fdiv n a b = n)) ∧
    (∀ n m a b c d : Word, isNaN n = true → isNaN m = true →
      sameFloat a c = true → sameFloat b d = true →
      sameFloat (fadd n a b) (fadd m c d) = true ∧ sameFloat (fsub n a b) (fsub m c d) = true ∧
      sameFloat (fmul n a b) (fmul m c d) = true ∧ sameFloat (fdiv n a b) (fdiv m c d) = true ∧
      flt a b = flt c d ∧ fle a b = fle c d) ∧
    (∀ (s : State) (k : Nat), isNaN (s.nan k) = true) ∧
    (∀ s t : State, step s = .next t → s.nanDraws ≤ t.nanDraws) ∧
    ∀ (i : Instr) (s t : State), exec i s = .next t →
      let own := fun x y : Word =>
        isNaN y = true → y ≠ x → ∃ k, s.nanDraws + k < t.nanDraws ∧ y = s.nan k
      s.nanDraws ≤ t.nanDraws ∧ own s.acc t.acc ∧ own s.dcAvg t.dcAvg ∧ own s.limEnv t.limEnv ∧
        own s.speriod t.speriod ∧ own s.dcK t.dcK ∧
        ∀ u : UnitIx, own (s.lpf u) (t.lpf u) ∧ own (s.hpf u) (t.hpf u) ∧
          own (s.env u).pos (t.env u).pos ∧ own (s.env u).atk (t.env u).atk ∧
          own (s.env u).dec (t.env u).dec ∧ own (s.env u).rel (t.env u).rel
end

