-- ==== Sys2Proof/Laws/Binary32.lean ====
section
/-! SUPPORT. The small lemmas of binary32 arithmetic: what each layout function, rounding and
primitive can give. -/

namespace Sys2Proof.Machine

/-! ## Layout -/

theorem magBits_lt (a : Word) : magBits a < 2 ^ 31 := Nat.mod_lt _ (by decide)

theorem isNaN_iff (a : Word) : isNaN a = true ↔ infBits < magBits a := by
  have := magBits_lt a
  simp only [isNaN, expField, fracField, infBits, Bool.and_eq_true, beq_iff_eq, bne_iff_ne]
  omega

theorem isInf_iff (a : Word) : isInf a = true ↔ magBits a = infBits := by
  have := magBits_lt a
  simp only [isInf, expField, fracField, infBits, Bool.and_eq_true, beq_iff_eq]
  omega

theorem isFinite_iff (a : Word) : isFinite a = true ↔ magBits a < infBits := by
  have := magBits_lt a
  simp only [isFinite, expField, infBits, bne_iff_ne]
  omega

theorem isZero_iff (a : Word) : isZero a = true ↔ magBits a = 0 := by simp [isZero]

theorem isNaN_of_isFinite {a : Word} (h : isFinite a = true) : isNaN a = false := by
  have h1 := (isFinite_iff a).1 h
  rw [Bool.eq_false_iff]
  intro h2
  have := (isNaN_iff a).1 h2
  omega

theorem isInf_of_isFinite {a : Word} (h : isFinite a = true) : isInf a = false := by
  have h1 := (isFinite_iff a).1 h
  rw [Bool.eq_false_iff]
  intro h2
  have := (isInf_iff a).1 h2
  omega

/-- A value is a NaN, an infinity or finite. -/
theorem isNaN_or_isInf_or_isFinite (a : Word) :
    isNaN a = true ∨ isInf a = true ∨ isFinite a = true := by
  rw [isNaN_iff, isInf_iff, isFinite_iff]
  omega

@[simp] theorem magBits_withSign (n : Bool) (m : Nat) (h : m < 2 ^ 31) :
    magBits (withSign n m) = m := by
  unfold magBits withSign
  cases n <;> simp only [Bool.false_eq_true, ↓reduceIte, BitVec.toNat_ofNat] <;> omega

theorem isNeg_iff (a : Word) : isNeg a = true ↔ 2 ^ 31 ≤ a.toNat := by
  unfold isNeg
  rw [← BitVec.msb_eq_getLsbD_last (x := a), BitVec.msb_eq_decide]
  simp

@[simp] theorem isNeg_withSign (n : Bool) (m : Nat) (h : m < 2 ^ 31) :
    isNeg (withSign n m) = n := by
  rw [Bool.eq_iff_iff, isNeg_iff]
  unfold withSign
  cases n <;> simp only [Bool.false_eq_true, ↓reduceIte, BitVec.toNat_ofNat, iff_false, iff_true] <;> omega

/-- A word is its sign and its magnitude pattern. -/
theorem withSign_eq (a : Word) : withSign (isNeg a) (magBits a) = a := by
  apply BitVec.eq_of_toNat_eq
  have h := isNeg_iff a
  have hl := a.isLt
  unfold withSign magBits
  rw [BitVec.toNat_ofNat]
  cases hn : isNeg a <;> simp only [hn, Bool.false_eq_true, false_iff, true_iff, ↓reduceIte] at h ⊢ <;> omega

theorem word_eq_of {a b : Word} (hs : isNeg a = isNeg b) (hm : magBits a = magBits b) : a = b := by
  rw [← withSign_eq a, ← withSign_eq b, hs, hm]

@[simp] theorem magBits_fneg (a : Word) : magBits (fneg a) = magBits a := by
  unfold magBits fneg
  rw [BitVec.toNat_xor]
  apply Nat.eq_of_testBit_eq
  intro i
  simp only [Nat.testBit_mod_two_pow, Nat.testBit_xor]
  by_cases h : i < 31
  · have : (0x80000000#32).toNat.testBit i = false := by
      rw [show (0x80000000#32).toNat = 2 ^ 31 from rfl, Nat.testBit_two_pow_of_ne (by omega)]
    simp only [h, decide_true, Bool.true_and]
    rw [show BitVec.toNat (2147483648 : Word) = (0x80000000#32).toNat from rfl, this, Bool.xor_false]
  · simp [h]

@[simp] theorem isNeg_fneg (a : Word) : isNeg (fneg a) = !isNeg a := by
  unfold isNeg fneg
  rw [BitVec.getLsbD_xor]
  rw [show (2147483648 : Word).getLsbD 31 = true from rfl, Bool.xor_true]

@[simp] theorem magBits_fabs (a : Word) : magBits (fabs a) = magBits a := by
  unfold magBits fabs
  rw [BitVec.toNat_and]
  rw [show BitVec.toNat (2147483647 : Word) = 2 ^ 31 - 1 from rfl, Nat.and_two_pow_sub_one_eq_mod,
    Nat.mod_mod]

@[simp] theorem isNeg_fabs (a : Word) : isNeg (fabs a) = false := by
  unfold isNeg fabs
  rw [BitVec.getLsbD_and]
  rw [show (2147483647 : Word).getLsbD 31 = false from rfl, Bool.and_false]

@[simp] theorem isNaN_fneg (a : Word) : isNaN (fneg a) = isNaN a := by
  simp [isNaN, expField, fracField]

@[simp] theorem isInf_fneg (a : Word) : isInf (fneg a) = isInf a := by
  simp [isInf, expField, fracField]

@[simp] theorem isFinite_fneg (a : Word) : isFinite (fneg a) = isFinite a := by
  simp [isFinite, expField]

@[simp] theorem isNaN_fabs (a : Word) : isNaN (fabs a) = isNaN a := by
  simp [isNaN, expField, fracField]

@[simp] theorem isFinite_fabs (a : Word) : isFinite (fabs a) = isFinite a := by
  simp [isFinite, expField]

@[simp] theorem magUnits_fneg (a : Word) : magUnits (fneg a) = magUnits a := by
  simp [magUnits, expField, fracField]

@[simp] theorem units_fneg (a : Word) : units (fneg a) = -units a := by
  unfold units
  cases h : isNeg a <;> simp [h]

/-! ## NaN draws (R16) -/

theorem isNaN_nanPattern (d : Bool × Fin 8388607) : isNaN (nanPattern d) = true := by
  have h : infBits + (d.2.val + 1) < 2 ^ 31 := by
    have := d.2.isLt
    unfold infBits
    omega
  rw [isNaN_iff, nanPattern, magBits_withSign _ _ h]
  omega

@[simp] theorem isNaN_nan (s : State) (k : Nat) : isNaN (s.nan k) = true := isNaN_nanPattern _

/-- Every binary32 NaN is the pattern of a draw. -/
theorem nanPattern_surjective (a : Word) (h : isNaN a = true) : ∃ d, nanPattern d = a := by
  have h1 := (isNaN_iff a).1 h
  have h2 := magBits_lt a
  unfold infBits at h1
  refine ⟨(isNeg a, ⟨magBits a - infBits - 1, ?_⟩), ?_⟩
  · unfold infBits; omega
  · have hm : infBits + (magBits a - infBits - 1 + 1) = magBits a := by unfold infBits; omega
    simp only [nanPattern, hm, withSign_eq]

/-! ## Rounding (R11) -/

theorem roundDiv_le {num den m : Nat} (hd : 0 < den) (h : num ≤ m * den) : roundDiv num den ≤ m := by
  have hq : num / den ≤ m := by
    rw [Nat.div_le_iff_le_mul_add_pred hd]
    calc num ≤ m * den := h
      _ ≤ den * m + (den - 1) := by rw [Nat.mul_comm]; omega
  have hdm := Nat.div_add_mod num den
  have hr := Nat.mod_lt num hd
  by_cases he : num / den = m
  · have hz : num % den = 0 := by
      rw [he, Nat.mul_comm] at hdm
      omega
    unfold roundDiv
    simp only [hz]
    rw [if_pos (by omega)]
    omega
  · unfold roundDiv
    simp only
    split
    · omega
    · split
      · have := Nat.mod_lt (num / den) (show 0 < 2 by decide)
        omega
      · omega

theorem le_roundDiv {num den m : Nat} (hd : 0 < den) (h : m * den ≤ num) : m ≤ roundDiv num den := by
  have hq : m ≤ num / den := (Nat.le_div_iff_mul_le hd).2 h
  unfold roundDiv
  simp only
  split
  · omega
  · split <;> omega

/-- An exact quotient is not changed by rounding. -/
theorem roundDiv_exact {den m : Nat} (hd : 0 < den) : roundDiv (m * den) den = m :=
  Nat.le_antisymm (roundDiv_le hd (Nat.le_refl _)) (le_roundDiv hd (Nat.le_refl _))

/-- A magnitude of `m` units is a pattern: `k` is its unit in the last place and `c` its
significand. -/
theorem magUnits_eq (a : Word) :
    ∃ k c, magUnits a = c * 2 ^ k ∧ magBits a = k * 2 ^ 23 + c ∧ c < 2 ^ 24 ∧
      (k = 0 ∨ 2 ^ 23 ≤ c) := by
  have hm : magBits a = 2 ^ 23 * expField a + fracField a := (Nat.div_add_mod _ _).symm
  have hf : fracField a < 2 ^ 23 := Nat.mod_lt _ (by decide)
  unfold magUnits
  by_cases he : expField a = 0
  · refine ⟨0, fracField a, by simp [he], by rw [hm, he]; simp, by omega, Or.inl rfl⟩
  · refine ⟨expField a - 1, 2 ^ 23 + fracField a, by simp [he], ?_, by omega, Or.inr (by omega)⟩
    rw [hm]
    omega

theorem roundMag_le_inf (num den : Nat) : roundMag num den ≤ infBits := Nat.min_le_right _ _

theorem roundMag_lt (num den : Nat) : roundMag num den < 2 ^ 31 :=
  Nat.lt_of_le_of_lt (roundMag_le_inf num den) (by decide)

/-- Where the quotient lies against the unit in the last place that rounding chooses. -/
theorem log2_quotient {q : Nat} (h : 2 ^ 24 ≤ q) :
    2 ^ 23 * 2 ^ (q.log2 - 23) ≤ q ∧ q < 2 ^ 24 * 2 ^ (q.log2 - 23) := by
  have hq : q ≠ 0 := by omega
  have h1 : 2 ^ q.log2 ≤ q := Nat.log2_self_le hq
  have h2 : q < 2 ^ (q.log2 + 1) := Nat.lt_log2_self
  have h3 : 24 ≤ q.log2 := (Nat.le_log2 hq).2 h
  rw [← pow_add, ← pow_add, show 23 + (q.log2 - 23) = q.log2 by omega,
    show 24 + (q.log2 - 23) = q.log2 + 1 by omega]
  exact ⟨h1, h2⟩

theorem log2_small {q : Nat} (h : q < 2 ^ 24) : q.log2 - 23 = 0 := by
  by_cases hq : q = 0
  · subst hq; rfl
  · have : q.log2 < 24 := (Nat.log2_lt hq).2 h
    omega

/-- Rounding does not pass a binary32 value: a quotient that is at most `a`'s magnitude rounds to
at most `a`'s pattern. -/
theorem roundMag_le {num den : Nat} (hd : 0 < den) (a : Word)
    (h : num ≤ magUnits a * den) : roundMag num den ≤ magBits a := by
  obtain ⟨k, c, hu, hb, hc, hk⟩ := magUnits_eq a
  rw [hb]
  unfold roundMag
  refine Nat.le_trans (Nat.min_le_left _ _) ?_
  generalize hq : num / den = q
  rw [hu] at h
  have hqle : q ≤ c * 2 ^ k := by
    rw [← hq, Nat.div_le_iff_le_mul_add_pred hd]
    calc num ≤ c * 2 ^ k * den := h
      _ ≤ den * (c * 2 ^ k) + (den - 1) := by rw [Nat.mul_comm]; omega
  by_cases hbig : 2 ^ 24 ≤ q
  · obtain ⟨hlo, hhi⟩ := log2_quotient hbig
    generalize q.log2 - 23 = j at hlo hhi ⊢
    have hj : j ≤ k := by
      by_contra hcon
      have h1 : 2 ^ (k + 1) ≤ 2 ^ j := Nat.pow_le_pow_right (by decide) (by omega)
      have h2 : 2 ^ 23 * 2 ^ (k + 1) ≤ c * 2 ^ k := by
        calc 2 ^ 23 * 2 ^ (k + 1) ≤ 2 ^ 23 * 2 ^ j := Nat.mul_le_mul_left _ h1
          _ ≤ q := hlo
          _ ≤ c * 2 ^ k := hqle
      rw [show 2 ^ 23 * 2 ^ (k + 1) = 2 ^ 24 * 2 ^ k by rw [pow_succ]; ring] at h2
      have := Nat.le_of_mul_le_mul_right h2 (by positivity)
      omega
    have hdj : 0 < den * 2 ^ j := by positivity
    rcases Nat.lt_or_ge j k with hlt | hge
    · have hr : roundDiv num (den * 2 ^ j) ≤ 2 ^ 24 := by
        apply roundDiv_le hdj
        have : num < den * (q + 1) := by
          rw [← hq]; exact Nat.lt_mul_div_succ num hd
        have h3 : q + 1 ≤ 2 ^ 24 * 2 ^ j := hhi
        calc num ≤ den * (q + 1) := Nat.le_of_lt this
          _ ≤ den * (2 ^ 24 * 2 ^ j) := Nat.mul_le_mul_left _ h3
          _ = 2 ^ 24 * (den * 2 ^ j) := by ring
      have : 2 ^ 23 ≤ c := by omega
      have : (j + 1) * 2 ^ 23 ≤ k * 2 ^ 23 := Nat.mul_le_mul_right _ hlt
      omega
    · have hjk : j = k := by omega
      subst hjk
      have hr : roundDiv num (den * 2 ^ j) ≤ c := by
        apply roundDiv_le hdj
        calc num ≤ c * 2 ^ j * den := h
          _ = c * (den * 2 ^ j) := by ring
      omega
  · rw [log2_small (by omega)]
    simp only [pow_zero, Nat.mul_one, Nat.zero_mul, Nat.zero_add]
    have hlt : num < den * (q + 1) := by
      rw [← hq]; exact Nat.lt_mul_div_succ num hd
    rcases Nat.eq_zero_or_pos k with hk0 | hkp
    · subst hk0
      have : roundDiv num den ≤ c := by
        apply roundDiv_le hd
        simpa using h
      omega
    · have : roundDiv num den ≤ 2 ^ 24 := by
        apply roundDiv_le hd
        calc num ≤ den * (q + 1) := Nat.le_of_lt hlt
          _ ≤ den * 2 ^ 24 := Nat.mul_le_mul_left _ (by omega)
          _ = 2 ^ 24 * den := Nat.mul_comm _ _
      have h23 : 2 ^ 23 ≤ c := by omega
      have : 1 * 2 ^ 23 ≤ k * 2 ^ 23 := Nat.mul_le_mul_right _ hkp
      omega

/-- Rounding does not pass a binary32 value from above: a quotient that is at least `a`'s magnitude
rounds to at least `a`'s pattern. -/
theorem le_roundMag {num den : Nat} (hd : 0 < den) (a : Word) (hf : magBits a < infBits)
    (h : magUnits a * den ≤ num) : magBits a ≤ roundMag num den := by
  obtain ⟨k, c, hu, hb, hc, hk⟩ := magUnits_eq a
  unfold roundMag
  simp only
  refine Nat.le_min.2 ⟨?_, Nat.le_of_lt hf⟩
  rw [hb]
  generalize hq : num / den = q
  rw [hu] at h
  have hqge : c * 2 ^ k ≤ q := by
    rw [← hq]; exact (Nat.le_div_iff_mul_le hd).2 h
  by_cases hbig : 2 ^ 24 ≤ q
  · obtain ⟨hlo, hhi⟩ := log2_quotient hbig
    generalize q.log2 - 23 = j at hlo hhi ⊢
    have hdj : 0 < den * 2 ^ j := by positivity
    have hqn : q * den ≤ num := by
      rw [← hq]; exact Nat.div_mul_le_self num den
    have hr : 2 ^ 23 ≤ roundDiv num (den * 2 ^ j) := by
      apply le_roundDiv hdj
      calc 2 ^ 23 * (den * 2 ^ j) = 2 ^ 23 * 2 ^ j * den := by ring
        _ ≤ q * den := Nat.mul_le_mul_right _ hlo
        _ ≤ num := hqn
    rcases Nat.lt_trichotomy k j with hlt | heq | hgt
    · have : (k + 1) * 2 ^ 23 ≤ j * 2 ^ 23 := Nat.mul_le_mul_right _ hlt
      omega
    · subst heq
      have : c ≤ roundDiv num (den * 2 ^ k) := by
        apply le_roundDiv hdj
        calc c * (den * 2 ^ k) = c * 2 ^ k * den := by ring
          _ ≤ num := h
      omega
    · exfalso
      have h23 : 2 ^ 23 ≤ c := by omega
      have h1 : 2 ^ (j + 1) ≤ 2 ^ k := Nat.pow_le_pow_right (by decide) hgt
      have : 2 ^ 24 * 2 ^ j ≤ q := by
        calc 2 ^ 24 * 2 ^ j = 2 ^ 23 * 2 ^ (j + 1) := by rw [pow_succ]; ring
          _ ≤ c * 2 ^ k := Nat.mul_le_mul h23 h1
          _ ≤ q := hqge
      omega
  · rw [log2_small (by omega)]
    simp only [pow_zero, Nat.mul_one, Nat.zero_mul, Nat.zero_add]
    have hk0 : k = 0 := by
      by_contra hcon
      have h23 : 2 ^ 23 ≤ c := by omega
      have h1 : 2 ^ 1 ≤ 2 ^ k := Nat.pow_le_pow_right (by decide) (by omega)
      have : 2 ^ 23 * 2 ^ 1 ≤ c * 2 ^ k := Nat.mul_le_mul h23 h1
      omega
    subst hk0
    have : c ≤ roundDiv num den := by
      apply le_roundDiv hd
      simpa using h
    omega

/-- A binary32 value rounds to itself. -/
theorem roundMag_magUnits (a : Word) (hf : magBits a < infBits) :
    roundMag (magUnits a) 1 = magBits a :=
  Nat.le_antisymm (roundMag_le (by decide) a (by simp)) (le_roundMag (by decide) a hf (by simp))

/-! ## The primitives (R11, R12) -/

/-- A NaN operand gives the NaN. -/
theorem fadd_nan {n a b : Word} (h : isNaN a = true ∨ isNaN b = true) : fadd n a b = n := by
  unfold fadd; rcases h with h | h <;> simp [h]

theorem fsub_nan {n a b : Word} (h : isNaN a = true ∨ isNaN b = true) : fsub n a b = n := by
  apply fadd_nan; simpa using h

theorem fmul_nan {n a b : Word} (h : isNaN a = true ∨ isNaN b = true) : fmul n a b = n := by
  unfold fmul; rcases h with h | h <;> simp [h]

theorem fdiv_nan {n a b : Word} (h : isNaN a = true ∨ isNaN b = true) : fdiv n a b = n := by
  unfold fdiv; rcases h with h | h <;> simp [h]

/-- The sum of finite values. -/
theorem fadd_finite {n a b : Word} (ha : isFinite a = true) (hb : isFinite b = true) :
    fadd n a b =
      if units a + units b = 0 then (if isNeg a && isNeg b then negZero else posZero)
      else roundUnits (units a + units b) := by
  unfold fadd
  simp [isNaN_of_isFinite ha, isNaN_of_isFinite hb, isInf_of_isFinite ha, isInf_of_isFinite hb]

/-- The product of finite values. -/
theorem fmul_finite {n a b : Word} (ha : isFinite a = true) (hb : isFinite b = true) :
    fmul n a b =
      withSign (isNeg a != isNeg b) (roundMag (magUnits a * magUnits b) (2 ^ 149)) := by
  unfold fmul
  simp [isNaN_of_isFinite ha, isNaN_of_isFinite hb, isInf_of_isFinite ha, isInf_of_isFinite hb]

/-- The quotient of finite values whose divisor is not 0. -/
theorem fdiv_finite {n a b : Word} (ha : isFinite a = true) (hb : isFinite b = true)
    (hz : isZero b = false) :
    fdiv n a b =
      withSign (isNeg a != isNeg b) (roundMag (magUnits a * 2 ^ 149) (magUnits b)) := by
  unfold fdiv
  simp [isNaN_of_isFinite ha, isNaN_of_isFinite hb, isInf_of_isFinite ha, isInf_of_isFinite hb, hz]

/-- `a <= b` for values that are not NaN. -/
theorem fle_iff {a b : Word} :
    fle a b = true ↔ isNaN a = false ∧ isNaN b = false ∧ orderKey a ≤ orderKey b := by
  simp [fle, and_assoc]

/-- `a < b` for values that are not NaN. -/
theorem flt_iff {a b : Word} :
    flt a b = true ↔ isNaN a = false ∧ isNaN b = false ∧ orderKey a < orderKey b := by
  simp [flt, and_assoc]

/-- Of two values that are not NaN, one is below the other or it is not. -/
theorem flt_eq_not_fle {a b : Word} (ha : isNaN a = false) (hb : isNaN b = false) :
    flt a b = !fle b a := by
  simp only [flt, fle, ha, hb, Bool.not_false, Bool.true_and]
  rw [← decide_not]
  congr 1
  rw [eq_iff_iff]
  omega

theorem fle_trans {a b c : Word} (h1 : fle a b = true) (h2 : fle b c = true) : fle a c = true := by
  rw [fle_iff] at *
  exact ⟨h1.1, h2.2.1, by omega⟩

/-- The floor of the limiter's envelope (R13): never below 1.0. -/
theorem floorOne_not_below (e : Word) : flt (floorOne e) one = false := by
  unfold floorOne
  split
  · decide
  · rename_i h
    exact Bool.eq_false_iff.2 h

end Sys2Proof.Machine
end

