-- ==== Sys2Proof/Laws/Decode.lean ====
section
/-! SUPPORT. The fields of a packed command word (R82), and a command word from its fields. -/

namespace Sys2Proof

@[simp] theorem opField_packWord (op : BitVec 6) (u : UnitIx) (m : Imm) :
    opField (packWord op u m) = op := by
  apply BitVec.eq_of_getLsbD_eq
  intro i hi
  simp only [opField, packWord, BitVec.getLsbD_extractLsb', BitVec.getLsbD_append]
  have h : 26 + i - 12 - 4 - 10 = i := by omega
  simp [hi, h, show ¬ 26 + i < 12 by omega, show ¬ 26 + i - 12 < 4 by omega,
    show ¬ 26 + i - 12 - 4 < 10 by omega]

@[simp] theorem unitField_packWord (op : BitVec 6) (u : UnitIx) (m : Imm) :
    unitField (packWord op u m) = u := by
  apply BitVec.eq_of_getLsbD_eq
  intro i hi
  simp only [unitField, packWord, BitVec.getLsbD_extractLsb', BitVec.getLsbD_append]
  have h : 16 + i - 12 - 4 = i := by omega
  simp [hi, h, show ¬ 16 + i < 12 by omega, show ¬ 16 + i - 12 < 4 by omega]

@[simp] theorem rsvField_packWord (op : BitVec 6) (u : UnitIx) (m : Imm) :
    rsvField (packWord op u m) = 0 := by
  apply BitVec.eq_of_getLsbD_eq
  intro i hi
  simp only [rsvField, packWord, BitVec.getLsbD_extractLsb', BitVec.getLsbD_append]
  simp [hi, show ¬ 12 + i < 12 by omega]

@[simp] theorem immField_packWord (op : BitVec 6) (u : UnitIx) (m : Imm) :
    immField (packWord op u m) = m := by
  apply BitVec.eq_of_getLsbD_eq
  intro i hi
  simp only [immField, packWord, BitVec.getLsbD_extractLsb', BitVec.getLsbD_append]
  simp [hi]

/-- A word whose RSV is 0 is packed from its other fields. -/
theorem packWord_fields (w : Word) (h : rsvField w = 0) :
    packWord (opField w) (unitField w) (immField w) = w := by
  have e : w = opField w ++ unitField w ++ rsvField w ++ immField w := by
    apply BitVec.eq_of_getLsbD_eq
    intro i hi
    simp only [opField, unitField, rsvField, immField, BitVec.getLsbD_append,
      BitVec.getLsbD_extractLsb']
    split
    · simp_all
    · split
      · have : 12 + (i - 12) = i := by omega
        simp_all
      · split
        · have : 16 + (i - 12 - 4) = i := by omega
          simp_all
        · have : 26 + (i - 12 - 4 - 10) = i := by omega
          have : i - 12 - 4 - 10 < 6 := by omega
          simp_all
  rw [h] at e
  exact e.symm

/-- Two words with the same four fields are equal. -/
theorem word_ext {w x : Word} (ho : opField w = opField x) (hu : unitField w = unitField x)
    (hr : rsvField w = rsvField x) (hm : immField w = immField x) : w = x := by
  apply BitVec.eq_of_getLsbD_eq
  intro i hi
  have key : ∀ (start len : Nat), start ≤ i → i - start < len →
      w.extractLsb' start len = x.extractLsb' start len → w.getLsbD i = x.getLsbD i := by
    intro start len h1 h2 h3
    have := congrArg (·.getLsbD (i - start)) h3
    simp only [BitVec.getLsbD_extractLsb', h2, decide_true, Bool.true_and] at this
    rwa [show start + (i - start) = i by omega] at this
  by_cases h1 : i < 12
  · exact key 0 12 (by omega) (by omega) hm
  by_cases h2 : i < 16
  · exact key 12 4 (by omega) (by omega) hr
  by_cases h3 : i < 26
  · exact key 16 10 (by omega) (by omega) hu
  · exact key 26 6 (by omega) (by omega) ho

/-! ## Masking a word masks each of its fields -/

theorem opField_and (w x : Word) : opField (w &&& x) = opField w &&& opField x :=
  BitVec.extractLsb'_and

theorem unitField_and (w x : Word) : unitField (w &&& x) = unitField w &&& unitField x :=
  BitVec.extractLsb'_and

theorem rsvField_and (w x : Word) : rsvField (w &&& x) = rsvField w &&& rsvField x :=
  BitVec.extractLsb'_and

theorem immField_and (w x : Word) : immField (w &&& x) = immField w &&& immField x :=
  BitVec.extractLsb'_and

/-- Two words are equal exactly when their four fields are. -/
theorem word_eq_iff (w x : Word) :
    w = x ↔ opField w = opField x ∧ unitField w = unitField x ∧ rsvField w = rsvField x ∧
      immField w = immField x :=
  ⟨fun h => by simp [h], fun h => word_ext h.1 h.2.1 h.2.2.1 h.2.2.2⟩

/-- The masks of R86 keep OP whole. -/
theorem opField_ones (x : BitVec 6) : x &&& 0x3F#6 = x := by revert x; decide

/-- The masks of R86 keep UNIT whole or drop it. -/
theorem unitField_ones (x : UnitIx) : x &&& 0x3FF#10 = x := BitVec.and_allOnes

/-- The masks of R86 keep IMM whole, drop it, or drop its bit 0. -/
theorem immField_ones (x : Imm) : x &&& 0xFFF#12 = x := BitVec.and_allOnes

/-- What a field check answers. -/
theorem fieldCheck_instr {w : Word} {ok : Bool} {i j : Instr} :
    fieldCheck w ok i = .instr j ↔ ok = true ∧ i = j := by
  unfold fieldCheck
  split <;> simp_all

@[simp] theorem modeOfBit_modeImm (m : EnvMode) : modeOfBit (modeImm m)[0] = m := by
  cases m <;> rfl

@[simp] theorem modeImm_high (m : EnvMode) : (modeImm m).extractLsb' 1 11 = 0 := by
  cases m <;> rfl

end Sys2Proof
end

