-- ==== Sys2Proof/Laws/State.lean ====
section
/-! SUPPORT. The small lemmas of State: for each update, what each field of the state is after it.
All are true by unfolding one definition, so that no later proof unfolds a record update. -/

namespace Sys2Proof.Machine

section setGate

variable (s : State) (g : UnitIx) (u : GateUnit)

@[simp] theorem setGate_params : (s.setGate g u).params = s.params := rfl
@[simp] theorem setGate_gates : (s.setGate g u).gates = s.gates.set g.toNat u := rfl
@[simp] theorem setGate_envs : (s.setGate g u).envs = s.envs := rfl
@[simp] theorem setGate_lpfs : (s.setGate g u).lpfs = s.lpfs := rfl
@[simp] theorem setGate_hpfs : (s.setGate g u).hpfs = s.hpfs := rfl
@[simp] theorem setGate_acc : (s.setGate g u).acc = s.acc := rfl
@[simp] theorem setGate_dcAvg : (s.setGate g u).dcAvg = s.dcAvg := rfl
@[simp] theorem setGate_limEnv : (s.setGate g u).limEnv = s.limEnv := rfl
@[simp] theorem setGate_voices : (s.setGate g u).voices = s.voices := rfl
@[simp] theorem setGate_pwq : (s.setGate g u).pwq = s.pwq := rfl
@[simp] theorem setGate_fault : (s.setGate g u).fault = s.fault := rfl
@[simp] theorem setGate_cause : (s.setGate g u).cause = s.cause := rfl
@[simp] theorem setGate_finfo : (s.setGate g u).finfo = s.finfo := rfl
@[simp] theorem setGate_faux : (s.setGate g u).faux = s.faux := rfl
@[simp] theorem setGate_fie : (s.setGate g u).fie = s.fie := rfl
@[simp] theorem setGate_srate : (s.setGate g u).srate = s.srate := rfl
@[simp] theorem setGate_speriod : (s.setGate g u).speriod = s.speriod := rfl
@[simp] theorem setGate_dcK : (s.setGate g u).dcK = s.dcK := rfl
@[simp] theorem setGate_limCA : (s.setGate g u).limCA = s.limCA := rfl
@[simp] theorem setGate_limCR : (s.setGate g u).limCR = s.limCR := rfl
@[simp] theorem setGate_rsp : (s.setGate g u).rsp = s.rsp := rfl
@[simp] theorem setGate_cmdPort : (s.setGate g u).cmdPort = s.cmdPort := rfl
@[simp] theorem setGate_pwPort : (s.setGate g u).pwPort = s.pwPort := rfl
@[simp] theorem setGate_sched : (s.setGate g u).sched = s.sched := rfl
@[simp] theorem setGate_nanDraws : (s.setGate g u).nanDraws = s.nanDraws := rfl

end setGate

section setEnv

variable (s : State) (e : UnitIx) (u : EnvUnit)

@[simp] theorem setEnv_params : (s.setEnv e u).params = s.params := rfl
@[simp] theorem setEnv_gates : (s.setEnv e u).gates = s.gates := rfl
@[simp] theorem setEnv_envs : (s.setEnv e u).envs = s.envs.set e.toNat u := rfl
@[simp] theorem setEnv_lpfs : (s.setEnv e u).lpfs = s.lpfs := rfl
@[simp] theorem setEnv_hpfs : (s.setEnv e u).hpfs = s.hpfs := rfl
@[simp] theorem setEnv_acc : (s.setEnv e u).acc = s.acc := rfl
@[simp] theorem setEnv_dcAvg : (s.setEnv e u).dcAvg = s.dcAvg := rfl
@[simp] theorem setEnv_limEnv : (s.setEnv e u).limEnv = s.limEnv := rfl
@[simp] theorem setEnv_voices : (s.setEnv e u).voices = s.voices := rfl
@[simp] theorem setEnv_pwq : (s.setEnv e u).pwq = s.pwq := rfl
@[simp] theorem setEnv_fault : (s.setEnv e u).fault = s.fault := rfl
@[simp] theorem setEnv_cause : (s.setEnv e u).cause = s.cause := rfl
@[simp] theorem setEnv_finfo : (s.setEnv e u).finfo = s.finfo := rfl
@[simp] theorem setEnv_faux : (s.setEnv e u).faux = s.faux := rfl
@[simp] theorem setEnv_fie : (s.setEnv e u).fie = s.fie := rfl
@[simp] theorem setEnv_srate : (s.setEnv e u).srate = s.srate := rfl
@[simp] theorem setEnv_speriod : (s.setEnv e u).speriod = s.speriod := rfl
@[simp] theorem setEnv_dcK : (s.setEnv e u).dcK = s.dcK := rfl
@[simp] theorem setEnv_limCA : (s.setEnv e u).limCA = s.limCA := rfl
@[simp] theorem setEnv_limCR : (s.setEnv e u).limCR = s.limCR := rfl
@[simp] theorem setEnv_rsp : (s.setEnv e u).rsp = s.rsp := rfl
@[simp] theorem setEnv_cmdPort : (s.setEnv e u).cmdPort = s.cmdPort := rfl
@[simp] theorem setEnv_pwPort : (s.setEnv e u).pwPort = s.pwPort := rfl
@[simp] theorem setEnv_sched : (s.setEnv e u).sched = s.sched := rfl
@[simp] theorem setEnv_nanDraws : (s.setEnv e u).nanDraws = s.nanDraws := rfl

end setEnv

section setLpf

variable (s : State) (f : UnitIx) (x : Word)

@[simp] theorem setLpf_params : (s.setLpf f x).params = s.params := rfl
@[simp] theorem setLpf_gates : (s.setLpf f x).gates = s.gates := rfl
@[simp] theorem setLpf_envs : (s.setLpf f x).envs = s.envs := rfl
@[simp] theorem setLpf_lpfs : (s.setLpf f x).lpfs = s.lpfs.set f.toNat x := rfl
@[simp] theorem setLpf_hpfs : (s.setLpf f x).hpfs = s.hpfs := rfl
@[simp] theorem setLpf_acc : (s.setLpf f x).acc = s.acc := rfl
@[simp] theorem setLpf_dcAvg : (s.setLpf f x).dcAvg = s.dcAvg := rfl
@[simp] theorem setLpf_limEnv : (s.setLpf f x).limEnv = s.limEnv := rfl
@[simp] theorem setLpf_voices : (s.setLpf f x).voices = s.voices := rfl
@[simp] theorem setLpf_pwq : (s.setLpf f x).pwq = s.pwq := rfl
@[simp] theorem setLpf_fault : (s.setLpf f x).fault = s.fault := rfl
@[simp] theorem setLpf_cause : (s.setLpf f x).cause = s.cause := rfl
@[simp] theorem setLpf_finfo : (s.setLpf f x).finfo = s.finfo := rfl
@[simp] theorem setLpf_faux : (s.setLpf f x).faux = s.faux := rfl
@[simp] theorem setLpf_fie : (s.setLpf f x).fie = s.fie := rfl
@[simp] theorem setLpf_srate : (s.setLpf f x).srate = s.srate := rfl
@[simp] theorem setLpf_speriod : (s.setLpf f x).speriod = s.speriod := rfl
@[simp] theorem setLpf_dcK : (s.setLpf f x).dcK = s.dcK := rfl
@[simp] theorem setLpf_limCA : (s.setLpf f x).limCA = s.limCA := rfl
@[simp] theorem setLpf_limCR : (s.setLpf f x).limCR = s.limCR := rfl
@[simp] theorem setLpf_rsp : (s.setLpf f x).rsp = s.rsp := rfl
@[simp] theorem setLpf_cmdPort : (s.setLpf f x).cmdPort = s.cmdPort := rfl
@[simp] theorem setLpf_pwPort : (s.setLpf f x).pwPort = s.pwPort := rfl
@[simp] theorem setLpf_sched : (s.setLpf f x).sched = s.sched := rfl
@[simp] theorem setLpf_nanDraws : (s.setLpf f x).nanDraws = s.nanDraws := rfl

end setLpf

section setHpf

variable (s : State) (h : UnitIx) (x : Word)

@[simp] theorem setHpf_params : (s.setHpf h x).params = s.params := rfl
@[simp] theorem setHpf_gates : (s.setHpf h x).gates = s.gates := rfl
@[simp] theorem setHpf_envs : (s.setHpf h x).envs = s.envs := rfl
@[simp] theorem setHpf_lpfs : (s.setHpf h x).lpfs = s.lpfs := rfl
@[simp] theorem setHpf_hpfs : (s.setHpf h x).hpfs = s.hpfs.set h.toNat x := rfl
@[simp] theorem setHpf_acc : (s.setHpf h x).acc = s.acc := rfl
@[simp] theorem setHpf_dcAvg : (s.setHpf h x).dcAvg = s.dcAvg := rfl
@[simp] theorem setHpf_limEnv : (s.setHpf h x).limEnv = s.limEnv := rfl
@[simp] theorem setHpf_voices : (s.setHpf h x).voices = s.voices := rfl
@[simp] theorem setHpf_pwq : (s.setHpf h x).pwq = s.pwq := rfl
@[simp] theorem setHpf_fault : (s.setHpf h x).fault = s.fault := rfl
@[simp] theorem setHpf_cause : (s.setHpf h x).cause = s.cause := rfl
@[simp] theorem setHpf_finfo : (s.setHpf h x).finfo = s.finfo := rfl
@[simp] theorem setHpf_faux : (s.setHpf h x).faux = s.faux := rfl
@[simp] theorem setHpf_fie : (s.setHpf h x).fie = s.fie := rfl
@[simp] theorem setHpf_srate : (s.setHpf h x).srate = s.srate := rfl
@[simp] theorem setHpf_speriod : (s.setHpf h x).speriod = s.speriod := rfl
@[simp] theorem setHpf_dcK : (s.setHpf h x).dcK = s.dcK := rfl
@[simp] theorem setHpf_limCA : (s.setHpf h x).limCA = s.limCA := rfl
@[simp] theorem setHpf_limCR : (s.setHpf h x).limCR = s.limCR := rfl
@[simp] theorem setHpf_rsp : (s.setHpf h x).rsp = s.rsp := rfl
@[simp] theorem setHpf_cmdPort : (s.setHpf h x).cmdPort = s.cmdPort := rfl
@[simp] theorem setHpf_pwPort : (s.setHpf h x).pwPort = s.pwPort := rfl
@[simp] theorem setHpf_sched : (s.setHpf h x).sched = s.sched := rfl
@[simp] theorem setHpf_nanDraws : (s.setHpf h x).nanDraws = s.nanDraws := rfl

end setHpf

section setVoice

variable (s : State) (v : UnitIx) (x : Voice)

@[simp] theorem setVoice_params : (s.setVoice v x).params = s.params := rfl
@[simp] theorem setVoice_gates : (s.setVoice v x).gates = s.gates := rfl
@[simp] theorem setVoice_envs : (s.setVoice v x).envs = s.envs := rfl
@[simp] theorem setVoice_lpfs : (s.setVoice v x).lpfs = s.lpfs := rfl
@[simp] theorem setVoice_hpfs : (s.setVoice v x).hpfs = s.hpfs := rfl
@[simp] theorem setVoice_acc : (s.setVoice v x).acc = s.acc := rfl
@[simp] theorem setVoice_dcAvg : (s.setVoice v x).dcAvg = s.dcAvg := rfl
@[simp] theorem setVoice_limEnv : (s.setVoice v x).limEnv = s.limEnv := rfl
@[simp] theorem setVoice_voices : (s.setVoice v x).voices = s.voices.set v.toNat x := rfl
@[simp] theorem setVoice_pwq : (s.setVoice v x).pwq = s.pwq := rfl
@[simp] theorem setVoice_fault : (s.setVoice v x).fault = s.fault := rfl
@[simp] theorem setVoice_cause : (s.setVoice v x).cause = s.cause := rfl
@[simp] theorem setVoice_finfo : (s.setVoice v x).finfo = s.finfo := rfl
@[simp] theorem setVoice_faux : (s.setVoice v x).faux = s.faux := rfl
@[simp] theorem setVoice_fie : (s.setVoice v x).fie = s.fie := rfl
@[simp] theorem setVoice_srate : (s.setVoice v x).srate = s.srate := rfl
@[simp] theorem setVoice_speriod : (s.setVoice v x).speriod = s.speriod := rfl
@[simp] theorem setVoice_dcK : (s.setVoice v x).dcK = s.dcK := rfl
@[simp] theorem setVoice_limCA : (s.setVoice v x).limCA = s.limCA := rfl
@[simp] theorem setVoice_limCR : (s.setVoice v x).limCR = s.limCR := rfl
@[simp] theorem setVoice_rsp : (s.setVoice v x).rsp = s.rsp := rfl
@[simp] theorem setVoice_cmdPort : (s.setVoice v x).cmdPort = s.cmdPort := rfl
@[simp] theorem setVoice_pwPort : (s.setVoice v x).pwPort = s.pwPort := rfl
@[simp] theorem setVoice_sched : (s.setVoice v x).sched = s.sched := rfl
@[simp] theorem setVoice_nanDraws : (s.setVoice v x).nanDraws = s.nanDraws := rfl

end setVoice

section respond

variable (s : State) (d : Word)

@[simp] theorem respond_params : (s.respond d).params = s.params := rfl
@[simp] theorem respond_gates : (s.respond d).gates = s.gates := rfl
@[simp] theorem respond_envs : (s.respond d).envs = s.envs := rfl
@[simp] theorem respond_lpfs : (s.respond d).lpfs = s.lpfs := rfl
@[simp] theorem respond_hpfs : (s.respond d).hpfs = s.hpfs := rfl
@[simp] theorem respond_acc : (s.respond d).acc = s.acc := rfl
@[simp] theorem respond_dcAvg : (s.respond d).dcAvg = s.dcAvg := rfl
@[simp] theorem respond_limEnv : (s.respond d).limEnv = s.limEnv := rfl
@[simp] theorem respond_voices : (s.respond d).voices = s.voices := rfl
@[simp] theorem respond_pwq : (s.respond d).pwq = s.pwq := rfl
@[simp] theorem respond_fault : (s.respond d).fault = s.fault := rfl
@[simp] theorem respond_cause : (s.respond d).cause = s.cause := rfl
@[simp] theorem respond_finfo : (s.respond d).finfo = s.finfo := rfl
@[simp] theorem respond_faux : (s.respond d).faux = s.faux := rfl
@[simp] theorem respond_fie : (s.respond d).fie = s.fie := rfl
@[simp] theorem respond_srate : (s.respond d).srate = s.srate := rfl
@[simp] theorem respond_speriod : (s.respond d).speriod = s.speriod := rfl
@[simp] theorem respond_dcK : (s.respond d).dcK = s.dcK := rfl
@[simp] theorem respond_limCA : (s.respond d).limCA = s.limCA := rfl
@[simp] theorem respond_limCR : (s.respond d).limCR = s.limCR := rfl
@[simp] theorem respond_rsp : (s.respond d).rsp = some ⟨d, false⟩ := rfl
@[simp] theorem respond_cmdPort : (s.respond d).cmdPort = s.cmdPort := rfl
@[simp] theorem respond_pwPort : (s.respond d).pwPort = s.pwPort := rfl
@[simp] theorem respond_sched : (s.respond d).sched = s.sched := rfl
@[simp] theorem respond_nanDraws : (s.respond d).nanDraws = s.nanDraws := rfl

end respond

section respondError

variable (s : State)

@[simp] theorem respondError_params : s.respondError.params = s.params := rfl
@[simp] theorem respondError_gates : s.respondError.gates = s.gates := rfl
@[simp] theorem respondError_envs : s.respondError.envs = s.envs := rfl
@[simp] theorem respondError_lpfs : s.respondError.lpfs = s.lpfs := rfl
@[simp] theorem respondError_hpfs : s.respondError.hpfs = s.hpfs := rfl
@[simp] theorem respondError_acc : s.respondError.acc = s.acc := rfl
@[simp] theorem respondError_dcAvg : s.respondError.dcAvg = s.dcAvg := rfl
@[simp] theorem respondError_limEnv : s.respondError.limEnv = s.limEnv := rfl
@[simp] theorem respondError_voices : s.respondError.voices = s.voices := rfl
@[simp] theorem respondError_pwq : s.respondError.pwq = s.pwq := rfl
@[simp] theorem respondError_fault : s.respondError.fault = s.fault := rfl
@[simp] theorem respondError_cause : s.respondError.cause = s.cause := rfl
@[simp] theorem respondError_finfo : s.respondError.finfo = s.finfo := rfl
@[simp] theorem respondError_faux : s.respondError.faux = s.faux := rfl
@[simp] theorem respondError_fie : s.respondError.fie = s.fie := rfl
@[simp] theorem respondError_srate : s.respondError.srate = s.srate := rfl
@[simp] theorem respondError_speriod : s.respondError.speriod = s.speriod := rfl
@[simp] theorem respondError_dcK : s.respondError.dcK = s.dcK := rfl
@[simp] theorem respondError_limCA : s.respondError.limCA = s.limCA := rfl
@[simp] theorem respondError_limCR : s.respondError.limCR = s.limCR := rfl
@[simp] theorem respondError_rsp : s.respondError.rsp = some ⟨0x00000000, true⟩ := rfl
@[simp] theorem respondError_cmdPort : s.respondError.cmdPort = s.cmdPort := rfl
@[simp] theorem respondError_pwPort : s.respondError.pwPort = s.pwPort := rfl
@[simp] theorem respondError_sched : s.respondError.sched = s.sched := rfl
@[simp] theorem respondError_nanDraws : s.respondError.nanDraws = s.nanDraws := rfl

end respondError

section append

variable (s : State) (e : Event)

@[simp] theorem append_params : (s.append e).params = s.params := rfl
@[simp] theorem append_gates : (s.append e).gates = s.gates := rfl
@[simp] theorem append_envs : (s.append e).envs = s.envs := rfl
@[simp] theorem append_lpfs : (s.append e).lpfs = s.lpfs := rfl
@[simp] theorem append_hpfs : (s.append e).hpfs = s.hpfs := rfl
@[simp] theorem append_acc : (s.append e).acc = s.acc := rfl
@[simp] theorem append_dcAvg : (s.append e).dcAvg = s.dcAvg := rfl
@[simp] theorem append_limEnv : (s.append e).limEnv = s.limEnv := rfl
@[simp] theorem append_voices : (s.append e).voices = s.voices := rfl
@[simp] theorem append_pwq : (s.append e).pwq = s.pwq ++ [e] := rfl
@[simp] theorem append_fault : (s.append e).fault = s.fault := rfl
@[simp] theorem append_cause : (s.append e).cause = s.cause := rfl
@[simp] theorem append_finfo : (s.append e).finfo = s.finfo := rfl
@[simp] theorem append_faux : (s.append e).faux = s.faux := rfl
@[simp] theorem append_fie : (s.append e).fie = s.fie := rfl
@[simp] theorem append_srate : (s.append e).srate = s.srate := rfl
@[simp] theorem append_speriod : (s.append e).speriod = s.speriod := rfl
@[simp] theorem append_dcK : (s.append e).dcK = s.dcK := rfl
@[simp] theorem append_limCA : (s.append e).limCA = s.limCA := rfl
@[simp] theorem append_limCR : (s.append e).limCR = s.limCR := rfl
@[simp] theorem append_rsp : (s.append e).rsp = s.rsp := rfl
@[simp] theorem append_cmdPort : (s.append e).cmdPort = s.cmdPort := rfl
@[simp] theorem append_pwPort : (s.append e).pwPort = s.pwPort := rfl
@[simp] theorem append_sched : (s.append e).sched = s.sched := rfl
@[simp] theorem append_nanDraws : (s.append e).nanDraws = s.nanDraws := rfl

end append

section drew

variable (s : State) (n : Nat)

@[simp] theorem drew_params : (s.drew n).params = s.params := rfl
@[simp] theorem drew_gates : (s.drew n).gates = s.gates := rfl
@[simp] theorem drew_envs : (s.drew n).envs = s.envs := rfl
@[simp] theorem drew_lpfs : (s.drew n).lpfs = s.lpfs := rfl
@[simp] theorem drew_hpfs : (s.drew n).hpfs = s.hpfs := rfl
@[simp] theorem drew_acc : (s.drew n).acc = s.acc := rfl
@[simp] theorem drew_dcAvg : (s.drew n).dcAvg = s.dcAvg := rfl
@[simp] theorem drew_limEnv : (s.drew n).limEnv = s.limEnv := rfl
@[simp] theorem drew_voices : (s.drew n).voices = s.voices := rfl
@[simp] theorem drew_pwq : (s.drew n).pwq = s.pwq := rfl
@[simp] theorem drew_fault : (s.drew n).fault = s.fault := rfl
@[simp] theorem drew_cause : (s.drew n).cause = s.cause := rfl
@[simp] theorem drew_finfo : (s.drew n).finfo = s.finfo := rfl
@[simp] theorem drew_faux : (s.drew n).faux = s.faux := rfl
@[simp] theorem drew_fie : (s.drew n).fie = s.fie := rfl
@[simp] theorem drew_srate : (s.drew n).srate = s.srate := rfl
@[simp] theorem drew_speriod : (s.drew n).speriod = s.speriod := rfl
@[simp] theorem drew_dcK : (s.drew n).dcK = s.dcK := rfl
@[simp] theorem drew_limCA : (s.drew n).limCA = s.limCA := rfl
@[simp] theorem drew_limCR : (s.drew n).limCR = s.limCR := rfl
@[simp] theorem drew_rsp : (s.drew n).rsp = s.rsp := rfl
@[simp] theorem drew_cmdPort : (s.drew n).cmdPort = s.cmdPort := rfl
@[simp] theorem drew_pwPort : (s.drew n).pwPort = s.pwPort := rfl
@[simp] theorem drew_sched : (s.drew n).sched = s.sched := rfl
@[simp] theorem drew_nanDraws : (s.drew n).nanDraws = s.nanDraws + n := rfl

end drew

section writeSrate

variable (s : State) (a : Word)

@[simp] theorem writeSrate_params : (s.writeSrate a).params = s.params := rfl
@[simp] theorem writeSrate_gates : (s.writeSrate a).gates = s.gates := rfl
@[simp] theorem writeSrate_envs : (s.writeSrate a).envs = s.envs := rfl
@[simp] theorem writeSrate_lpfs : (s.writeSrate a).lpfs = s.lpfs := rfl
@[simp] theorem writeSrate_hpfs : (s.writeSrate a).hpfs = s.hpfs := rfl
@[simp] theorem writeSrate_acc : (s.writeSrate a).acc = s.acc := rfl
@[simp] theorem writeSrate_dcAvg : (s.writeSrate a).dcAvg = s.dcAvg := rfl
@[simp] theorem writeSrate_limEnv : (s.writeSrate a).limEnv = s.limEnv := rfl
@[simp] theorem writeSrate_voices : (s.writeSrate a).voices = s.voices := rfl
@[simp] theorem writeSrate_pwq : (s.writeSrate a).pwq = s.pwq := rfl
@[simp] theorem writeSrate_fault : (s.writeSrate a).fault = s.fault := rfl
@[simp] theorem writeSrate_cause : (s.writeSrate a).cause = s.cause := rfl
@[simp] theorem writeSrate_finfo : (s.writeSrate a).finfo = s.finfo := rfl
@[simp] theorem writeSrate_faux : (s.writeSrate a).faux = s.faux := rfl
@[simp] theorem writeSrate_fie : (s.writeSrate a).fie = s.fie := rfl
@[simp] theorem writeSrate_srate : (s.writeSrate a).srate = a := rfl
@[simp] theorem writeSrate_speriod : (s.writeSrate a).speriod = fdiv (s.nan 0) one a := rfl
@[simp] theorem writeSrate_dcK : (s.writeSrate a).dcK = fdiv (s.nan 1) half a := rfl
@[simp] theorem writeSrate_limCA : (s.writeSrate a).limCA = s.limCA := rfl
@[simp] theorem writeSrate_limCR : (s.writeSrate a).limCR = s.limCR := rfl
@[simp] theorem writeSrate_rsp : (s.writeSrate a).rsp = s.rsp := rfl
@[simp] theorem writeSrate_cmdPort : (s.writeSrate a).cmdPort = s.cmdPort := rfl
@[simp] theorem writeSrate_pwPort : (s.writeSrate a).pwPort = s.pwPort := rfl
@[simp] theorem writeSrate_sched : (s.writeSrate a).sched = s.sched := rfl
@[simp] theorem writeSrate_nanDraws : (s.writeSrate a).nanDraws = s.nanDraws + 2 := rfl

end writeSrate

end Sys2Proof.Machine
end

