-- ==== Sys2Proof/Laws/Ops.lean ====
section
/-! SUPPORT. For each shared operation, what it can do, said once: completing and faulting, the
halted block, range checks, register arrays, voice lookup, the parameter batch, and a step. -/

namespace Sys2Proof.Machine

/-! ## Completing, faulting, being discarded -/

/-- A fault taken while the block runs writes the fault registers and the error response (R262). -/
theorem takeFault_running {s : State} (h : s.fault = false) (w : Word) (c : Cause) (aux : Word) :
    s.takeFault w c aux = s.faulted w c.code aux := by
  simp [State.takeFault, State.faulted, h]

/-- A fault while halted writes nothing but the error response (R268). -/
theorem takeFault_halted {s : State} (h : s.fault = true) (w : Word) (c : Cause) (aux : Word) :
    s.takeFault w c aux = s.respondError := by
  simp [State.takeFault, h]

@[simp] theorem finish_done (w : Word) (s t : State) (d : Word) :
    finish w s (.done t d) = .next (t.respond d) := rfl

@[simp] theorem finish_raise (w : Word) (s : State) (c : Cause) (aux : Word) :
    finish w s (.raise c aux) = .next (s.takeFault w c aux) := rfl

/-- A command always answers a next state: it completes, or its fault is taken. -/
theorem finish_next {w : Word} {s t : State} {e : Effect} (h : finish w s e = .next t) :
    (∃ u d, e = .done u d ∧ t = u.respond d) ∨
      (∃ c aux, e = .raise c aux ∧ t = s.takeFault w c aux) := by
  cases e with
  | done u d =>
    left
    refine ⟨u, d, rfl, ?_⟩
    simpa using h.symm
  | raise c aux =>
    right
    refine ⟨c, aux, rfl, ?_⟩
    simpa using h.symm

theorem finish_exists_next (w : Word) (s : State) (e : Effect) : ∃ t, finish w s e = .next t := by
  cases e <;> exact ⟨_, rfl⟩

/-- While the block runs, a gated command runs (R264). -/
theorem gated_running {s : State} (h : s.fault = false) (w : Word) (e : Effect) :
    gated w s e = finish w s e := by
  simp [gated, h]

/-- While the block is halted, a gated command is discarded (R264). -/
theorem gated_halted {s : State} (h : s.fault = true) (w : Word) (e : Effect) :
    gated w s e = .next s.respondError := by
  simp [gated, h]

/-- What a gated command can do: be discarded, complete, or take its fault. -/
theorem gated_next {w : Word} {s t : State} {e : Effect} (h : gated w s e = .next t) :
    (s.fault = true ∧ t = s.respondError) ∨
      (s.fault = false ∧ ∃ u d, e = .done u d ∧ t = u.respond d) ∨
      (s.fault = false ∧ ∃ c aux, e = .raise c aux ∧ t = s.faulted w c.code aux) := by
  cases hf : s.fault with
  | true =>
    rw [gated_halted hf] at h
    left
    exact ⟨rfl, by simpa using h.symm⟩
  | false =>
    rw [gated_running hf] at h
    right
    rcases finish_next h with ⟨u, d, he, ht⟩ | ⟨c, aux, he, ht⟩
    · exact Or.inl ⟨rfl, u, d, he, ht⟩
    · rw [takeFault_running hf] at ht
      exact Or.inr ⟨rfl, c, aux, he, ht⟩

theorem gated_exists_next (w : Word) (s : State) (e : Effect) : ∃ t, gated w s e = .next t := by
  unfold gated
  split
  · exact ⟨_, rfl⟩
  · exact finish_exists_next w s e

/-- While the block runs, a command whose body completes answers its state with its response. -/
theorem gated_done {s : State} (h : s.fault = false) (w : Word) (t : State) (d : Word) :
    gated w s (.done t d) = .next (t.respond d) := by
  rw [gated_running h, finish_done]

/-- While the block runs, a command whose body raises a fault takes it. -/
theorem gated_raise {s : State} (h : s.fault = false) (w : Word) (c : Cause) (aux : Word) :
    gated w s (.raise c aux) = .next (s.faulted w c.code aux) := by
  rw [gated_running h, finish_raise, takeFault_running h]

/-- Zero extension keeps the value (R9). -/
theorem zext32_eq {n : Nat} (v : BitVec n) : zext32 v = BitVec.ofNat 32 v.toNat := by
  apply BitVec.eq_of_toNat_eq
  simp [zext32]

/-! ## Codes and the retrigger policy -/

/-- Every cause has a code of R260's table. -/
theorem code_range (c : Cause) : 0x01 ≤ c.code.toNat ∧ c.code.toNat ≤ 0x0A := by
  cases c <;> decide

/-- The numbers of R110. -/
theorem zext32_gateCode (x : GateState) :
    zext32 x.code =
      if x = .low then 0 else if x = .risingEdge then 1 else if x = .high then 2 else 3 := by
  cases x <;> rfl

/-- The numbers of R130. -/
theorem zext32_stageCode (x : Stage) :
    zext32 x.code =
      if x = .silence then 0 else if x = .attack then 1 else if x = .decay then 2
      else if x = .sustain then 3 else 4 := by
  cases x <;> rfl

/-- The whole retrigger policy of R135. -/
theorem retrigAllowed_iff (p : Params) (m : EnvMode) (x : Stage) :
    retrigAllowed p m x = true ↔
      x = .silence ∨ x = .decay ∨ x = .sustain ∨ (x = .attack ∧ p.retrigAttack = true) ∨
        (x = .release ∧ (m = .ar ∨ p.adsrRetrigRelease = true)) := by
  cases x <;> cases m <;> simp [retrigAllowed]

/-! ## Range checks -/

theorem hasUnit_iff (p : Params) (k : UnitKind) (u : UnitIx) :
    p.hasUnit k u = true ↔ u.toNat < p.count k := by simp [Params.hasUnit]

theorem hasIndex_iff (p : Params) (n : Imm) : p.hasIndex n = true ↔ n.toNat < p.nParam := by
  simp [Params.hasIndex]

theorem withUnit_ok {s : State} {k : UnitKind} {u : UnitIx} (h : u.toNat < s.params.count k)
    (e : Effect) : withUnit s k u e = e := by
  simp [withUnit, (hasUnit_iff _ _ _).2 h]

theorem withUnit_out {s : State} {k : UnitKind} {u : UnitIx} (h : s.params.count k ≤ u.toNat)
    (e : Effect) : withUnit s k u e = .raise .unitRange (zext32 u) := by
  simp [withUnit, Params.hasUnit, Nat.not_lt.2 h]

theorem withIndex_ok {s : State} {n : Imm} (h : n.toNat < s.params.nParam) (e : Effect) :
    withIndex s n e = e := by
  simp [withIndex, (hasIndex_iff _ _).2 h]

theorem withIndex_out {s : State} {n : Imm} (h : s.params.nParam ≤ n.toNat) (e : Effect) :
    withIndex s n e = .raise .indexRange (zext32 n) := by
  simp [withIndex, Params.hasIndex, Nat.not_lt.2 h]

/-! ## Register arrays -/

theorem getD_set_self {α : Type} {l : List α} {n : Nat} (h : n < l.length) (x d : α) :
    (l.set n x).getD n d = x := by
  simp [List.getD, h]

theorem getD_set_ne {α : Type} {l : List α} {n m : Nat} (h : n ≠ m) (x d : α) :
    (l.set n x).getD m d = l.getD m d := by
  simp [List.getD, List.getElem?_set_ne h]

theorem toNat_ne {n : Nat} {u v : BitVec n} (h : v ≠ u) : u.toNat ≠ v.toNat :=
  fun e => h (BitVec.eq_of_toNat_eq e.symm)

theorem gate_setGate_self {s : State} {g : UnitIx} (h : g.toNat < s.gates.length) (u : GateUnit) :
    (s.setGate g u).gate g = u := getD_set_self h _ _

theorem gate_setGate_ne {s : State} {g x : UnitIx} (h : x ≠ g) (u : GateUnit) :
    (s.setGate g u).gate x = s.gate x := getD_set_ne (toNat_ne h) _ _

theorem env_setEnv_self {s : State} {e : UnitIx} (h : e.toNat < s.envs.length) (u : EnvUnit) :
    (s.setEnv e u).env e = u := getD_set_self h _ _

theorem env_setEnv_ne {s : State} {e x : UnitIx} (h : x ≠ e) (u : EnvUnit) :
    (s.setEnv e u).env x = s.env x := getD_set_ne (toNat_ne h) _ _

theorem lpf_setLpf_self {s : State} {f : UnitIx} (h : f.toNat < s.lpfs.length) (x : Word) :
    (s.setLpf f x).lpf f = x := getD_set_self h _ _

theorem lpf_setLpf_ne {s : State} {f x : UnitIx} (h : x ≠ f) (y : Word) :
    (s.setLpf f y).lpf x = s.lpf x := getD_set_ne (toNat_ne h) _ _

theorem hpf_setHpf_self {s : State} {h : UnitIx} (hl : h.toNat < s.hpfs.length) (x : Word) :
    (s.setHpf h x).hpf h = x := getD_set_self hl _ _

theorem hpf_setHpf_ne {s : State} {h x : UnitIx} (hx : x ≠ h) (y : Word) :
    (s.setHpf h y).hpf x = s.hpf x := getD_set_ne (toNat_ne hx) _ _

theorem voice_setVoice_self {s : State} {v : UnitIx} (h : v.toNat < s.voices.length) (x : Voice) :
    (s.setVoice v x).voice v = x := getD_set_self h _ _

theorem voice_setVoice_ne {s : State} {v x : UnitIx} (h : x ≠ v) (y : Voice) :
    (s.setVoice v y).voice x = s.voice x := getD_set_ne (toNat_ne h) _ _

theorem param_setParam_self {x : Voice} {n : Imm} (h : n.toNat < x.params.length) (y : Word) :
    (x.setParam n y).param n = y := getD_set_self h _ _

theorem param_setParam_ne {x : Voice} {n m : Imm} (h : m ≠ n) (y : Word) :
    (x.setParam n y).param m = x.param m := getD_set_ne (toNat_ne h) _ _

/-! ## CSRs -/

/-- A CSR's number names it (R33). -/
@[simp] theorem csrOfNumber_number (r : Csr) : csrOfNumber r.number = some r := by
  cases r <;> rfl

/-- A number that names a CSR is that CSR's number (R33). -/
theorem number_of_csrOfNumber {n : Imm} {r : Csr} (h : csrOfNumber n = some r) : r.number = n := by
  unfold csrOfNumber at h
  split at h <;> first | (cases h; rfl) | cases h

/-! ## Voice lookup and the batch -/

theorem holds_iff (x : Voice) (o : Word) :
    x.holds o = true ↔ x.active = true ∧ x.id = o := by simp [Voice.holds]

/-- A slot found holds the id, and it is the first that does (R200). -/
theorem findSlot_some {voices : List Voice} {o : Word} {v : Nat} (h : findSlot voices o = some v) :
    ∃ hv : v < voices.length, voices[v].holds o = true := by
  have := List.findIdx?_eq_some_iff_getElem.1 h
  exact ⟨this.1, this.2.1⟩

/-- No slot is found exactly when none holds the id (R200). -/
theorem findSlot_none {voices : List Voice} {o : Word} :
    findSlot voices o = none ↔ ∀ x ∈ voices, x.holds o = false := by
  simp [findSlot]

@[simp] theorem setParam_active (x : Voice) (n : Imm) (y : Word) :
    (x.setParam n y).active = x.active := rfl

@[simp] theorem setParam_id (x : Voice) (n : Imm) (y : Word) : (x.setParam n y).id = x.id := rfl

@[simp] theorem setParam_gain (x : Voice) (n : Imm) (y : Word) : (x.setParam n y).gain = x.gain := rfl

@[simp] theorem setParam_params_length (x : Voice) (n : Imm) (y : Word) :
    (x.setParam n y).params.length = x.params.length := by simp [Voice.setParam]

@[simp] theorem setParam_holds (x : Voice) (n : Imm) (y o : Word) :
    (x.setParam n y).holds o = x.holds o := rfl

@[simp] theorem applyEvent_length (voices : List Voice) (e : Event) :
    (applyEvent voices e).length = voices.length := by
  unfold applyEvent
  split <;> simp

/-- What one event leaves in each slot: a write of one parameter of its owner's slot (R205). -/
theorem applyEvent_getElem? (voices : List Voice) (e : Event) (v : Nat) :
    (applyEvent voices e)[v]? =
      voices[v]?.map fun x =>
        if findSlot voices e.owner = some v then x.setParam e.index e.value else x := by
  unfold applyEvent
  cases h : findSlot voices e.owner with
  | none => simp
  | some u =>
    by_cases hu : u = v <;> simp [hu]

/-- An event changes no slot's active bit and no SynthID, so it changes no lookup (R205). -/
theorem findSlot_applyEvent (voices : List Voice) (e : Event) (o : Word) :
    findSlot (applyEvent voices e) o = findSlot voices o := by
  have h : (applyEvent voices e).map (·.holds o) = voices.map (·.holds o) := by
    apply List.ext_getElem?
    intro v
    simp only [List.getElem?_map, applyEvent_getElem?]
    cases voices[v]? with
    | none => rfl
    | some x =>
      simp only [Option.map_some]
      split <;> simp
  have hmap : ∀ l : List Voice, findSlot l o = (l.map (·.holds o)).findIdx? id := by
    intro l
    simp [findSlot]
  rw [hmap, hmap, h]

@[simp] theorem applyBatch_nil (voices : List Voice) : applyBatch voices [] = voices := rfl

@[simp] theorem applyBatch_cons (voices : List Voice) (e : Event) (es : List Event) :
    applyBatch voices (e :: es) = applyBatch (applyEvent voices e) es := rfl

/-- A batch changes no lookup (R205). -/
theorem findSlot_applyBatch (voices : List Voice) (es : List Event) (o : Word) :
    findSlot (applyBatch voices es) o = findSlot voices o := by
  induction es generalizing voices with
  | nil => rfl
  | cons e es ih => rw [applyBatch_cons, ih, findSlot_applyEvent]

@[simp] theorem applyBatch_length (voices : List Voice) (es : List Event) :
    (applyBatch voices es).length = voices.length := by
  induction es generalizing voices with
  | nil => rfl
  | cons e es ih => rw [applyBatch_cons, ih, applyEvent_length]

/-- A batch has no offender exactly when every entry's owner is in no slot or its index exists
(R206). -/
theorem firstOffender_none {p : Params} {voices : List Voice} {batch : List Event} :
    firstOffender p voices batch = none ↔
      ∀ e ∈ batch, findSlot voices e.owner = none ∨ e.index.toNat < p.nParam := by
  simp only [firstOffender, List.find?_eq_none, eventOffends, Bool.and_eq_true,
    Bool.not_eq_true', not_and, Bool.not_eq_false, hasIndex_iff]
  constructor
  · intro h e he
    cases hs : findSlot voices e.owner with
    | none => exact Or.inl rfl
    | some v => exact Or.inr (h e he (by simp [hs]))
  · intro h e he hs
    rcases h e he with h1 | h1
    · simp [h1] at hs
    · exact h1

/-! ## A step -/

theorem step_idle {s : State} (h : s.sched = []) : step s = .next s := by
  unfold step; rw [h]

theorem step_host {s : State} {rest : List Turn} (h : s.sched = .agent .host :: rest) :
    step s = hostTurn { s with sched := rest } := by
  unfold step; rw [h]

theorem step_writer {s : State} {rest : List Turn} (h : s.sched = .agent .writer :: rest) :
    step s = writerTurn { s with sched := rest } := by
  unfold step; rw [h]

theorem step_reset {s : State} {rest : List Turn} (h : s.sched = .reset :: rest) :
    step s = .next (State.resetEvent { s with sched := rest }) := by
  unfold step; rw [h]

/-- Every step is one of four: no turn, the host's, the writer's, or reset. -/
theorem step_cases (s : State) :
    (s.sched = [] ∧ step s = .next s) ∨
      (∃ rest, s.sched = .agent .host :: rest ∧ step s = hostTurn { s with sched := rest }) ∨
      (∃ rest, s.sched = .agent .writer :: rest ∧ step s = writerTurn { s with sched := rest }) ∨
      (∃ rest, s.sched = .reset :: rest ∧
        step s = .next (State.resetEvent { s with sched := rest })) := by
  cases h : s.sched with
  | nil => exact Or.inl ⟨rfl, step_idle h⟩
  | cons x rest =>
    match x with
    | .agent .host => exact Or.inr (Or.inl ⟨rest, rfl, step_host h⟩)
    | .agent .writer => exact Or.inr (Or.inr (Or.inl ⟨rest, rfl, step_writer h⟩))
    | .reset => exact Or.inr (Or.inr (Or.inr ⟨rest, rfl, step_reset h⟩))

/-- The host's turn: take the waiting response, or have the next command accepted and run, or
nothing. -/
theorem hostTurn_cases (s : State) :
    (∃ r, s.rsp = some r ∧ hostTurn s = .next { s with rsp := none }) ∨
      (∃ c rest, s.rsp = none ∧ s.cmdPort = c :: rest ∧
        hostTurn s = runCommand c { s with cmdPort := rest }) ∨
      (s.rsp = none ∧ s.cmdPort = [] ∧ hostTurn s = .next s) := by
  cases hr : s.rsp with
  | some r => exact Or.inl ⟨r, rfl, by simp [hostTurn, State.hostMove, hr]⟩
  | none =>
    cases hc : s.cmdPort with
    | nil => exact Or.inr (Or.inr ⟨rfl, rfl, by simp [hostTurn, State.hostMove, hr, hc]⟩)
    | cons c rest =>
      exact Or.inr (Or.inl ⟨c, rest, rfl, rfl, by simp [hostTurn, State.hostMove, hr, hc]⟩)

/-- The writer's turn: one event goes from its port to the tail of `PWQ`, or nothing happens. -/
theorem writerTurn_cases (s : State) :
    (∃ e rest, s.pwPort = e :: rest ∧ s.pwq.length < s.params.pwqDepth ∧
        writerTurn s = .next { s with pwPort := rest, pwq := s.pwq ++ [e] }) ∨
      ((s.pwPort = [] ∨ s.params.pwqDepth ≤ s.pwq.length) ∧ writerTurn s = .next s) := by
  cases hp : s.pwPort with
  | nil => exact Or.inr ⟨Or.inl rfl, by simp [writerTurn, State.writerMove, hp]⟩
  | cons e rest =>
    by_cases hl : s.pwq.length < s.params.pwqDepth
    · exact Or.inl ⟨e, rest, rfl, hl, by
        simp [writerTurn, State.writerMove, hp, State.pwqHasRoom, hl, exec, execPwWrite,
          State.append]⟩
    · exact Or.inr ⟨Or.inr (by omega), by
        simp [writerTurn, State.writerMove, hp, State.pwqHasRoom, hl]⟩

/-- Every command but NOP and CSR.RD is one gated effect (R264), so `gated_next` says all that it
can do. -/
theorem exec_gated (i : Instr) (hi : i.isCommand = true) (hn : i ≠ .nop)
    (hc : ∀ n, i ≠ .csrRd n) (s : State) : ∃ e, exec i s = gated (commandWord i) s e := by
  cases i <;> first
    | exact ⟨_, rfl⟩
    | exact absurd rfl hn
    | exact absurd rfl (hc _)
    | cases hi

/-- The three ways a command is run: it decodes, or it raises its decode fault (R85). -/
theorem runCommand_cases (c : Command) (s : State) :
    (∃ i, decode c = .instr i ∧ runCommand c s = exec i s) ∨
      (∃ op, decode c = .illegalOpcode op ∧
        runCommand c s = gated c.w s (.raise .illegalOpcode (zext32 op))) ∨
      (∃ w, decode c = .illegalField w ∧
        runCommand c s = gated c.w s (.raise .illegalField c.w)) := by
  cases h : decode c with
  | instr i => exact Or.inl ⟨i, rfl, by simp [runCommand, h]⟩
  | illegalOpcode op =>
    exact Or.inr (Or.inl ⟨op, rfl, by simp [runCommand, h, rejectOpcode]⟩)
  | illegalField w =>
    exact Or.inr (Or.inr ⟨w, rfl, by simp [runCommand, h, rejectField]⟩)

end Sys2Proof.Machine
end

