-- ==== Sys2Proof/Laws/PerInstr.lean ====
section
/-! SUPPORT. Statements about every instruction as syntax, made per instruction. -/

namespace Sys2Proof.Laws

/-- RowMatch: the command word of an instruction matches the row of R86 the instruction stands on;
PW.WRITE stands on none. -/
def RowMatch.Statement (i : Instr) : Prop :=
  ∀ row, i.row? = some row → commandWord i &&& row.mask = row.pattern

/-- A packed word matches a packed pattern under a mask that keeps OP and RSV: field by field. -/
theorem packWord_matches {op : BitVec 6} {u : UnitIx} {m : Imm} {mask pattern : Word}
    (ho : op &&& opField mask = opField pattern) (hu : u &&& unitField mask = unitField pattern)
    (hr : rsvField pattern = 0) (hm : m &&& immField mask = immField pattern) :
    packWord op u m &&& mask = pattern := by
  rw [word_eq_iff, opField_and, unitField_and, rsvField_and, immField_and]
  simp [ho, hu, hr, hm]

theorem RowMatch.nop : RowMatch.Statement (.nop) := by
  intro row h
  cases h
  exact packWord_matches rfl rfl rfl rfl

theorem RowMatch.csrRd (csr : Imm) : RowMatch.Statement (.csrRd csr) := by
  intro row h
  cases h
  exact packWord_matches rfl rfl rfl BitVec.and_zero

theorem RowMatch.csrWr (csr : Imm) (a : Word) : RowMatch.Statement (.csrWr csr a) := by
  intro row h
  cases h
  exact packWord_matches rfl rfl rfl BitVec.and_zero

theorem RowMatch.gateStep (g : UnitIx) (a : Word) : RowMatch.Statement (.gateStep g a) := by
  intro row h
  cases h
  exact packWord_matches rfl BitVec.and_zero rfl rfl

theorem RowMatch.gateCfg (g : UnitIx) (a : Word) : RowMatch.Statement (.gateCfg g a) := by
  intro row h
  cases h
  exact packWord_matches rfl BitVec.and_zero rfl rfl

theorem RowMatch.gateRd (g : UnitIx) : RowMatch.Statement (.gateRd g) := by
  intro row h
  cases h
  exact packWord_matches rfl BitVec.and_zero rfl rfl

theorem RowMatch.gateInit (g : UnitIx) : RowMatch.Statement (.gateInit g) := by
  intro row h
  cases h
  exact packWord_matches rfl BitVec.and_zero rfl rfl

theorem RowMatch.envInit (e : UnitIx) (mode : EnvMode) : RowMatch.Statement (.envInit e mode) := by
  intro row h
  cases h
  cases mode <;> exact packWord_matches rfl BitVec.and_zero rfl rfl

theorem RowMatch.envAtk (e : UnitIx) (a : Word) : RowMatch.Statement (.envAtk e a) := by
  intro row h
  cases h
  exact packWord_matches rfl BitVec.and_zero rfl rfl

theorem RowMatch.envDec (e : UnitIx) (a : Word) : RowMatch.Statement (.envDec e a) := by
  intro row h
  cases h
  exact packWord_matches rfl BitVec.and_zero rfl rfl

theorem RowMatch.envSus (e : UnitIx) (a : Word) : RowMatch.Statement (.envSus e a) := by
  intro row h
  cases h
  exact packWord_matches rfl BitVec.and_zero rfl rfl

theorem RowMatch.envRel (e : UnitIx) (a : Word) : RowMatch.Statement (.envRel e a) := by
  intro row h
  cases h
  exact packWord_matches rfl BitVec.and_zero rfl rfl

theorem RowMatch.envThr (e : UnitIx) (a : Word) : RowMatch.Statement (.envThr e a) := by
  intro row h
  cases h
  exact packWord_matches rfl BitVec.and_zero rfl rfl

theorem RowMatch.envStep (e : UnitIx) (a : Word) : RowMatch.Statement (.envStep e a) := by
  intro row h
  cases h
  exact packWord_matches rfl BitVec.and_zero rfl rfl

theorem RowMatch.envRdPos (e : UnitIx) : RowMatch.Statement (.envRdPos e) := by
  intro row h
  cases h
  exact packWord_matches rfl BitVec.and_zero rfl rfl

theorem RowMatch.envRdStg (e : UnitIx) : RowMatch.Statement (.envRdStg e) := by
  intro row h
  cases h
  exact packWord_matches rfl BitVec.and_zero rfl rfl

theorem RowMatch.envRdGate (e : UnitIx) : RowMatch.Statement (.envRdGate e) := by
  intro row h
  cases h
  exact packWord_matches rfl BitVec.and_zero rfl rfl

theorem RowMatch.lpfStep (f : UnitIx) (a b : Word) : RowMatch.Statement (.lpfStep f a b) := by
  intro row h
  cases h
  exact packWord_matches rfl BitVec.and_zero rfl rfl

theorem RowMatch.lpfInit (f : UnitIx) : RowMatch.Statement (.lpfInit f) := by
  intro row h
  cases h
  exact packWord_matches rfl BitVec.and_zero rfl rfl

theorem RowMatch.lpfRd (f : UnitIx) : RowMatch.Statement (.lpfRd f) := by
  intro row h
  cases h
  exact packWord_matches rfl BitVec.and_zero rfl rfl

theorem RowMatch.hpfStep (h : UnitIx) (a b : Word) : RowMatch.Statement (.hpfStep h a b) := by
  intro row h
  cases h
  exact packWord_matches rfl BitVec.and_zero rfl rfl

theorem RowMatch.hpfInit (h : UnitIx) : RowMatch.Statement (.hpfInit h) := by
  intro row h
  cases h
  exact packWord_matches rfl BitVec.and_zero rfl rfl

theorem RowMatch.hpfRd (h : UnitIx) : RowMatch.Statement (.hpfRd h) := by
  intro row h
  cases h
  exact packWord_matches rfl BitVec.and_zero rfl rfl

theorem RowMatch.dcbStep (a : Word) : RowMatch.Statement (.dcbStep a) := by
  intro row h
  cases h
  exact packWord_matches rfl rfl rfl rfl

theorem RowMatch.limStep (a : Word) : RowMatch.Statement (.limStep a) := by
  intro row h
  cases h
  exact packWord_matches rfl rfl rfl rfl

theorem RowMatch.busMaster : RowMatch.Statement (.busMaster) := by
  intro row h
  cases h
  exact packWord_matches rfl rfl rfl rfl

theorem RowMatch.busClr : RowMatch.Statement (.busClr) := by
  intro row h
  cases h
  exact packWord_matches rfl rfl rfl rfl

theorem RowMatch.busAcc (v : UnitIx) (a : Word) : RowMatch.Statement (.busAcc v a) := by
  intro row h
  cases h
  exact packWord_matches rfl BitVec.and_zero rfl rfl

theorem RowMatch.voiceSet (v : UnitIx) (a b : Word) : RowMatch.Statement (.voiceSet v a b) := by
  intro row h
  cases h
  exact packWord_matches rfl BitVec.and_zero rfl rfl

theorem RowMatch.voiceDel (a : Word) : RowMatch.Statement (.voiceDel a) := by
  intro row h
  cases h
  exact packWord_matches rfl rfl rfl rfl

theorem RowMatch.paramInit (v : UnitIx) (index : Imm) (a : Word) : RowMatch.Statement (.paramInit v index a) := by
  intro row h
  cases h
  exact packWord_matches rfl BitVec.and_zero rfl BitVec.and_zero

theorem RowMatch.paramRd (v : UnitIx) (index : Imm) (a : Word) : RowMatch.Statement (.paramRd v index a) := by
  intro row h
  cases h
  exact packWord_matches rfl BitVec.and_zero rfl BitVec.and_zero

theorem RowMatch.paramPost (index : Imm) (a b : Word) : RowMatch.Statement (.paramPost index a b) := by
  intro row h
  cases h
  exact packWord_matches rfl rfl rfl BitVec.and_zero

theorem RowMatch.paramCommit : RowMatch.Statement (.paramCommit) := by
  intro row h
  cases h
  exact packWord_matches rfl rfl rfl rfl

theorem RowMatch.pwWrite (owner : Word) (index : Imm) (value : Word) : RowMatch.Statement (.pwWrite owner index value) := by
  intro row h
  cases h

end Sys2Proof.Laws
end

