-- ==== Sys2Proof/Tests/Slice0.lean ====
section
/-! SUPPORT. Named tests. Expected results are the spec's own: words written out from R82 and R86,
the worked encodings of R92, and the vectors of spec/95_test_vectors.md (named V-… as there). The
witness theorems show states and operands that meet the hypotheses of the statements. -/

open Sys2Proof Sys2Proof.Machine

namespace Sys2Proof.Tests

/-! ## A small machine -/

/-- Two units of each kind, three voice slots, two parameters a slot, a `PWQ` of depth 2. -/
def params : Params where
  nGate := 2
  nEnv := 2
  nLpf := 2
  nHpf := 2
  nVoice := 3
  nParam := 2
  pwqDepth := 2
  envEps := 0x3727C5AC
  headroom := 0x3F800000
  retrigAttack := false
  adsrRetrigRelease := false

/-- That machine after reset. -/
def base : State := State.initial params

/-- After reset and `CSR.WR SRATE, 100.0` (V-CSR-5). -/
def at100 : State := { base with srate := 0x42C80000, speriod := 0x3C23D70A, dcK := 0x3BA3D70A }

/-- Slot 0 holds an active voice with SynthID 7 and gain 0.8, as after `VOICE.SET 0, 7, 0.8`. -/
def voiced : State := base.setVoice 0 ⟨true, 7, 0x3F4CCCCD, [0, 0]⟩

/-- A halted block. -/
def halted : State := base.faulted 0xFC000000 0x01 0x3F

/-- What a function sees of the next state, if there is one. -/
def look {α : Type} (f : State → α) : Result → Option α
  | .next t => some (f t)
  | .fault _ => none
  | .refused _ => none

/-- The response and what a function sees of the next state. -/
def both {α : Type} (f : State → α) : Result → Option (Option Response × α) :=
  look fun t => (t.rsp, f t)

/-- STATUS, FINFO, FAUX and the response. -/
def faultRegs : Result → Option (Word × Word × Word × Option Response) :=
  look fun t => (t.status, t.finfo, t.faux, t.rsp)

/-- A normal response. -/
def ok (d : Word) : Option Response := some ⟨d, false⟩

/-- The response of a fault. -/
def bad : Option Response := some ⟨0, true⟩

/-! ## WellFormed smoke: each check has a term it refuses -/

theorem test_wellformed_accepts : (Instr.paramInit 2 1 0).wellFormed params = true := by decide
theorem test_illformed_gate : (Instr.gateStep 2 0).wellFormed params = false := by decide
theorem test_illformed_env : (Instr.envStep 2 0).wellFormed params = false := by decide
theorem test_illformed_lpf : (Instr.lpfStep 2 0 0).wellFormed params = false := by decide
theorem test_illformed_hpf : (Instr.hpfStep 2 0 0).wellFormed params = false := by decide
theorem test_illformed_voice : (Instr.busAcc 3 0).wellFormed params = false := by decide
theorem test_illformed_index : (Instr.paramRd 2 2 0).wellFormed params = false := by decide

/-! ## Decoding: one word for each row, from R82's fields and R86's map -/

theorem test_decode_nop : decode ⟨0x00000000, 5, 6⟩ = .instr .nop := by decide
theorem test_decode_csr_rd : decode ⟨0x0400001A, 5, 6⟩ = .instr (.csrRd 0x01A) := by decide
theorem test_decode_csr_wr : decode ⟨0x08000010, 5, 6⟩ = .instr (.csrWr 0x010 5) := by decide
theorem test_decode_gate_step : decode ⟨0x10030000, 5, 6⟩ = .instr (.gateStep 3 5) := by decide
theorem test_decode_gate_cfg : decode ⟨0x17FF0000, 5, 6⟩ = .instr (.gateCfg 0x3FF 5) := by decide
theorem test_decode_gate_rd : decode ⟨0x18010000, 5, 6⟩ = .instr (.gateRd 1) := by decide
theorem test_decode_gate_init : decode ⟨0x1C020000, 5, 6⟩ = .instr (.gateInit 2) := by decide
theorem test_decode_env_init : decode ⟨0x20020001, 5, 6⟩ = .instr (.envInit 2 .adsr) := by decide
theorem test_decode_env_atk : decode ⟨0x24040000, 5, 6⟩ = .instr (.envAtk 4 5) := by decide
theorem test_decode_env_dec : decode ⟨0x28050000, 5, 6⟩ = .instr (.envDec 5 5) := by decide
theorem test_decode_env_sus : decode ⟨0x2C060000, 5, 6⟩ = .instr (.envSus 6 5) := by decide
theorem test_decode_env_rel : decode ⟨0x30070000, 5, 6⟩ = .instr (.envRel 7 5) := by decide
theorem test_decode_env_thr : decode ⟨0x34080000, 5, 6⟩ = .instr (.envThr 8 5) := by decide
theorem test_decode_env_step : decode ⟨0x38090000, 5, 6⟩ = .instr (.envStep 9 5) := by decide
theorem test_decode_env_rdpos : decode ⟨0x3C0A0000, 5, 6⟩ = .instr (.envRdPos 10) := by decide
theorem test_decode_env_rdstg : decode ⟨0x3C0B0001, 5, 6⟩ = .instr (.envRdStg 11) := by decide
theorem test_decode_env_rdgate : decode ⟨0x3C0C0002, 5, 6⟩ = .instr (.envRdGate 12) := by decide
theorem test_decode_lpf_step : decode ⟨0x40010000, 5, 6⟩ = .instr (.lpfStep 1 5 6) := by decide
theorem test_decode_lpf_init : decode ⟨0x44020000, 5, 6⟩ = .instr (.lpfInit 2) := by decide
theorem test_decode_lpf_rd : decode ⟨0x48030000, 5, 6⟩ = .instr (.lpfRd 3) := by decide
theorem test_decode_hpf_step : decode ⟨0x50010000, 5, 6⟩ = .instr (.hpfStep 1 5 6) := by decide
theorem test_decode_hpf_init : decode ⟨0x54020000, 5, 6⟩ = .instr (.hpfInit 2) := by decide
theorem test_decode_hpf_rd : decode ⟨0x58030000, 5, 6⟩ = .instr (.hpfRd 3) := by decide
theorem test_decode_dcb_step : decode ⟨0x60000000, 5, 6⟩ = .instr (.dcbStep 5) := by decide
theorem test_decode_lim_step : decode ⟨0x64000000, 5, 6⟩ = .instr (.limStep 5) := by decide
theorem test_decode_bus_master : decode ⟨0x68000000, 5, 6⟩ = .instr .busMaster := by decide
theorem test_decode_bus_clr : decode ⟨0x70000000, 5, 6⟩ = .instr .busClr := by decide
theorem test_decode_bus_acc : decode ⟨0x740F0000, 5, 6⟩ = .instr (.busAcc 15 5) := by decide
theorem test_decode_voice_set : decode ⟨0x80010000, 5, 6⟩ = .instr (.voiceSet 1 5 6) := by decide
theorem test_decode_voice_del : decode ⟨0x84000000, 5, 6⟩ = .instr (.voiceDel 5) := by decide
theorem test_decode_param_init : decode ⟨0x90020003, 5, 6⟩ = .instr (.paramInit 2 3 5) := by decide
theorem test_decode_param_rd : decode ⟨0x94010005, 5, 6⟩ = .instr (.paramRd 1 5 5) := by decide
theorem test_decode_param_post :
    decode ⟨0x98000014, 5, 6⟩ = .instr (.paramPost 20 5 6) := by
  decide
theorem test_decode_param_commit : decode ⟨0x9C000000, 5, 6⟩ = .instr .paramCommit := by decide
theorem test_encode_pw_write : encode (.pwWrite 7 2 5) = none := by decide
theorem test_decode_reserved_opcode : decode ⟨0x0C000000, 0, 0⟩ = .illegalOpcode 0x03 := by decide
theorem test_decode_last_opcode : decode ⟨0xA0000000, 0, 0⟩ = .illegalOpcode 0x28 := by decide
theorem test_decode_rsv : decode ⟨0x10031000, 0, 0⟩ = .illegalField 0x10031000 := by decide
theorem test_decode_unused_unit : decode ⟨0x84010000, 9, 0⟩ = .illegalField 0x84010000 := by decide
theorem test_decode_unused_imm : decode ⟨0x00000001, 0, 0⟩ = .illegalField 0x00000001 := by decide
theorem test_decode_env_init_imm :
    decode ⟨0x20000002, 0, 0⟩ = .illegalField 0x20000002 := by
  decide
theorem test_decode_env_read_imm :
    decode ⟨0x3C000003, 0, 0⟩ = .illegalField 0x3C000003 := by
  decide
theorem test_table_word : decodeTableWord 32 0x40010000 = some (.lpfStep 1 0 0) := by decide
theorem test_table_word_operands :
    decodeTableWord 96 0x412000003F80000040010000 = some (.lpfStep 1 0x3F800000 0x41200000) := by
  decide

/-! ## Assembly (R90, R91, R92) -/

theorem test_expand_bus_sample :
    expand (.busSample [(0, 5), (1, 6)]) = [.busClr, .busAcc 0 5, .busAcc 1 6, .busMaster] := by
  decide
theorem test_expand_env_cfgadsr :
    expand (.envCfgAdsr 1 2 3 4 5) =
      [.envInit 1 .adsr, .envAtk 1 2, .envDec 1 3, .envSus 1 4, .envRel 1 5] := by decide

/-! ## Steps: one command on a small state -/

theorem test_nop : exec .nop base = .next { base with rsp := ok 0 } := by rfl
/-- V-CSR-2. -/
theorem test_csr_rd_srate :
    both (·.srate) (exec (.csrRd 0x010) base) = some (ok 0x472C4400, 0x472C4400) := by
  decide
/-- V-CSR-10. -/
theorem test_csr_rd_reserved :
    faultRegs (exec (.csrRd 0x0FF) base) = some (0x00000501, 0x040000FF, 0xFF, bad) := by
  decide
/-- V-CSR-6. -/
theorem test_csr_wr_srate :
    both (fun t => (t.srate, t.speriod, t.dcK)) (exec (.csrWr 0x010 0x473B8000) base) = some (ok
      0, 0x473B8000, 0x37AEC33E, 0x372EC33E) := by
  decide
/-- V-CSR-7. -/
theorem test_csr_wr_ctrl :
    look (·.ctrl) (exec (.csrWr 0x00B 0xFFFFFFFF) base) = some 1 := by
  decide
/-- V-GATE-4: equality stays Low. -/
theorem test_gate_step_equal :
    both (·.gate 0) (exec (.gateStep 0 0x3D4CCCCD) base) = some (ok 0, ⟨.low, 0x3D4CCCCD⟩) := by
  decide
/-- V-GATE-12: a NaN leaves FallingEdge for RisingEdge. -/
theorem test_gate_step_nan :
    both (·.gate 1) (exec (.gateStep 1 0x7FC00000) (base.setGate 1 ⟨.fallingEdge, 0x3D4CCCCD⟩))
      = some (ok 1, ⟨.risingEdge, 0x3D4CCCCD⟩) := by
  decide
/-- V-GATE-13. -/
theorem test_gate_cfg :
    both (·.gate 0) (exec (.gateCfg 0 0xBF800000) (base.setGate 0 ⟨.high, 0x3D4CCCCD⟩)) = some
      (ok 0, ⟨.high, 0xBF800000⟩) := by
  decide
/-- V-GATE-14. -/
theorem test_gate_rd :
    both (·.gate 0) (exec (.gateRd 0) (base.setGate 0 ⟨.high, 0x3D4CCCCD⟩)) = some (ok 2,
      ⟨.high, 0x3D4CCCCD⟩) := by
  decide
/-- V-GATE-14. -/
theorem test_gate_init :
    both (·.gate 0) (exec (.gateInit 0) (base.setGate 0 ⟨.high, 5⟩)) = some (ok 0, ⟨.low, 5⟩) := by
  decide

/-- Envelope 0 of V-ENV-2, at a stage, a position and a Gate state. -/
def adsr (stage : Stage) (pos : Word) (gate : GateState) : State :=
  at100.setEnv 0
    ⟨.adsr, stage, pos, gate, 0x3D4CCCCD, 0x41A00000, 0x41200000, 0x3F000000, 0x41200000⟩

/-- The response, the stage and the Gate of envelope 0. -/
def envSeen : Result → Option (Option Response × Stage × GateState) :=
  both fun t => ((t.env 0).stage, (t.env 0).gate)

/-- V-ENV-2, step 6: Attack ends at 1.0. -/
theorem test_env_step_attack :
    envSeen (exec (.envStep 0 0x3F800000) (adsr .attack 0x3F7FFFFF .high)) = some (ok
      0x3F800000, .decay, .high) := by
  decide
/-- V-ENV-3, step 11: a falling edge does not end Decay. -/
theorem test_env_step_decay :
    envSeen (exec (.envStep 0 0) (adsr .decay 0x3F199998 .high)) = some (ok 0x3F000000,
      .sustain, .fallingEdge) := by
  decide
/-- P1, end state. -/
theorem test_env_init :
    look (·.env 0) (exec (.envInit 0 .ar) (adsr .decay 5 .high)) = some ⟨.ar, .silence, 0, .low,
      0x3D4CCCCD, 0x41A00000, 0x41200000, 0x3F000000, 0x41200000⟩ := by
  decide
/-- Section 1.2: 0.1 s gives 10.0. -/
theorem test_env_atk :
    both (fun t => ((t.env 1).atk, (t.env 1).dec, (t.env 1).rel)) (exec (.envAtk 1 0x3DCCCCCD)
      base) = some (ok 0, 0x41200000, 0, 0) := by
  decide
/-- V-ENV-2, setup. -/
theorem test_env_dec :
    both (fun t => ((t.env 1).atk, (t.env 1).dec, (t.env 1).rel)) (exec (.envDec 1 0x3DCCCCCD)
      base) = some (ok 0, 0, 0x41200000, 0) := by
  decide
/-- V-ENV-2, setup: the level is stored as given. -/
theorem test_env_sus :
    both (fun t => (t.env 1).sus) (exec (.envSus 1 0x3F000000) base) = some (ok 0, 0x3F000000) := by
  decide
/-- Section 1.2: 0.2 s gives 5.0. -/
theorem test_env_rel :
    both (fun t => ((t.env 1).atk, (t.env 1).dec, (t.env 1).rel)) (exec (.envRel 1 0x3E4CCCCD)
      base) = some (ok 0, 0, 0, 0x40A00000) := by
  decide
/-- V-ENV-5h, first command. -/
theorem test_env_thr :
    both (fun t => (t.env 0).thr) (exec (.envThr 0 0x40000000) base) = some (ok 0, 0x40000000) := by
  decide
/-- V-ENV-5g. -/
theorem test_env_rdpos :
    look (·.rsp) (exec (.envRdPos 0) (adsr .decay 0x3F800000 .high)) = some (ok 0x3F800000) := by
  decide
/-- V-ENV-1. -/
theorem test_env_rdstg :
    look (·.rsp) (exec (.envRdStg 0) (adsr .release 0x3F800000 .high)) = some (ok 4) := by
  decide
/-- V-ENV-1. -/
theorem test_env_rdgate :
    look (·.rsp) (exec (.envRdGate 0) (adsr .release 0x3F800000 .high)) = some (ok 2) := by
  decide
/-- V-LPF-2. -/
theorem test_lpf_step :
    both (·.lpf 0) (exec (.lpfStep 0 0x3F800000 0x41200000) (at100.setLpf 0 0x3EC590B1)) = some
      (ok 0x3F1F72B1, 0x3F1F72B1) := by
  decide +kernel
/-- V-LPF-7: a cutoff of -0.0 is not above 0. -/
theorem test_lpf_step_silent :
    both (·.lpf 0) (exec (.lpfStep 0 0x7FC00000 0x80000000) (at100.setLpf 0 5)) = some (ok 0, 0) := by
  decide
/-- Section 4. -/
theorem test_lpf_init :
    both (·.lpf 1) (exec (.lpfInit 1) (at100.setLpf 1 0x3EC590B1)) = some (ok 0, 0) := by
  decide
/-- Section 4. -/
theorem test_lpf_rd :
    look (·.rsp) (exec (.lpfRd 0) (at100.setLpf 0 0x3EC590B1)) = some (ok 0x3EC590B1) := by
  decide
/-- V-HPF-2. -/
theorem test_hpf_step :
    both (·.hpf 0) (exec (.hpfStep 0 0x3F800000 0x41200000) (at100.setHpf 0 0xBEC590B2)) = some
      (ok 0x3EC11A9E, 0xBF1F72B1) := by
  decide +kernel
/-- V-HPF-6: a negative cutoff is no special case. -/
theorem test_hpf_step_negative :
    both (·.hpf 0) (exec (.hpfStep 0 0x3F800000 0xC0A00000) at100) = some (ok 0x3FBAA1DB,
      0x3EEA876C) := by
  decide +kernel
/-- R166. -/
theorem test_hpf_init :
    both (·.hpf 0) (exec (.hpfInit 0) (at100.setHpf 0 0xBEC590B2)) = some (ok 0, 0) := by
  decide
/-- Section 4. -/
theorem test_hpf_rd :
    look (·.rsp) (exec (.hpfRd 0) (at100.setHpf 0 0xBEC590B2)) = some (ok 0xBEC590B2) := by
  decide
/-- V-DC-4. -/
theorem test_dcb_step :
    both (·.dcAvg) (exec (.dcbStep 0xBF800000) { at100 with dcAvg := 0x3C748882 }) = some (ok
      0xBF8142C8, 0x3C2163FC) := by
  decide

/-- V-LIM's coefficients 0.5 and 0.25. -/
def limited (env : Word) : State :=
  { at100 with limCA := 0x3F000000, limCR := 0x3E800000, limEnv := env }

/-- V-LIM: the attack, and the response clamped to 1.0. -/
theorem test_lim_step_attack :
    both (·.limEnv) (exec (.limStep 0x40000000) (limited 0x3F800000)) = some (ok 0x3F800000,
      0x3FC00000) := by
  decide
/-- V-LIM: the release. -/
theorem test_lim_step_release :
    both (·.limEnv) (exec (.limStep 0) (limited 0x40300000)) = some (ok 0, 0x40040000) := by
  decide +kernel
/-- V-BUS-1. -/
theorem test_bus_master :
    both (fun t => (t.acc, t.dcAvg, t.limEnv)) (exec .busMaster base) = some (ok 0, 0, 0,
      0x3F800000) := by
  decide +kernel
/-- V-SUM-3. -/
theorem test_bus_clr :
    both (·.acc) (exec .busClr { base with acc := 5 }) = some (ok 0, 0) := by
  decide
/-- V-SUM-1. -/
theorem test_bus_acc :
    both (·.acc) (exec (.busAcc 0 0x3F000000) voiced) = some (ok 0, 0x3ECCCCCD) := by
  decide
/-- V-SUM-5, on slot 2. -/
theorem test_bus_acc_inactive :
    faultRegs (exec (.busAcc 2 0x3F800000) voiced) = some (0x00000701, 0x74020000, 2, bad) := by
  decide
/-- V-PARAM-10. -/
theorem test_voice_set :
    both (·.voice 0) (exec (.voiceSet 0 7 0x3E99999A) voiced) = some (ok 0, ⟨true, 7,
      0x3E99999A, [0, 0]⟩) := by
  decide
/-- V-PARAM-9. -/
theorem test_voice_set_duplicate :
    faultRegs (exec (.voiceSet 1 7 0x3F000000) voiced) = some (0x00000801, 0x80010000, 7, bad) := by
  decide
/-- P2, step 9: the slot keeps its id and gain. -/
theorem test_voice_del :
    both (·.voice 0) (exec (.voiceDel 7) voiced) = some (ok 0, ⟨false, 7, 0x3F4CCCCD, [0, 0]⟩) := by
  decide
/-- V-PARAM-13. -/
theorem test_voice_del_absent :
    both (·.voices) (exec (.voiceDel 9) voiced) = some (ok 0, voiced.voices) := by
  decide
/-- P2, step 3. -/
theorem test_param_init :
    both (·.voice 0) (exec (.paramInit 0 1 0x3F000000) voiced) = some (ok 0, ⟨true, 7,
      0x3F4CCCCD, [0, 0x3F000000]⟩) := by
  decide
/-- V-PARAM-12. -/
theorem test_param_init_inactive :
    faultRegs (exec (.paramInit 0 0 0x3F800000) base) = some (0x00000701, 0x90000000, 0, bad) := by
  decide
/-- V-PARAM-1. -/
theorem test_param_rd :
    look (·.rsp) (exec (.paramRd 0 1 7) { voiced with pwq := [⟨7, 1, 5⟩] }) = some (ok 0) := by
  decide
/-- V-PARAM-7. -/
theorem test_param_rd_owner :
    faultRegs (exec (.paramRd 0 0 8) voiced) = some (0x00000601, 0x94000000, 8, bad) := by
  decide
/-- V-PARAM-5: the index is not checked when the event is posted. -/
theorem test_param_post :
    both (·.pwq) (exec (.paramPost 20 7 5) voiced) = some (ok 0, [⟨7, 20, 5⟩]) := by
  decide
/-- V-PARAM-11. -/
theorem test_param_post_full :
    faultRegs (exec (.paramPost 0 7 0x3F800000) { voiced with pwq := [⟨7, 0, 1⟩, ⟨7, 0, 2⟩] }) =
      some (0x00000A01, 0x98000000, 7, bad) := by
  decide
/-- V-PARAM-3: the later entry wins. -/
theorem test_param_commit :
    both (fun t => ((t.voice 0).params, t.pwq)) (exec .paramCommit { voiced with pwq := [⟨7, 1,
      0x3F800000⟩, ⟨7, 1, 0x40000000⟩] }) = some (ok 0, [0, 0x40000000], []) := by
  decide
/-- V-PARAM-5: the oldest offending index, and `PWQ` as it was. -/
theorem test_param_commit_index :
    faultRegs (exec .paramCommit { voiced with pwq := [⟨7, 20, 5⟩, ⟨7, 17, 5⟩] }) = some
      (0x00000901, 0x9C000000, 20, bad) := by
  decide
/-- V-PARAM-1. -/
theorem test_pw_write :
    both (·.pwq) (exec (.pwWrite 7 2 0x3F400000) voiced) = some (none, [⟨7, 2, 0x3F400000⟩]) := by
  decide
/-- V-PARAM-11: a full `PWQ` is not ready and loses nothing. -/
theorem test_pw_write_full :
    both (·.pwq) (exec (.pwWrite 7 0 5) { voiced with pwq := [⟨7, 0, 1⟩, ⟨7, 0, 2⟩] }) = some
      (none, [⟨7, 0, 1⟩, ⟨7, 0, 2⟩]) := by
  decide

/-! ## Faults, halting and steps -/

/-- V-GATE-15, on a machine with two Gates. -/
theorem test_unit_range :
    faultRegs (exec (.gateStep 2 0x3F800000) base) = some (0x00000301, 0x10020000, 2, bad) := by
  decide
/-- V-PARAM-8: the index is checked before the slot's voice. -/
theorem test_index_range :
    faultRegs (exec (.paramRd 0 2 7) base) = some (0x00000401, 0x94000000 + 2, 2, bad) := by decide
/-- V-FAULT. -/
theorem test_illegal_opcode :
    faultRegs (runCommand ⟨0xFC000000, 0, 0⟩ base) = some (0x00000101, 0xFC000000, 0x3F, bad) := by
  decide
/-- V-GATE-16. -/
theorem test_illegal_field :
    faultRegs (runCommand ⟨0x10031000, 0, 0⟩ base) =
      some (0x00000201, 0x10031000, 0x10031000, bad) := by decide
/-- V-HALT: a command is discarded. -/
theorem test_halted_discards :
    runCommand ⟨0x10000000, 0x3F800000, 0⟩ halted = .next { halted with rsp := bad } := by rfl
/-- V-HALT: CSR.RD STATUS is answered. -/
theorem test_halted_reads :
    look (·.rsp) (runCommand ⟨0x04000008, 0, 0⟩ halted) = some (ok 0x00000101) := by decide
/-- V-HALT: a failing CSR.RD leaves the fault registers. -/
theorem test_halted_bad_read :
    faultRegs (runCommand ⟨0x040000FF, 0, 0⟩ halted) = some (0x00000101, 0xFC000000, 0x3F, bad) := by
  decide
/-- The host's command runs as the next step. -/
theorem test_step_fetch :
    both (·.cmdPort) (step (base.withFetchWord 32 0x10000000)) = some (ok 0, []) := by decide
/-- R290: reset keeps what the agents offer. -/
theorem test_step_reset :
    step { halted with sched := [.reset], cmdPort := [⟨0, 0, 0⟩] } =
      .next { base with cmdPort := [⟨0, 0, 0⟩] } := by rfl

/-! ## Witnesses: states and operands that meet the hypotheses of the statements -/

theorem witness_DecodeAndEncodeAgree :
    encode (.voiceSet 0x3FF 7 0x3F4CCCCD) = some ⟨0x83FF0000, 7, 0x3F4CCCCD⟩ ∧
      encode (.pwWrite 7 2 5) = none ∧
      decode ⟨0x83FF0000, 7, 0x3F4CCCCD⟩ = .instr (.voiceSet 0x3FF 7 0x3F4CCCCD) := by decide

theorem witness_DecodeIsMatchAndMask :
    (Instr.envInit 0 .ar).row? = some ⟨"ENV.INIT", 0x20000000, 0xFC00FFFE⟩ := by decide

theorem witness_ReservedAndMalformedWordsFault_reserved :
    base.fault = false ∧ (opField 0x0C000000).toNat ∈ [0x03, 0x13, 0x17, 0x1B, 0x1E, 0x1F, 0x22, 0x23] ∧
      0x28 ≤ (opField 0xA0000000).toNat ∧ 0x28 ≤ (opField 0xFC000000).toNat := by decide

theorem witness_ReservedAndMalformedWordsFault_malformed :
    ¬ ((opField 0x10031000).toNat ∈ [0x03, 0x13, 0x17, 0x1B, 0x1E, 0x1F, 0x22, 0x23] ∨
        0x28 ≤ (opField 0x10031000).toNat) ∧
      ∀ (j : Instr) (row : OpRow), j.row? = some row →
        0x10031000#32 &&& row.mask ≠ row.pattern := by
  refine ⟨by decide, ?_⟩
  intro j row h
  cases j <;> cases h <;> decide

/-- A word that decodes, the last reserved opcode, and a word with a reserved field set. -/
theorem witness_StepRunsTheDecodedCommand :
    let offers := fun c : Command => { base with sched := [.agent .host], cmdPort := [c] }
    (∀ c : Command, (offers c).sched = [.agent .host] ∧ (offers c).rsp = none ∧
      (offers c).cmdPort = [c] ∧ (offers c).fault = false) ∧
      decode ⟨0x10010000, 0x3F800000, 0⟩ = .instr (.gateStep 1 0x3F800000) ∧
      decode ⟨0xFC000000, 0, 0⟩ = .illegalOpcode 0x3F ∧
      decode ⟨0x10031000, 0, 0⟩ = .illegalField 0x10031000 ∧
      (∀ i, decode ⟨0xFC000000, 0, 0⟩ ≠ .instr i) ∧ halted.fault = true := by
  have reserved : decode ⟨0xFC000000, 0, 0⟩ = .illegalOpcode 0x3F := by decide
  refine ⟨fun _ => ⟨rfl, rfl, rfl, rfl⟩, by decide, reserved, by decide, fun i h => ?_, by decide⟩
  cases reserved.symm.trans h

theorem witness_NoCommandWhileAResponseWaits :
    ∃ s : State, s.sched = [.agent .host] ∧ s.rsp = some ⟨5, false⟩ :=
  ⟨{ base with sched := [.agent .host], rsp := ok 5 }, by decide, by decide⟩

theorem witness_EveryCommandIsAnswered :
    Instr.nop.isCommand = true ∧ (Instr.pwWrite 7 2 5).isCommand = false := by decide

/-- One entry below the depth, and at the depth. -/
theorem witness_PortTransactionAppendsOrWaits :
    let s := { base with sched := [.agent .writer], pwPort := [⟨7, 2, 5⟩], pwq := [⟨1, 1, 1⟩] }
    s.sched = [.agent .writer] ∧ s.pwPort = [⟨7, 2, 5⟩] ∧ s.pwq.length < s.params.pwqDepth ∧
      { s with pwq := [⟨1, 1, 1⟩, ⟨2, 1, 1⟩] }.params.pwqDepth ≤
        { s with pwq := [⟨1, 1, 1⟩, ⟨2, 1, 1⟩] }.pwq.length := by decide

theorem witness_NopAndIdleChangeNothing : base.sched = [] := by decide

theorem witness_CsrFieldsReadAsLaidOut :
    base.params.legal = true ∧ base.pwq.length ≤ base.params.pwqDepth := by decide

theorem witness_CsrWriteOfEachWritableRegister : base.fault = false := by decide

/-- 0x005 to 0x007 and 0xFFF are reserved; 0x000 and 0x01A are read-only. -/
theorem witness_ReservedAndReadOnlyCsrsFault :
    csrOfNumber 0x005 = none ∧ csrOfNumber 0x007 = none ∧ csrOfNumber 0xFFF = none ∧
      (0x005#12).toNat ∉ [0x000, 0x001, 0x002, 0x003, 0x004, 0x008, 0x009, 0x00A, 0x00B, 0x00C,
        0x010, 0x011, 0x012, 0x013, 0x014, 0x015, 0x016, 0x018, 0x019, 0x01A] ∧
      (0x000#12).toNat ∉ [0x00B, 0x010, 0x013, 0x014] ∧
      (0x01A#12).toNat ∉ [0x00B, 0x010, 0x013, 0x014] := by decide

/-- The greatest unit of each kind. -/
theorem witness_UnitReadsHaveNoSideEffect :
    base.fault = false ∧ (1#10).toNat < base.params.nGate ∧ (1#10).toNat < base.params.nEnv ∧
      (1#10).toNat < base.params.nLpf ∧ (1#10).toNat < base.params.nHpf := by decide

theorem witness_GateStepAdvancesOneGate :
    base.fault = false ∧ (0#10).toNat < base.params.nGate ∧ (1#10).toNat < base.params.nGate ∧
      base.gates.length = base.params.nGate := by decide

theorem witness_GateConfigAndInitWriteOneField :
    base.fault = false ∧ (0#10).toNat < base.params.nGate ∧ (1#10).toNat < base.params.nGate ∧
      base.gates.length = base.params.nGate := by decide

theorem witness_EnvTimesSetTheirIncrement :
    base.fault = false ∧ (0#10).toNat < base.params.nEnv ∧ (1#10).toNat < base.params.nEnv ∧
      base.envs.length = base.params.nEnv := by decide

theorem witness_EnvLevelThresholdAndInit :
    base.fault = false ∧ (0#10).toNat < base.params.nEnv ∧ (1#10).toNat < base.params.nEnv ∧
      base.envs.length = base.params.nEnv := by decide

theorem witness_GateTransitionTable :
    isNaN 0x7FC00000 = true ∧ isNaN 0x3F800000 = false ∧ isNaN 0x3D4CCCCD = false ∧
      orderKey 0x3D4CCCCD < orderKey 0x3F800000 ∧ orderKey posZero = orderKey negZero ∧
      orderKey 0xBF800000 < orderKey negZero := by decide

theorem witness_EdgesLastOneSample :
    base.fault = false ∧ (1#10).toNat < base.params.nGate ∧
      base.gates.length = base.params.nGate ∧ (1#10).toNat < base.params.nEnv ∧
      base.envs.length = base.params.nEnv ∧
      (∃ t, exec (.gateStep 1 5) base = .next t) ∧ ∃ t, exec (.envStep 1 5) base = .next t :=
  ⟨by decide, by decide, by decide, by decide, by decide, ⟨_, rfl⟩, ⟨_, rfl⟩⟩

theorem witness_GateStepResponse :
    base.fault = false ∧ (1#10).toNat < base.params.nGate ∧
      base.gates.length = base.params.nGate ∧ (base.gate 1).state = .low ∧
      flt (base.gate 1).thr 0x3F800000 = true ∧ flt 0 (base.gate 1).thr = true := by decide

/-- Each stage, with the rising edge of a first sample above the threshold and without. -/
theorem witness_EnvStepByStage :
    (adsr .silence 0 .low).fault = false ∧ (0#10).toNat < (adsr .silence 0 .low).params.nEnv ∧
      (adsr .silence 0 .low).envs.length = (adsr .silence 0 .low).params.nEnv ∧
      gateNext .low 0x3F800000 0x3D4CCCCD = .risingEdge ∧
      (adsr .silence 0 .low).env 0 = { (adsr .attack 0 .low).env 0 with stage := .silence } ∧
      (adsr .attack 0 .low).params.retrigAttack = false ∧
      (adsr .release 0 .low).params.adsrRetrigRelease = false ∧
      gateNext .high 0 0x3D4CCCCD = .fallingEdge := by decide

theorem witness_ReleaseIsEnteredOnlyFromSustain :
    let s := adsr .sustain 0x3F000000 .high
    s.fault = false ∧ (0#10).toNat < s.params.nEnv ∧ s.envs.length = s.params.nEnv ∧
      (s.env 0).mode = .adsr ∧
      look (fun t => ((t.env 0).stage, (t.env 0).gate)) (exec (.envStep 0 0) s) =
        some (.release, .fallingEdge) ∧
      look (fun t => ((t.env 0).stage, (t.env 0).gate))
        (exec (.envStep 0 0) (adsr .attack 0x3F000000 .high)) = some (.attack, .fallingEdge) ∧
      look (fun t => ((t.env 0).stage, (t.env 0).gate))
        (exec (.envStep 0 0) (adsr .decay 0x3F7FFFFF .high)) = some (.decay, .fallingEdge) := by
  decide

/-- Positions at both ends of [0, 1]. -/
theorem witness_EnvPositionStaysNormalized :
    let s := adsr .attack 0x3F800000 .high
    s.fault = false ∧ (0#10).toNat < s.params.nEnv ∧ s.envs.length = s.params.nEnv ∧
      inUnit (s.env 0).pos = true ∧ inUnit (s.env 0).sus = true ∧ inUnit (base.env 0).pos = true ∧
      finiteNonneg (s.env 0).atk = true ∧ finiteNonneg (s.env 0).dec = true ∧
      finiteNonneg (s.env 0).rel = true ∧ finiteNonneg s.speriod = true := by decide

theorem witness_EnvNanHoldsTheStage :
    let s := adsr .decay 0x7FC00000 .high
    s.fault = false ∧ (0#10).toNat < s.params.nEnv ∧ s.envs.length = s.params.nEnv ∧
      (∃ t, exec (.envStep 0 0) s = .next t ∧ (t.env 0).gate = .fallingEdge) ∧
      (s.env 0).stage = .decay ∧ isNaN (s.env 0).pos = true :=
  ⟨by decide, by decide, by decide, ⟨_, rfl, by decide⟩, by decide, by decide⟩

/-- A cutoff at the boundary, -0.0, and one beyond it. -/
theorem witness_LowpassSilencesNonpositiveCutoff :
    base.fault = false ∧ (0#10).toNat < base.params.nLpf ∧ (1#10).toNat < base.params.nLpf ∧
      base.lpfs.length = base.params.nLpf ∧ fle 0x80000000 posZero = true ∧
      fle 0xC0400000 posZero = true := by decide

/-- The least positive cutoff and a NaN are not at or below zero. -/
theorem witness_FiltersFollowTheirRecursions :
    base.fault = false ∧ (0#10).toNat < base.params.nLpf ∧ (1#10).toNat < base.params.nLpf ∧
      base.lpfs.length = base.params.nLpf ∧ (1#10).toNat < base.params.nHpf ∧
      base.hpfs.length = base.params.nHpf ∧ fle 1 posZero = false ∧ fle 0x7FC00000 posZero = false := by decide

theorem witness_InitAndClearWriteZero :
    base.fault = false ∧ (0#10).toNat < base.params.nLpf ∧ (1#10).toNat < base.params.nLpf ∧
      base.lpfs.length = base.params.nLpf ∧ (1#10).toNat < base.params.nHpf ∧
      base.hpfs.length = base.params.nHpf := by decide

theorem witness_NanStateIsStuck :
    let s := { ((base.setHpf 0 0x7FC00000).setLpf 0 0x7FC00000) with
      dcAvg := 0x7FC00000, limEnv := 0x7FC00000 }
    s.fault = false ∧ isNaN (s.hpf 0) = true ∧ isNaN (s.lpf 0) = true ∧ isNaN s.dcAvg = true ∧
      isNaN s.limEnv = true ∧ fle 0x41200000 posZero = false ∧
      (∃ t, exec (.hpfStep 0 0 0x41200000) s = .next t) ∧
      (∃ t, exec (.lpfStep 0 0 0x41200000) s = .next t) ∧
      (∃ t, exec (.dcbStep 0) s = .next t) ∧ (∃ t, exec (.limStep 0) s = .next t) ∧
      ∃ t, exec .busMaster s = .next t :=
  ⟨by decide, by decide, by decide, by decide, by decide, by decide, ⟨_, rfl⟩, ⟨_, rfl⟩, ⟨_, rfl⟩,
    ⟨_, rfl⟩, ⟨_, rfl⟩⟩

theorem witness_DcBlockerAndLimiterFollowTheirRecursions : (limited 0x40300000).fault = false := by
  decide

theorem witness_BusMasterIsDcThenLimiter : (limited 0x40300000).fault = false := by decide

/-- The envelope at its least value and above it. -/
theorem witness_LimiterOutputIsClamped :
    let s := limited 0x3F800000
    s.fault = false ∧ isFinite 0xC0400000 = true ∧ isFinite s.limEnv = true ∧
      fle one s.limEnv = true ∧ fle one (limited 0x40300000).limEnv = true ∧
      isFinite s.limCA = true ∧ isFinite s.limCR = true ∧
      positiveFinite s.params.headroom = true := by decide

theorem witness_MasterBusPassesSilence :
    let s := { limited 0x40300000 with dcAvg := 0x00000000 }
    s.fault = false ∧ s.acc = 0x00000000 ∧ s.dcAvg = 0x00000000 ∧ isFinite s.limEnv = true ∧
      fle one s.limEnv = true ∧ inUnit s.limCR = true ∧ positiveFinite s.params.headroom = true ∧
      isFinite s.dcK = true ∧ params.legal = true := by decide

theorem witness_LimiterIsFixedAtZeroCoefficients :
    base.fault = false ∧ base.limCA = 0x00000000 ∧ base.limCR = 0x00000000 ∧
      base.limEnv = 0x3F800000 ∧ positiveFinite base.params.headroom = true ∧
      isFinite 0xC0400000 = true := by decide

theorem witness_BusAccAddsOneScaledSample :
    voiced.fault = false ∧ (0#10).toNat < voiced.params.nVoice ∧ (voiced.voice 0).active = true := by
  decide

theorem witness_BusMixSumsInOrder :
    voiced.fault = false ∧ ∀ x ∈ [((0 : UnitIx), (0x3F000000 : Word)), (0, 0xBF800000)],
      x.1.toNat < voiced.params.nVoice ∧ (voiced.voice x.1).active = true := by
  refine ⟨by decide, ?_⟩
  intro x hx
  simp only [List.mem_cons, List.not_mem_nil, or_false] at hx
  rcases hx with rfl | rfl <;> decide

/-- An id that no slot holds, and the slot's own id. -/
theorem witness_VoiceSetInstallsAVoice :
    voiced.fault = false ∧ (2#10).toNat < voiced.params.nVoice ∧
      voiced.voices.length = voiced.params.nVoice ∧
      (∀ u, u ≠ (2#10).toNat → ∀ x, voiced.voices[u]? = some x →
        ¬ (x.active = true ∧ x.id = 9)) ∧
      ∀ u, u ≠ (0#10).toNat → ∀ x, voiced.voices[u]? = some x →
        ¬ (x.active = true ∧ x.id = 7) := by
  have all : ∀ x ∈ voiced.voices, ¬ (x.active = true ∧ x.id = 9) := by decide
  refine ⟨by decide, by decide, by decide, fun u _ x h => all x (List.mem_of_getElem? h), ?_⟩
  intro u hu x h
  match u with
  | 0 => exact absurd rfl hu
  | 1 => cases h; decide
  | 2 => cases h; decide
  | n + 3 => cases h

theorem witness_VoiceDelRemovesTheVoice :
    voiced.fault = false ∧ ((voiced.voices.filter (·.active)).map (·.id)).Nodup := by decide

/-- The last parameter of the slot. -/
theorem witness_ParamInitWritesAndParamRdReads :
    voiced.fault = false ∧ (0#10).toNat < voiced.params.nVoice ∧
      voiced.voices.length = voiced.params.nVoice ∧ (1#12).toNat < voiced.params.nParam ∧
      (voiced.voice 0).params.length = voiced.params.nParam ∧ (voiced.voice 0).active = true ∧
      (voiced.voice 0).id = 7 := by decide

/-- Two entries for slot 0, one of them dropped, and one for an owner with no slot. -/
def pending : State := { voiced with pwq := [⟨7, 1, 0x3F800000⟩, ⟨5, 20, 0x40000000⟩] }

theorem witness_ParamPostAppendsOrFaults :
    voiced.fault = false ∧ pending.fault = false ∧
      voiced.pwq.length < voiced.params.pwqDepth ∧ pending.params.pwqDepth ≤ pending.pwq.length := by
  decide

theorem witness_ParamCommitAppliesTheBatch :
    pending.fault = false ∧ pending.voices.length ≤ 1024 ∧
      ((pending.voices.filter (·.active)).map (·.id)).Nodup ∧
      (∀ x ∈ pending.voices, x.params.length = pending.params.nParam) ∧
      ∀ e ∈ pending.pwq, (∃ x ∈ pending.voices, x.active = true ∧ x.id = e.owner) →
        e.index.toNat < pending.params.nParam := by
  decide

/-- The least index that does not exist, after two entries that do not offend; and no offender. -/
theorem witness_CommitFaultIsAllOrNothing :
    let offends := fun (s : State) (e : Event) =>
      (∃ x ∈ s.voices, x.active = true ∧ x.id = e.owner) ∧ s.params.nParam ≤ e.index.toNat
    let s := { voiced with pwq := [⟨5, 20, 5⟩, ⟨7, 1, 5⟩, ⟨7, 2, 5⟩, ⟨7, 9, 5⟩] }
    s.fault = false ∧ s.pwq = [⟨5, 20, 5⟩, ⟨7, 1, 5⟩] ++ ⟨7, 2, 5⟩ :: [⟨7, 9, 5⟩] ∧
      (∀ d ∈ [(⟨5, 20, 5⟩ : Event), ⟨7, 1, 5⟩], ¬ offends s d) ∧ offends s ⟨7, 2, 5⟩ ∧
      ∀ d ∈ pending.pwq, ¬ offends pending d := by decide

theorem witness_DroppedEventsLeaveNoTrace :
    pending.fault = false ∧ ∃ t, exec .paramCommit pending = .next t ∧ t.fault = false :=
  ⟨by decide, _, rfl, by decide⟩

theorem witness_SnapshotIsStableBetweenCommits :
    (∃ t, exec (.pwWrite 7 1 5) voiced = .next t) ∧
      (∃ t, step { voiced with sched := [.agent .writer], pwPort := [⟨7, 1, 5⟩] } = .next t) ∧
      ∃ t, step { voiced with sched := [.agent .host], cmdPort := [⟨0x84000000, 7, 0⟩] } = .next t ∧
        decode ⟨0x84000000, 7, 0⟩ = .instr (.voiceDel 7) :=
  ⟨⟨_, rfl⟩, ⟨_, rfl⟩, _, rfl, by decide⟩

/-- The port and PARAM.POST with room, with a full `PWQ` and while halted; a commit that completes
and one that faults. -/
theorem witness_OnlyPwqIsSharedByTheAgents :
    let turn := fun s : State => { s with sched := [.agent .writer], pwPort := [⟨7, 1, 5⟩] }
    (∃ t, step (turn voiced) = .next t ∧ t.pwq = [⟨7, 1, 5⟩]) ∧
      (∃ t, step (turn pending) = .next t ∧ t.pwq = pending.pwq) ∧
      (∃ t, exec (.pwWrite 7 1 5) halted = .next t ∧ t.pwq = [⟨7, 1, 5⟩]) ∧
      (∃ t, exec (.paramPost 1 7 5) voiced = .next t ∧ t.pwq = [⟨7, 1, 5⟩]) ∧
      (∃ t, exec (.paramPost 1 7 5) pending = .next t ∧ t.pwq = pending.pwq) ∧
      (∃ t, exec .paramCommit pending = .next t ∧ t.rsp = some ⟨0, false⟩ ∧ t.pwq = []) ∧
      ∃ t, exec .paramCommit { voiced with pwq := [⟨7, 2, 5⟩] } = .next t ∧
        t.rsp = some ⟨0, true⟩ ∧ t.pwq = [⟨7, 2, 5⟩] :=
  ⟨⟨_, rfl, by decide⟩, ⟨_, rfl, by decide⟩, ⟨_, rfl, by decide⟩, ⟨_, rfl, by decide⟩,
    ⟨_, rfl, by decide⟩, ⟨_, rfl, by decide, by decide⟩, ⟨_, rfl, by decide, by decide⟩⟩

theorem witness_PortTransactionsCommuteWithCommands :
    (Instr.paramInit 0 1 5).isCommand = true ∧
      (∀ n a b, Instr.paramInit 0 1 5 ≠ .paramPost n a b) ∧
      Instr.paramInit 0 1 5 ≠ .paramCommit ∧ Instr.paramInit 0 1 5 ≠ .csrRd 0x00C ∧
      (∃ t, exec (.paramInit 0 1 5) voiced = .next t) ∧
      ∃ u, exec (.pwWrite 7 1 5) voiced = .next u :=
  ⟨by decide, by simp, by decide, by decide, ⟨_, rfl⟩, ⟨_, rfl⟩⟩

/-- A command that completes and one that faults. -/
theorem witness_FaultsArePrecise :
    base.fault = false ∧ (∃ t, runCommand ⟨0x10000000, 0, 0⟩ base = .next t ∧ t.fault = false) ∧
      ∃ t, runCommand ⟨0x10020000, 0, 0⟩ base = .next t ∧ t.fault = true :=
  ⟨by decide, ⟨_, rfl, by decide⟩, _, rfl, by decide⟩

/-- The least unit and the least index that do not exist. -/
theorem witness_RangeChecksFaultFirst :
    base.fault = false ∧ (Instr.paramInit 3 0 5).unit? = some (.voice, 3) ∧ base.params.count .voice ≤ (3#10).toNat ∧
      (2#10).toNat < base.params.count .voice ∧ (Instr.paramInit 2 2 5).index? = some 2 ∧
      base.params.nParam ≤ (2#12).toNat := by decide

theorem witness_VoiceChecksFault :
    voiced.fault = false ∧ (1#10).toNat < voiced.params.nVoice ∧
      (1#12).toNat < voiced.params.nParam ∧ (voiced.voice 1).active = false ∧ (voiced.voice 0).id ≠ 8 ∧
      ∃ x, voiced.voices[0]? = some x ∧ x.active = true ∧ x.id = 7 :=
  ⟨by decide, by decide, by decide, by decide, by decide, _, rfl, by decide, by decide⟩

/-- NOP, a CSR.RD that is answered, a CSR.RD of a reserved number, and a discarded command. -/
theorem witness_HaltedBlockDiscardsCommands :
    halted.fault = true ∧ (0x04000008#32) = commandWord (.csrRd Csr.status.number) ∧
      (0x040000FF#32 ≠ 0 ∧ ∀ r : Csr, 0x040000FF#32 ≠ commandWord (.csrRd r.number)) ∧
      ((0x10000000#32) ≠ 0 ∧ ∀ r : Csr, 0x10000000#32 ≠ commandWord (.csrRd r.number)) := by
  refine ⟨by decide, by decide, ⟨by decide, ?_⟩, by decide, ?_⟩ <;>
    intro r <;> cases r <;> decide

theorem witness_HaltedUntilReset :
    ∃ t, step { halted with sched := [.agent .host], cmdPort := [⟨0x10000000, 0, 0⟩] } = .next t :=
  ⟨_, rfl⟩

theorem witness_IrqHoldsUntilReset :
    { halted with fie := true }.irq = true ∧ halted.rst = false ∧
      { halted with sched := [.reset] }.rst = true ∧
      ∃ t, step { halted with fie := true } = .next t :=
  ⟨by decide, by decide, by decide, _, rfl⟩

theorem witness_ResetEventGivesEveryRegisterItsValue :
    { halted with sched := [.reset, .agent .host] }.sched = [.reset, .agent .host] := by decide

theorem witness_ResetStateIsWellFormed : params.legal = true := by decide

/-- A well-formed state, with a step; and a step that is a reset. -/
theorem witness_EveryStepKeepsWellFormedness : 
    base.Wf ∧ (∃ t, step base = .next t) ∧
      ∃ t, step { halted with sched := [.reset] } = .next t := by
  refine ⟨?_, ⟨_, rfl⟩, _, rfl⟩
  constructor
  case faultCause => intro h; cases h
  case speriodDerived => decide +kernel
  case dcKDerived => decide +kernel
  all_goals decide

/-- An overflow and an underflow below zero, a zero product of each sign, exact zero sums. -/
theorem witness_ArithmeticRoundsToNearestEven :
    isFinite 0x7F7FFFFF = true ∧ isFinite 0xFF7FFFFF = true ∧ isFinite 1 = true ∧
      isFinite 0x80000001 = true ∧ units 0xFF7FFFFF + units 0xFF7FFFFF < 0 ∧
      fadd 0 0xFF7FFFFF 0xFF7FFFFF = 0xFF800000 ∧ units 0x80000001 * units 1 < 0 ∧
      fmul 0 0x80000001 1 = 0x80000000 ∧ fmul 0 posZero negZero = negZero ∧
      units one ≠ 0 ∧ fdiv 0 negZero one = negZero ∧
      units posZero + units negZero = 0 ∧ units one - units one = 0 ∧
      fsub 0 negZero posZero = negZero := by
  decide

theorem witness_ArithmeticOfSpecialValues :
    isFinite one = true ∧ isZero one = false ∧ isZero negZero = true ∧ isInf 0x7F800000 = true ∧
      isInf 0xFF800000 = true ∧ isNeg 0x7F800000 ≠ isNeg 0xFF800000 ∧ isFinite negZero = true ∧
      isNaN 0x7F800001 = true ∧ isNaN 0xFFFFFFFF = true := by decide

/-- IEEE 754's infinite operands: inf/inf, inf * -inf, -inf over a zero, 1 - inf. -/
theorem test_infinite_operands :
    fdiv 0x7FC00000 0x7F800000 0xFF800000 = 0x7FC00000 ∧
      fmul 0x7FC00000 0x7F800000 0xFF800000 = 0xFF800000 ∧
      fdiv 0x7FC00000 0xFF800000 posZero = 0xFF800000 ∧
      fsub 0x7FC00000 one 0x7F800000 = 0xFF800000 := by decide

theorem witness_ComparisonsAreOrdered :
    isFinite 0x7F7FFFFF = true ∧ isFinite 0xFF7FFFFF = true ∧ isNaN 0x7F800001 = true := by decide

/-- NaN operands; and a command that newly leaves a NaN in ACC, by inf + (-inf). -/
theorem witness_NanResultsAreFreshDraws :
    isNaN 0x7F800001 = true ∧ isNaN 0xFFC00000 = true ∧ sameFloat 0x7F800001 0xFFC00000 = true ∧
      isNaN (fdiv 0x7F800001 posZero negZero) = true ∧
      isNaN (fadd 0x7F800001 0x7F800000 0xFF800000) = true ∧ isNaN voiced.acc = false ∧
      ∃ t, exec (.busAcc 0 0xFF800000) { voiced with acc := 0x7F800000 } = .next t ∧
        voiced.nanDraws + 1 < t.nanDraws ∧
        t.acc = voiced.nan 1 :=
  ⟨by decide, by decide, by decide, by decide, by decide, by decide, _, rfl, by decide, rfl⟩
end Sys2Proof.Tests
end

section
/-! What rounding gives (R11): the nearest binary32 value, the even one of two nearest, infinity
from half a unit in the last place above the largest finite value on; and O57 from it. -/

namespace Sys2Proof.Machine

/-! ## The quotient rounded to an integer -/

/-- No integer is nearer to `num / den` than `roundDiv num den`, and where another is as near,
`roundDiv num den` is even. -/
theorem roundDiv_nearest {num den : Nat} (hd : 0 < den) (m : Int) :
    ((roundDiv num den * den : Int) - num).natAbs ≤ (m * den - num).natAbs ∧
      (((roundDiv num den * den : Int) - num).natAbs = (m * den - num).natAbs →
        m ≠ roundDiv num den → roundDiv num den % 2 = 0) := by
  have hdm : (den : Int) * (num / den : Nat) + (num % den : Nat) = num := by
    exact_mod_cast Nat.div_add_mod num den
  have hr := Nat.mod_lt num hd
  unfold roundDiv
  generalize num / den = q at *
  generalize num % den = r at *
  have hmul (k : Int) : (q + k) * den = den * q + k * den := by ring
  have h0 : (q : Int) * den = den * q := Int.mul_comm _ _
  have h1 : ((q : Int) + 1) * den = den * q + den := by rw [hmul, one_mul]
  have hmono {x y : Int} (h : x ≤ y) : x * den ≤ y * den :=
    Int.mul_le_mul_of_nonneg_right h (Int.natCast_nonneg den)
  -- a multiple of `den` other than the two about `num` is farther by a whole `den`
  have hcases : m = q ∧ m * den = den * q ∨ m = q + 1 ∧ m * den = den * q + den ∨
      m * den + den ≤ den * q ∨ den * q + 2 * den ≤ m * den := by
    rcases (by omega : m ≤ q + -1 ∨ m = q ∨ m = q + 1 ∨ q + 2 ≤ m) with h | rfl | rfl | h
    · have := hmono h
      rw [hmul] at this
      omega
    · exact .inl ⟨rfl, h0⟩
    · exact .inr (.inl ⟨rfl, h1⟩)
    · have := hmono h
      rw [hmul] at this
      omega
  generalize (den : Int) * q = dq at *
  generalize m * (den : Int) = dm at *
  simp only
  split
  · rw [h0]; omega
  · split
    · rcases Nat.mod_two_eq_zero_or_one q with h2 | h2
      · rw [h2, Nat.add_zero, h0]; omega
      · rw [h2, Nat.cast_add, Nat.cast_one, h1]; omega
    · rw [Nat.cast_add, Nat.cast_one, h1]; omega

/-- A quotient is rounded up to the even integer `m + 1` exactly from `m + 1/2` on. -/
theorem succ_le_roundDiv_iff {num den m : Nat} (hd : 0 < den) (hm : m % 2 = 1) :
    m + 1 ≤ roundDiv num den ↔ (2 * m + 1) * den ≤ 2 * num := by
  have hdm := Nat.div_add_mod num den
  have hr := Nat.mod_lt num hd
  unfold roundDiv
  generalize num / den = q at *
  generalize num % den = r at *
  have hexp : (2 * m + 1) * den = 2 * (den * m) + den := by ring
  rw [hexp]
  have hstep : q + 1 ≤ m ∧ den * q + den ≤ den * m ∨ q = m ∧ den * q = den * m ∨
      m + 1 ≤ q ∧ den * m + den ≤ den * q := by
    rcases Nat.lt_trichotomy q m with h | h | h
    · exact .inl ⟨h, Nat.mul_le_mul_left den h⟩
    · exact .inr (.inl ⟨h, by rw [h]⟩)
    · exact .inr (.inr ⟨h, Nat.mul_le_mul_left den h⟩)
  generalize den * q = dq at *
  generalize den * m = dm at *
  simp only
  split
  · omega
  · split <;> omega

/-! ## The unit in the last place -/

/-- The unit in the last place that rounding chooses is `2^k`: the quotient is below `2^24` of it
and, unless it is the least one, not below `2^23` of it. -/
theorem roundMag_ulp {num den : Nat} (hd : 0 < den) :
    ∃ k, roundMag num den = min (k * 2 ^ 23 + roundDiv num (den * 2 ^ k)) infBits ∧
      (k = 0 ∨ 2 ^ 23 * (den * 2 ^ k) ≤ num) ∧ num < 2 ^ 24 * (den * 2 ^ k) := by
  refine ⟨Nat.log2 (num / den) - 23, rfl, ?_⟩
  have hlow : num / den * den ≤ num := Nat.div_mul_le_self num den
  have hup : num < den * (num / den + 1) := Nat.lt_mul_div_succ num hd
  generalize num / den = q at *
  by_cases hbig : 2 ^ 24 ≤ q
  · obtain ⟨hlo, hhi⟩ := log2_quotient hbig
    generalize q.log2 - 23 = k at *
    constructor
    · right
      calc 2 ^ 23 * (den * 2 ^ k) = 2 ^ 23 * 2 ^ k * den := by ring
        _ ≤ q * den := Nat.mul_le_mul_right _ hlo
        _ ≤ num := hlow
    · calc num < den * (q + 1) := hup
        _ ≤ den * (2 ^ 24 * 2 ^ k) := Nat.mul_le_mul_left _ hhi
        _ = 2 ^ 24 * (den * 2 ^ k) := by ring
  · rw [log2_small (by omega)]
    refine ⟨.inl rfl, ?_⟩
    calc num < den * (q + 1) := hup
      _ ≤ den * 2 ^ 24 := Nat.mul_le_mul_left _ (by omega)
      _ = 2 ^ 24 * (den * 2 ^ 0) := by ring

/-- The magnitude of a pattern made of a unit in the last place `2^k` and a significand `c`, also
where `c` carries into the exponent. -/
theorem magUnits_of_magBits {a : Word} {k c : Nat} (h : magBits a = k * 2 ^ 23 + c)
    (hc : c ≤ 2 ^ 24) (hk : k = 0 ∨ 2 ^ 23 ≤ c) : magUnits a = c * 2 ^ k := by
  unfold magUnits expField fracField
  rw [h]
  rcases Nat.lt_or_ge c (2 ^ 23) with hsmall | hbig
  · obtain rfl : k = 0 := by omega
    rw [if_pos (by omega)]
    omega
  · rcases Nat.lt_or_eq_of_le hc with hlt | rfl
    · rw [if_neg (by omega), show (k * 2 ^ 23 + c) / 2 ^ 23 - 1 = k by omega,
        show 2 ^ 23 + (k * 2 ^ 23 + c) % 2 ^ 23 = c by omega]
    · rw [if_neg (by omega), show (k * 2 ^ 23 + 2 ^ 24) / 2 ^ 23 - 1 = k + 1 by omega,
        show 2 ^ 23 + (k * 2 ^ 23 + 2 ^ 24) % 2 ^ 23 = 2 ^ 23 by omega]
      ring

/-! ## The magnitude rounded to binary32 -/

/-- A magnitude rounds to infinity exactly from half a unit in the last place above the largest
finite value on. -/
theorem roundMag_eq_inf_iff {num den : Nat} (hd : 0 < den) :
    roundMag num den = infBits ↔ (2 ^ 25 - 1) * 2 ^ 252 * den ≤ num := by
  obtain ⟨k, hr, hlo, hhi⟩ := roundMag_ulp (num := num) hd
  have hpow (i j : Nat) (h : i ≤ j) : den * 2 ^ i ≤ den * 2 ^ j :=
    Nat.mul_le_mul_left _ (Nat.pow_le_pow_right (by decide) h)
  have hE : 0 < den * 2 ^ k := by positivity
  have hup : roundDiv num (den * 2 ^ k) ≤ 2 ^ 24 := roundDiv_le hE (Nat.le_of_lt hhi)
  rw [hr, infBits]
  rcases Nat.lt_trichotomy k 253 with hk | rfl | hk
  · have := hpow k 252 (by omega)
    omega
  · have := succ_le_roundDiv_iff (num := num) (m := 2 ^ 24 - 1) hE (by decide)
    omega
  · have := hpow 254 k hk
    have hnum : 2 ^ 23 * (den * 2 ^ k) ≤ num := by omega
    have := le_roundDiv hE hnum
    omega

/-- No finite binary32 magnitude is nearer to `num / den` than a finite result of rounding, and
where another is as near, the result's significand is even. -/
theorem roundMag_nearest {num den : Nat} (hd : 0 < den) {a : Word}
    (ha : magBits a = roundMag num den) (hf : magBits a < infBits) (c : Word) :
    ((magUnits a * den : Int) - num).natAbs ≤ ((magUnits c * den : Int) - num).natAbs ∧
      (((magUnits a * den : Int) - num).natAbs = ((magUnits c * den : Int) - num).natAbs →
        magUnits c ≠ magUnits a → magBits a % 2 = 0) := by
  obtain ⟨k, hr, hlo, hhi⟩ := roundMag_ulp (num := num) hd
  have hE : 0 < den * 2 ^ k := by positivity
  have hsig : k = 0 ∨ 2 ^ 23 ≤ roundDiv num (den * 2 ^ k) := hlo.imp_right (le_roundDiv hE)
  have hmag : magBits a = k * 2 ^ 23 + roundDiv num (den * 2 ^ k) := by omega
  rw [magUnits_of_magBits hmag (roundDiv_le hE (Nat.le_of_lt hhi)) hsig, hmag]
  have hnear (m : Int) := roundDiv_nearest (num := num) hE m
  generalize roundDiv num (den * 2 ^ k) = r at *
  have hcast (x : Nat) : ((x * 2 ^ k : Nat) * den : Int) = (x : Int) * (den * 2 ^ k : Nat) := by
    push_cast; ring
  obtain ⟨j, m, hu, -, hm, -⟩ := magUnits_eq c
  rcases Nat.lt_or_ge j k with hjk | hjk
  · -- `c` lies below the binade of the quotient, so its least value is strictly nearer than `c`
    have hk : 2 ^ 23 * (den * 2 ^ k) ≤ num := by omega
    have hc : magUnits c * den < 2 ^ 23 * (den * 2 ^ k) := by
      have hlt : m * 2 ^ j < 2 ^ 23 * 2 ^ k := by
        calc m * 2 ^ j < 2 ^ 24 * 2 ^ j := Nat.mul_lt_mul_of_pos_right hm (by positivity)
          _ = 2 ^ 23 * 2 ^ (j + 1) := by ring
          _ ≤ 2 ^ 23 * 2 ^ k := Nat.mul_le_mul_left _ (Nat.pow_le_pow_right (by decide) hjk)
      calc magUnits c * den < 2 ^ 23 * 2 ^ k * den := by
            rw [hu]; exact Nat.mul_lt_mul_of_pos_right hlt hd
        _ = 2 ^ 23 * (den * 2 ^ k) := by ring
    have hleast := (hnear (2 ^ 23)).1
    have hcz : (magUnits c * den : Int) < 2 ^ 23 * (den * 2 ^ k : Nat) := by exact_mod_cast hc
    rw [hcast]
    generalize den * 2 ^ k = E at *
    omega
  · -- `c` is a multiple of the unit in the last place
    have hmul : magUnits c = m * 2 ^ (j - k) * 2 ^ k := by
      rw [hu, mul_assoc, ← pow_add, Nat.sub_add_cancel hjk]
    have hne : m * 2 ^ (j - k) * 2 ^ k ≠ r * 2 ^ k →
        ((m * 2 ^ (j - k) : Nat) : Int) ≠ r := by
      intro h h'
      exact h (by rw [Int.natCast_inj.1 h'])
    obtain ⟨hle, heven⟩ := hnear (m * 2 ^ (j - k) : Nat)
    rw [hmul, hcast, hcast]
    refine ⟨hle, fun htie hval => ?_⟩
    have := heven htie (hne hval)
    omega

/-! ## Signed values -/

/-- What O57 says of a result `r` whose exact value is `num / den` units: the nearest value, ties to
even, overflow to infinity, and the sign. -/
def RoundsTo (r : Word) (num den : Int) : Prop :=
  (isFinite r = true → ∀ c : Word, isFinite c = true →
    (units r * den - num).natAbs ≤ (units c * den - num).natAbs ∧
    ((units r * den - num).natAbs = (units c * den - num).natAbs → units c ≠ units r →
      magBits r % 2 = 0)) ∧
  (isFinite r = false →
    isInf r = true ∧ (2 ^ 25 - 1) * 2 ^ 252 * den.natAbs ≤ num.natAbs) ∧
  ((2 ^ 25 - 1) * 2 ^ 252 * den.natAbs ≤ num.natAbs → isFinite r = false) ∧
  (0 < num * den → isNeg r = false) ∧ (num * den < 0 → isNeg r = true)

/-- The number of units of a value is its magnitude with its sign. -/
theorem units_eq_or (a : Word) :
    isNeg a = true ∧ units a = -magUnits a ∨ isNeg a = false ∧ units a = magUnits a := by
  unfold units
  cases isNeg a <;> simp

@[simp] theorem natAbs_units (a : Word) : (units a).natAbs = magUnits a := by
  rcases units_eq_or a with ⟨-, h⟩ | ⟨-, h⟩ <;> rw [h] <;> simp

/-- The distance of a signed value from `num / den`, where it has the sign of the quotient: the
distance of the magnitudes. -/
theorem natAbs_units_mul_sub {a : Word} {num den : Int}
    (hneg : num * den < 0 → isNeg a = true) (hpos : 0 < num * den → isNeg a = false) :
    (units a * den - num).natAbs = ((magUnits a * den.natAbs : Int) - num.natAbs).natAbs := by
  have hsame : 0 ≤ units a * den * num := by
    rw [show units a * den * num = units a * (num * den) by ring]
    rcases units_eq_or a with ⟨hn, hu⟩ | ⟨hn, hu⟩
    · have hle : num * den ≤ 0 := not_lt.1 fun h => by simp [hpos h] at hn
      exact mul_nonneg_of_nonpos_of_nonpos (by omega) hle
    · have hge : 0 ≤ num * den := not_lt.1 fun h => by simp [hneg h] at hn
      exact mul_nonneg (by omega) hge
  have habs : (units a * den).natAbs = magUnits a * den.natAbs := by
    rw [Int.natAbs_mul, natAbs_units]
  rw [← Nat.cast_mul, ← habs]
  rcases mul_nonneg_iff.1 hsame with h | h <;> omega

/-- A rounded magnitude with the sign of the exact result is the exact result rounded. -/
theorem roundsTo_withSign {neg : Bool} {num den : Int} {m d : Nat} (hm : m = num.natAbs)
    (hd : d = den.natAbs) (h0 : den ≠ 0) (hneg : num * den < 0 → neg = true)
    (hpos : 0 < num * den → neg = false) :
    RoundsTo (withSign neg (roundMag m d)) num den := by
  subst hm hd
  have hD : 0 < den.natAbs := Int.natAbs_pos.2 h0
  have hmag := magBits_withSign neg _ (roundMag_lt num.natAbs den.natAbs)
  have hsign := isNeg_withSign neg _ (roundMag_lt num.natAbs den.natAbs)
  generalize withSign neg (roundMag num.natAbs den.natAbs) = r at *
  subst hsign
  have hinf := roundMag_eq_inf_iff (num := num.natAbs) hD
  have hle := roundMag_le_inf num.natAbs den.natAbs
  rw [← hmag] at hinf hle
  refine ⟨fun hf c _ => ?_, fun hf => ?_, fun h => ?_, hpos, hneg⟩
  · have hnear := roundMag_nearest hD hmag ((isFinite_iff r).1 hf)
    have hzero := (hnear posZero).1
    rw [show magUnits posZero = 0 from rfl, Nat.cast_zero, zero_mul] at hzero
    obtain ⟨hc, heven⟩ := hnear c
    have hcabs : (units c * den).natAbs = magUnits c * den.natAbs := by
      rw [Int.natAbs_mul, natAbs_units]
    rw [natAbs_units_mul_sub hneg hpos]
    rw [← Nat.cast_mul, ← Nat.cast_mul, ← hcabs] at hc heven
    rw [← Nat.cast_mul] at hzero ⊢
    refine ⟨by omega, fun htie hne => heven (by omega) fun hsame => ?_⟩
    -- a tie of two values of one magnitude and opposite signs is a tie at zero
    have hz : magUnits r * den.natAbs = 0 := by
      have hcr := units_eq_or c
      have hrr := units_eq_or r
      have hopp : units c * den = -(units r * den) := by
        rw [← neg_mul]
        congr 1
        omega
      have hrabs : (units r * den).natAbs = magUnits r * den.natAbs := by
        rw [Int.natAbs_mul, natAbs_units]
      have hdist := natAbs_units_mul_sub hneg hpos
      rw [← Nat.cast_mul] at hdist
      omega
    have hr0 : magUnits r = 0 := by
      rcases Nat.mul_eq_zero.1 hz with h | h <;> omega
    have hru := units_eq_or r
    have hcu := units_eq_or c
    omega
  · have hnot : ¬ magBits r < infBits := fun h => by simp [(isFinite_iff r).2 h] at hf
    have hr : magBits r = infBits := by omega
    exact ⟨(isInf_iff r).2 hr, hinf.1 hr⟩
  · rw [Bool.eq_false_iff, Ne, isFinite_iff, hinf.2 h]
    exact Nat.lt_irrefl _

/-! ## The four operations -/

/-- The sign of the exact sum, with R11's sign of an exact sum of zero. -/
def sumNeg (a b : Word) : Bool :=
  if units a + units b = 0 then isNeg a && isNeg b else decide (units a + units b < 0)

/-- A sum of finite values is the exact sum rounded, a zero one included. -/
theorem fadd_eq_withSign {n a b : Word} (ha : isFinite a = true) (hb : isFinite b = true) :
    fadd n a b = withSign (sumNeg a b) (roundMag (units a + units b).natAbs 1) := by
  rw [fadd_finite ha hb, sumNeg]
  split
  next h =>
    rw [h, show roundMag (Int.natAbs 0) 1 = 0 from rfl]
    cases isNeg a && isNeg b <;> rfl
  next => rfl

theorem fadd_roundsTo {n a b : Word} (ha : isFinite a = true) (hb : isFinite b = true) :
    RoundsTo (fadd n a b) (units a + units b) 1 := by
  rw [fadd_eq_withSign ha hb, sumNeg]
  refine roundsTo_withSign rfl rfl one_ne_zero (fun h => ?_) (fun h => ?_)
  · rw [if_neg (by omega)]
    exact decide_eq_true (by omega)
  · rw [if_neg (by omega)]
    exact decide_eq_false (by omega)

theorem fadd_exact_zero {n a b : Word} (ha : isFinite a = true) (hb : isFinite b = true)
    (h : units a + units b = 0) :
    fadd n a b = if isNeg a = true ∧ isNeg b = true then 0x80000000 else 0 := by
  rw [fadd_finite ha hb, if_pos h]
  cases isNeg a <;> cases isNeg b <;> rfl

theorem isNeg_of_units_neg {a : Word} (h : units a < 0) : isNeg a = true := by
  rcases units_eq_or a with ⟨hs, -⟩ | ⟨-, hu⟩
  · exact hs
  · omega

theorem isNeg_of_units_pos {a : Word} (h : 0 < units a) : isNeg a = false := by
  rcases units_eq_or a with ⟨-, hu⟩ | ⟨hs, -⟩
  · omega
  · exact hs

/-- A product is below zero only where the operands' signs differ, above it only where they do
not. -/
theorem bne_isNeg_of_units_mul (a b : Word) :
    (units a * units b < 0 → (isNeg a != isNeg b) = true) ∧
      (0 < units a * units b → (isNeg a != isNeg b) = false) := by
  constructor
  · intro h
    rcases mul_neg_iff.1 h with ⟨ha, hb⟩ | ⟨ha, hb⟩
    · rw [isNeg_of_units_pos ha, isNeg_of_units_neg hb]; rfl
    · rw [isNeg_of_units_neg ha, isNeg_of_units_pos hb]; rfl
  · intro h
    rcases mul_pos_iff.1 h with ⟨ha, hb⟩ | ⟨ha, hb⟩
    · rw [isNeg_of_units_pos ha, isNeg_of_units_pos hb]; rfl
    · rw [isNeg_of_units_neg ha, isNeg_of_units_neg hb]; rfl

theorem fmul_roundsTo {n a b : Word} (ha : isFinite a = true) (hb : isFinite b = true) :
    RoundsTo (fmul n a b) (units a * units b) (2 ^ 149) := by
  obtain ⟨hneg, hpos⟩ := bne_isNeg_of_units_mul a b
  have hmag : magUnits a * magUnits b = (units a * units b).natAbs := by
    rw [Int.natAbs_mul, natAbs_units, natAbs_units]
  rw [fmul_finite ha hb]
  exact roundsTo_withSign hmag rfl (by decide) (fun h => hneg (by omega))
    (fun h => hpos (by omega))

theorem isNeg_fmul {n a b : Word} (ha : isFinite a = true) (hb : isFinite b = true) :
    isNeg (fmul n a b) = (isNeg a != isNeg b) := by
  rw [fmul_finite ha hb, isNeg_withSign _ _ (roundMag_lt _ _)]

theorem isZero_of_units_ne_zero {b : Word} (h : units b ≠ 0) : isZero b = false := by
  rw [Bool.eq_false_iff, Ne, isZero_iff]
  intro hz
  simp [units, magUnits, expField, fracField, hz] at h

theorem fdiv_roundsTo {n a b : Word} (ha : isFinite a = true) (hb : isFinite b = true)
    (h0 : units b ≠ 0) : RoundsTo (fdiv n a b) (units a * 2 ^ 149) (units b) := by
  obtain ⟨hneg, hpos⟩ := bne_isNeg_of_units_mul a b
  have hmag : magUnits a * 2 ^ 149 = (units a * 2 ^ 149).natAbs := by
    rw [Int.natAbs_mul, natAbs_units]; rfl
  have hcomm : units a * 2 ^ 149 * units b = units a * units b * 2 ^ 149 := by ring
  rw [fdiv_finite ha hb (isZero_of_units_ne_zero h0)]
  exact roundsTo_withSign hmag (natAbs_units b).symm h0 (fun h => hneg (by omega))
    (fun h => hpos (by omega))

theorem isNeg_fdiv {n a b : Word} (ha : isFinite a = true) (hb : isFinite b = true)
    (h0 : units b ≠ 0) : isNeg (fdiv n a b) = (isNeg a != isNeg b) := by
  rw [fdiv_finite ha hb (isZero_of_units_ne_zero h0), isNeg_withSign _ _ (roundMag_lt _ _)]

/-- Settles O57: each operation's result is `withSign` of a rounded magnitude, and a rounded
magnitude is the nearest one. A difference is the sum with the negated subtrahend. -/
theorem arithmeticRoundsToNearestEven : Obligations.ArithmeticRoundsToNearestEven := by
  intro n a b ha hb
  have hb' : isFinite (fneg b) = true := by rw [isFinite_fneg, hb]
  have hsub : units a - units b = units a + units (fneg b) := by rw [units_fneg, sub_eq_add_neg]
  refine ⟨fadd_roundsTo ha hb, fadd_exact_zero ha hb, ?_, fun h => ?_, fmul_roundsTo ha hb,
    isNeg_fmul ha hb, fun h => ⟨fdiv_roundsTo ha hb h, isNeg_fdiv ha hb h⟩⟩
  · rw [hsub]
    exact fadd_roundsTo ha hb'
  · rw [fsub, fadd_exact_zero ha hb' (by rw [← hsub, h])]
    simp only [isNeg_fneg, Bool.not_eq_true']

end Sys2Proof.Machine
end

section
/-! What zeros, infinities and NaNs give (R11), one rule for each operation and class of operands,
and O58 from them; how comparisons order values (R12, R13), and O59. -/

namespace Sys2Proof.Machine

/-! ## Infinite operands and zero divisors -/

theorem isNaN_of_isInf {a : Word} (h : isInf a = true) : isNaN a = false := by
  rw [Bool.eq_false_iff, Ne, isNaN_iff, (isInf_iff a).1 h]
  exact Nat.lt_irrefl _

theorem isFinite_of_isZero {a : Word} (h : isZero a = true) : isFinite a = true := by
  rw [isFinite_iff, (isZero_iff a).1 h]
  decide

theorem isZero_of_isInf {a : Word} (h : isInf a = true) : isZero a = false := by
  rw [Bool.eq_false_iff, Ne, isZero_iff, (isInf_iff a).1 h]
  decide

/-- A word that is not a NaN is infinite or finite. -/
theorem isInf_or_isFinite {a : Word} (h : isNaN a = false) :
    isInf a = true ∨ isFinite a = true := by
  simpa [h] using isNaN_or_isInf_or_isFinite a

theorem isInf_eq_withSign {a : Word} (h : isInf a = true) : a = withSign (isNeg a) infBits := by
  rw [← (isInf_iff a).1 h, withSign_eq]

/-- Infinity plus a value is that infinity, but for the infinity of the other sign. -/
theorem fadd_inf_left {n a b : Word} (ha : isInf a = true) (hb : isNaN b = false) :
    fadd n a b = if isInf b && (isNeg a != isNeg b) then n else a := by
  simp [fadd, isNaN_of_isInf ha, ha, hb]

theorem fadd_inf_right {n a b : Word} (ha : isFinite a = true) (hb : isInf b = true) :
    fadd n a b = b := by
  simp [fadd, isNaN_of_isFinite ha, isInf_of_isFinite ha, isNaN_of_isInf hb, hb]

/-- Infinity times a value is an infinity, but for a zero. -/
theorem fmul_inf {n a b : Word} (ha : isNaN a = false) (hb : isNaN b = false)
    (h : isInf a = true ∨ isInf b = true) :
    fmul n a b =
      if isZero a || isZero b then n else withSign (isNeg a != isNeg b) infBits := by
  simp [fmul, ha, hb, h]

/-- Infinity over a value is an infinity, but for an infinity. -/
theorem fdiv_inf_left {n a b : Word} (ha : isInf a = true) (hb : isNaN b = false) :
    fdiv n a b = if isInf b then n else withSign (isNeg a != isNeg b) infBits := by
  simp [fdiv, isNaN_of_isInf ha, ha, hb]

theorem fdiv_inf_right {n a b : Word} (ha : isFinite a = true) (hb : isInf b = true) :
    fdiv n a b = withSign (isNeg a != isNeg b) 0 := by
  simp [fdiv, isNaN_of_isFinite ha, isInf_of_isFinite ha, isNaN_of_isInf hb, hb]

/-- A finite value over a zero is an infinity, but for a zero. -/
theorem fdiv_zero {n a b : Word} (ha : isFinite a = true) (hb : isZero b = true) :
    fdiv n a b = if isZero a then n else withSign (isNeg a != isNeg b) infBits := by
  have hf := isFinite_of_isZero hb
  simp [fdiv, isNaN_of_isFinite ha, isInf_of_isFinite ha, isNaN_of_isFinite hf,
    isInf_of_isFinite hf, hb]

/-- The infinity of a product's or quotient's sign, written out. -/
theorem withSign_bne_infBits (p q : Bool) :
    withSign (p != q) infBits = if p = q then 0x7F800000 else 0xFF800000 := by
  cases p <;> cases q <;> rfl

theorem withSign_bne_zero (p q : Bool) :
    withSign (p != q) 0 = if p = q then posZero else negZero := by
  cases p <;> cases q <;> rfl

theorem fneg_of_isInf {a : Word} (h : isInf a = true) :
    fneg a = withSign (!isNeg a) infBits := by
  rw [isInf_eq_withSign (a := fneg a) (by rw [isInf_fneg, h]), isNeg_fneg]

/-- A finite value minus itself is `+0`: of the value and its negation one is not negative. -/
theorem fsub_self {n a : Word} (ha : isFinite a = true) : fsub n a a = posZero := by
  rw [fsub, fadd_finite ha (by rw [isFinite_fneg, ha]), units_fneg, if_pos (add_neg_cancel _),
    isNeg_fneg, Bool.and_not_self]
  rfl

/-! ## O58, by the classes of the operands -/

section
variable {n a b : Word}

theorem fadd_fsub_inf_same_sign (ha : isInf a = true) (hb : isInf b = true)
    (hs : isNeg a = isNeg b) : fsub n a b = n ∧ fadd n a b = a := by
  have hnb := isNaN_of_isInf hb
  constructor
  · rw [fsub, fadd_inf_left ha (by rw [isNaN_fneg, hnb])]
    simp [hb, hs]
  · rw [fadd_inf_left ha hnb]
    simp [hs]

theorem fadd_fsub_inf_opposite_sign (ha : isInf a = true) (hb : isInf b = true)
    (hs : isNeg a ≠ isNeg b) : fadd n a b = n ∧ fsub n a b = a := by
  have hnb := isNaN_of_isInf hb
  constructor
  · rw [fadd_inf_left ha hnb]
    simp [hb, hs]
  · rw [fsub, fadd_inf_left ha (by rw [isNaN_fneg, hnb])]
    simp [hs]

/-- An infinity and a finite value, in a sum or a difference. -/
theorem fadd_fsub_inf_finite (ha : isInf a = true) (hb : isFinite b = true) :
    fadd n a b = a ∧ fadd n b a = a ∧ fsub n a b = a ∧ fsub n b a = fneg a := by
  have hib := isInf_of_isFinite hb
  have hnb := isNaN_of_isFinite hb
  refine ⟨?_, fadd_inf_right hb ha, ?_, fadd_inf_right hb (by rw [isInf_fneg, ha])⟩
  · rw [fadd_inf_left ha hnb, hib]
    rfl
  · rw [fsub, fadd_inf_left ha (by rw [isNaN_fneg, hnb]), isInf_fneg, hib]
    rfl

/-- An infinity and a finite value, in a product: a NaN for a zero, else an infinity. -/
theorem fmul_inf_finite (ha : isInf a = true) (hb : isFinite b = true) :
    (isZero b = true → fmul n a b = n ∧ fmul n b a = n) ∧
      (isZero b = false → fmul n a b = withSign (isNeg a != isNeg b) infBits ∧
        fmul n b a = withSign (isNeg a != isNeg b) infBits) := by
  have hna := isNaN_of_isInf ha
  have hnb := isNaN_of_isFinite hb
  rw [fmul_inf hna hnb (.inl ha), fmul_inf hnb hna (.inr ha), isZero_of_isInf ha,
    bne_comm (a := isNeg b)]
  constructor <;> intro hz <;> simp [hz]

end

/-- Settles O58: each clause is the rule of its operation and class of operands. -/
theorem arithmeticOfSpecialValues : Obligations.ArithmeticOfSpecialValues := by
  intro n a b
  simp only [← withSign_bne_infBits, Bool.bne_true]
  refine ⟨rfl, rfl, fsub_self, fun ha hz hb => ?_, fun ha hb => ?_, fadd_fsub_inf_same_sign,
    fadd_fsub_inf_opposite_sign, fun ha hb => ⟨?_, ?_⟩, fun ha hb => ?_,
    fun h => ⟨fadd_nan h, fsub_nan h, fmul_nan h, fdiv_nan h⟩⟩
  · rw [fdiv_zero ha hb, hz]
    rfl
  · rw [fdiv_zero (isFinite_of_isZero ha) hb, if_pos ha]
  · rw [fdiv_inf_left ha (isNaN_of_isInf hb), if_pos hb]
  · rw [fmul_inf (isNaN_of_isInf ha) (isNaN_of_isInf hb) (.inl ha), isZero_of_isInf ha,
      isZero_of_isInf hb]
    rfl
  · obtain ⟨hadd, hadd', hsub, hsub'⟩ := fadd_fsub_inf_finite (n := n) ha hb
    obtain ⟨hzero, hmul⟩ := fmul_inf_finite (n := n) ha hb
    refine ⟨hadd, hadd', hsub, hsub'.trans (fneg_of_isInf ha), hzero, hmul, ?_, ?_⟩
    · rw [fdiv_inf_left ha (isNaN_of_isFinite hb), isInf_of_isFinite hb]
      rfl
    · rw [fdiv_inf_right hb ha, bne_comm, withSign_bne_zero]

/-! ## Comparisons (R12) -/

theorem magUnits_of_magBits_eq {a b : Word} (h : magBits a = magBits b) :
    magUnits a = magUnits b := by
  rw [magUnits, magUnits, expField, expField, fracField, fracField, h]

/-- The magnitude patterns of finite values are ordered as the magnitudes are. -/
theorem magBits_lt_iff {a b : Word} (ha : isFinite a = true) (hb : isFinite b = true) :
    magBits a < magBits b ↔ magUnits a < magUnits b := by
  have mono {x y : Word} (hx : isFinite x = true) (h : magUnits x ≤ magUnits y) :
      magBits x ≤ magBits y := by
    rw [← roundMag_magUnits x ((isFinite_iff x).1 hx)]
    exact roundMag_le Nat.one_pos y (by rwa [Nat.mul_one])
  constructor
  · intro h
    by_contra hle
    have := mono hb (Nat.not_lt.1 hle)
    omega
  · intro h
    refine Nat.lt_of_le_of_ne (mono ha (Nat.le_of_lt h)) fun heq => ?_
    exact Nat.ne_of_lt h (magUnits_of_magBits_eq heq)

theorem orderKey_lt_iff {a b : Word} (ha : isFinite a = true) (hb : isFinite b = true) :
    orderKey a < orderKey b ↔ units a < units b := by
  have hab := magBits_lt_iff ha hb
  have hba := magBits_lt_iff hb ha
  have hpz : isFinite posZero = true := rfl
  have haz := magBits_lt_iff hpz ha
  have hbz := magBits_lt_iff hpz hb
  rw [show magBits posZero = 0 from rfl, show magUnits posZero = 0 from rfl] at haz hbz
  unfold orderKey units
  split <;> split <;> omega

theorem orderKey_le_iff {a b : Word} (ha : isFinite a = true) (hb : isFinite b = true) :
    orderKey a ≤ orderKey b ↔ units a ≤ units b := by
  rw [← not_lt, orderKey_lt_iff hb ha, not_lt]

/-- A finite value's key lies strictly between those of the two infinities. -/
theorem orderKey_between {a : Word} (ha : isFinite a = true) :
    orderKey 0xFF800000 < orderKey a ∧ orderKey a < orderKey 0x7F800000 := by
  have h := (isFinite_iff a).1 ha
  rw [show orderKey 0xFF800000 = -(infBits : Int) from rfl,
    show orderKey 0x7F800000 = (infBits : Int) from rfl]
  unfold orderKey
  split <;> omega

/-- A comparison with a NaN is false (R12). -/
theorem flt_fle_of_nan {a b : Word} (h : isNaN a = true ∨ isNaN b = true) :
    flt a b = false ∧ fle a b = false := by
  unfold flt fle
  rcases h with h | h <;> simp [h]

theorem getLsbD_fabs (a : Word) {k : Nat} (hk : k < 31) : (fabs a).getLsbD k = a.getLsbD k := by
  have hmask : (0x7FFFFFFF : Word).getLsbD k = true := by
    rw [← BitVec.testBit_toNat, show (0x7FFFFFFF : Word).toNat = 2 ^ 31 - 1 from rfl,
      Nat.testBit_two_pow_sub_one]
    exact decide_eq_true hk
  rw [fabs, BitVec.getLsbD_and, hmask, Bool.and_true]

/-! ## Helpers of a NaN (R13) -/

section
variable {a : Word} (ha : isNaN a = true)
include ha

theorem floorOne_nan : floorOne a = a := by
  rw [floorOne, (flt_fle_of_nan (.inl ha)).1]; rfl

theorem floorEps_nan (eps : Word) : floorEps eps a = a := by
  rw [floorEps, (flt_fle_of_nan (.inl ha)).1]; rfl

theorem clamp_nan (lo hi : Word) : clamp a lo hi = a := by
  rw [clamp, fgt, (flt_fle_of_nan (.inl ha)).1, (flt_fle_of_nan (.inr ha)).1]; rfl

end

/-- Settles O59: comparisons compare keys, and keys are ordered as the values are. -/
theorem comparisonsAreOrdered : Obligations.ComparisonsAreOrdered := by
  intro a b
  refine ⟨fun ha hb => ⟨?_, ?_⟩, fun ha => ?_, fun h => ?_, isNeg_fabs a,
    fun k => getLsbD_fabs a, fun ha => ⟨floorOne_nan ha, floorEps_nan ha, clamp_nan ha⟩⟩
  · simp [flt_iff, isNaN_of_isFinite ha, isNaN_of_isFinite hb, orderKey_lt_iff ha hb]
  · simp [fle_iff, isNaN_of_isFinite ha, isNaN_of_isFinite hb, orderKey_le_iff ha hb]
  · obtain ⟨hlow, hhigh⟩ := orderKey_between ha
    exact ⟨flt_iff.2 ⟨isNaN_of_isFinite ha, rfl, hhigh⟩,
      flt_iff.2 ⟨rfl, isNaN_of_isFinite ha, hlow⟩⟩
  · obtain ⟨hlt, hle⟩ := flt_fle_of_nan h
    obtain ⟨hgt, hge⟩ := flt_fle_of_nan h.symm
    exact ⟨hlt, hle, hgt, hge⟩

end Sys2Proof.Machine
end

section
/-! NaN results (R16): what each primitive gives as its draw varies, which NaNs a command can leave
in the computed registers, and O60 from them. -/

namespace Sys2Proof.Machine

/-! ## The primitives as functions of their draw -/

/-- What all four operations keep: a NaN operand gives the draw, and every other pair of operands
gives the draw or a value that is no NaN and does not depend on the draw. -/
structure Primitive (op : Word → Word → Word → Word) : Prop where
  nan_operand : ∀ {n a b : Word}, isNaN a = true ∨ isNaN b = true → op n a b = n
  draw_or_value : ∀ a b : Word,
    (∀ n, op n a b = n) ∨ ∃ r, isNaN r = false ∧ ∀ n, op n a b = r

theorem isNaN_withSign {neg : Bool} {m : Nat} (h : m ≤ infBits) :
    isNaN (withSign neg m) = false := by
  rw [Bool.eq_false_iff, Ne, isNaN_iff, magBits_withSign neg m (Nat.lt_of_le_of_lt h (by decide))]
  exact Nat.not_lt.2 h

/-- Only operands that are no NaNs are left to look at. -/
theorem Primitive.of_not_nan {op : Word → Word → Word → Word}
    (hnan : ∀ {n a b : Word}, isNaN a = true ∨ isNaN b = true → op n a b = n)
    (hval : ∀ {a b : Word}, isNaN a = false → isNaN b = false →
      (∀ n, op n a b = n) ∨ ∃ r, isNaN r = false ∧ ∀ n, op n a b = r) : Primitive op := by
  refine ⟨hnan, fun a b => ?_⟩
  cases ha : isNaN a with
  | true => exact .inl fun n => hnan (.inl ha)
  | false =>
    cases hb : isNaN b with
    | true => exact .inl fun n => hnan (.inr hb)
    | false => exact hval ha hb

theorem primitive_fadd : Primitive fadd := by
  refine .of_not_nan fadd_nan fun {a b} hna hnb => ?_
  rcases isInf_or_isFinite hna with ha | ha
  · cases hs : isInf b && (isNeg a != isNeg b) with
    | true => exact .inl fun n => by rw [fadd_inf_left ha hnb, if_pos hs]
    | false => exact .inr ⟨a, hna, fun n => by rw [fadd_inf_left ha hnb, hs]; rfl⟩
  · rcases isInf_or_isFinite hnb with hb | hb
    · exact .inr ⟨b, hnb, fun n => fadd_inf_right ha hb⟩
    · exact .inr ⟨_, isNaN_withSign (roundMag_le_inf _ _), fun n => fadd_eq_withSign ha hb⟩

theorem primitive_fsub : Primitive fsub :=
  ⟨fsub_nan, fun a b => primitive_fadd.draw_or_value a (fneg b)⟩

theorem primitive_fmul : Primitive fmul := by
  refine .of_not_nan fmul_nan fun {a b} hna hnb => ?_
  by_cases hinf : isInf a = true ∨ isInf b = true
  · cases hz : isZero a || isZero b with
    | true => exact .inl fun n => by rw [fmul_inf hna hnb hinf, if_pos hz]
    | false =>
      exact .inr ⟨_, isNaN_withSign (Nat.le_refl _),
        fun n => by rw [fmul_inf hna hnb hinf, hz]; rfl⟩
  · have ha := (isInf_or_isFinite hna).resolve_left fun h => hinf (.inl h)
    have hb := (isInf_or_isFinite hnb).resolve_left fun h => hinf (.inr h)
    exact .inr ⟨_, isNaN_withSign (roundMag_le_inf _ _), fun n => fmul_finite ha hb⟩

theorem primitive_fdiv : Primitive fdiv := by
  refine .of_not_nan fdiv_nan fun {a b} hna hnb => ?_
  rcases isInf_or_isFinite hna with ha | ha
  · cases hi : isInf b with
    | true => exact .inl fun n => by rw [fdiv_inf_left ha hnb, if_pos hi]
    | false =>
      exact .inr ⟨_, isNaN_withSign (Nat.le_refl _),
        fun n => by rw [fdiv_inf_left ha hnb, hi]; rfl⟩
  · rcases isInf_or_isFinite hnb with hb | hb
    · exact .inr ⟨_, isNaN_withSign (Nat.zero_le _), fun n => fdiv_inf_right ha hb⟩
    · cases hz : isZero b with
      | false =>
        exact .inr ⟨_, isNaN_withSign (roundMag_le_inf _ _), fun n => fdiv_finite ha hb hz⟩
      | true =>
        cases hz' : isZero a with
        | true => exact .inl fun n => by rw [fdiv_zero ha hz, if_pos hz']
        | false =>
          exact .inr ⟨_, isNaN_withSign (Nat.le_refl _),
            fun n => by rw [fdiv_zero ha hz, hz']; rfl⟩

/-- A NaN result is the operation's draw. -/
theorem Primitive.eq_draw {op : Word → Word → Word → Word} (hop : Primitive op) {n a b : Word}
    (h : isNaN (op n a b) = true) : op n a b = n := by
  rcases hop.draw_or_value a b with hd | ⟨r, hr, hv⟩
  · exact hd n
  · rw [hv, hr] at h
    cases h

theorem sameFloat_iff {a b : Word} :
    sameFloat a b = true ↔ a = b ∨ isNaN a = true ∧ isNaN b = true := by
  simp [sameFloat]

/-- No operation tells two NaNs apart, neither operands nor draws. -/
theorem Primitive.sameFloat_congr {op : Word → Word → Word → Word} (hop : Primitive op)
    {n m a b c d : Word} (hn : isNaN n = true) (hm : isNaN m = true)
    (hac : sameFloat a c = true) (hbd : sameFloat b d = true) :
    sameFloat (op n a b) (op m c d) = true := by
  rw [sameFloat_iff] at *
  rcases hac with rfl | ⟨ha, hc⟩
  · rcases hbd with rfl | ⟨hb, hd⟩
    · rcases hop.draw_or_value a b with hdraw | ⟨r, -, hv⟩
      · rw [hdraw, hdraw]
        exact .inr ⟨hn, hm⟩
      · rw [hv, hv]
        exact .inl rfl
    · rw [hop.nan_operand (.inr hb), hop.nan_operand (.inr hd)]
      exact .inr ⟨hn, hm⟩
  · rw [hop.nan_operand (.inl ha), hop.nan_operand (.inl hc)]
    exact .inr ⟨hn, hm⟩

/-- No comparison tells two NaNs apart. -/
theorem flt_fle_sameFloat {a b c d : Word} (hac : sameFloat a c = true)
    (hbd : sameFloat b d = true) : flt a b = flt c d ∧ fle a b = fle c d := by
  have hnan (h : (isNaN a = true ∨ isNaN b = true) ∧ (isNaN c = true ∨ isNaN d = true)) :
      flt a b = flt c d ∧ fle a b = fle c d := by
    obtain ⟨h1, h2⟩ := flt_fle_of_nan h.1
    obtain ⟨h3, h4⟩ := flt_fle_of_nan h.2
    exact ⟨h1.trans h3.symm, h2.trans h4.symm⟩
  rcases sameFloat_iff.1 hac with rfl | ⟨ha, hc⟩
  · rcases sameFloat_iff.1 hbd with rfl | ⟨hb, hd⟩
    · exact ⟨rfl, rfl⟩
    · exact hnan ⟨.inr hb, .inr hd⟩
  · exact hnan ⟨.inl ha, .inl hc⟩

/-! ## Registers after a command -/

/-- `y`, in a register that held `x`, is no NaN, or was there before, or is one of the draws from
`s`'s count on and below the count `n`. -/
def FreshOr (s : State) (n : Nat) (x y : Word) : Prop :=
  isNaN y = true → y ≠ x → ∃ k, s.nanDraws + k < n ∧ y = s.nan k

section
variable {s : State} {n : Nat} {x y : Word}

theorem FreshOr.same : FreshOr s n x x := fun _ hne => absurd rfl hne

theorem FreshOr.of_not_nan (h : isNaN y = false) : FreshOr s n x y := fun hy => by
  rw [h] at hy
  cases hy

/-- The result of an operation whose draw is `s`'s `k`-th. -/
theorem FreshOr.result {op : Word → Word → Word → Word} (hop : Primitive op) {a b : Word} {k : Nat}
    (hk : s.nanDraws + k < n) : FreshOr s n x (op (s.nan k) a b) :=
  fun hy _ => ⟨k, hk, hop.eq_draw hy⟩

/-- A register that went through a value `z` that is no NaN holds no NaN from before. -/
theorem FreshOr.through {z : Word} (hz : isNaN z = false) (h : FreshOr s n z y) :
    FreshOr s n x y := fun hy _ => h hy fun hyz => by
  rw [hyz, hz] at hy
  cases hy

end

/-- `FreshOr` for the position and the increments of one envelope unit. -/
structure FreshEnv (s : State) (n : Nat) (u v : EnvUnit) : Prop where
  pos : FreshOr s n u.pos v.pos := by exact FreshOr.same
  atk : FreshOr s n u.atk v.atk := by exact FreshOr.same
  dec : FreshOr s n u.dec v.dec := by exact FreshOr.same
  rel : FreshOr s n u.rel v.rel := by exact FreshOr.same

/-- O60's claim of the states before and after a command. A register that a command does not write
is fresh by default. -/
structure FreshNaNs (s t : State) : Prop where
  draws : s.nanDraws ≤ t.nanDraws := by simp
  acc : FreshOr s t.nanDraws s.acc t.acc := by exact FreshOr.same
  dcAvg : FreshOr s t.nanDraws s.dcAvg t.dcAvg := by exact FreshOr.same
  limEnv : FreshOr s t.nanDraws s.limEnv t.limEnv := by exact FreshOr.same
  speriod : FreshOr s t.nanDraws s.speriod t.speriod := by exact FreshOr.same
  dcK : FreshOr s t.nanDraws s.dcK t.dcK := by exact FreshOr.same
  lpf : ∀ u, FreshOr s t.nanDraws (s.lpf u) (t.lpf u) := by exact fun _ => FreshOr.same
  hpf : ∀ u, FreshOr s t.nanDraws (s.hpf u) (t.hpf u) := by exact fun _ => FreshOr.same
  env : ∀ u, FreshEnv s t.nanDraws (s.env u) (t.env u) := by exact fun _ => {}

/-! ## Commands in general -/

/-- O60's claim of a command's effect; a fault writes no computed register. -/
def Effect.Fresh (s : State) : Effect → Prop
  | .done t _ => FreshNaNs s t
  | .raise _ _ => True

section
variable {s t : State} {w : Word} {e : Effect}

theorem FreshNaNs.respond (h : FreshNaNs s t) (d : Word) : FreshNaNs s (t.respond d) := { h with }

theorem freshNaNs_respondError : FreshNaNs s s.respondError := {}

theorem freshNaNs_takeFault (c : Cause) (aux : Word) : FreshNaNs s (s.takeFault w c aux) := by
  unfold State.takeFault
  split
  · exact freshNaNs_respondError
  · exact {}

theorem fresh_done (h : FreshNaNs s t) (d : Word) : (Effect.done t d).Fresh s := h

theorem fresh_raise (c : Cause) (aux : Word) : (Effect.raise c aux).Fresh s := trivial

theorem finish_fresh (h : finish w s e = .next t) (he : e.Fresh s) : FreshNaNs s t := by
  rcases finish_next h with ⟨u, d, rfl, rfl⟩ | ⟨c, aux, -, rfl⟩
  · exact FreshNaNs.respond he d
  · exact freshNaNs_takeFault c aux

theorem gated_fresh (h : gated w s e = .next t) (he : e.Fresh s) : FreshNaNs s t := by
  cases hf : s.fault with
  | true =>
    rw [gated_halted hf] at h
    cases h
    exact freshNaNs_respondError
  | false =>
    rw [gated_running hf] at h
    exact finish_fresh h he

theorem withUnit_fresh (k : UnitKind) (u : UnitIx) (he : e.Fresh s) :
    (withUnit s k u e).Fresh s := by
  unfold withUnit
  split
  · exact he
  · trivial

theorem withIndex_fresh (n : Imm) (he : e.Fresh s) : (withIndex s n e).Fresh s := by
  unfold withIndex
  split
  · exact he
  · trivial

/-- A command on a unit whose body always completes. -/
theorem gated_withUnit_fresh {k : UnitKind} {u : UnitIx} {r : State} {d : Word}
    (h : gated w s (withUnit s k u (.done r d)) = .next t) (hr : FreshNaNs s r) : FreshNaNs s t :=
  gated_fresh h (withUnit_fresh k u (fresh_done hr d))

end

/-! ## The registers that commands write -/

/-- Reading a register array after a write of one element: the element, or as before. -/
theorem getD_set_cases {α : Type} (l : List α) (n m : Nat) (x d : α) :
    n = m ∧ (l.set n x).getD m d = x ∨ (l.set n x).getD m d = l.getD m d := by
  by_cases h : n = m
  · subst h
    by_cases hl : n < l.length
    · exact .inl ⟨rfl, getD_set_self hl x d⟩
    · rw [List.set_eq_of_length_le (Nat.not_lt.1 hl)]
      exact .inr rfl
  · exact .inr (getD_set_ne h x d)

section
variable {s t : State} {n : Nat}

theorem setEnv_fresh {e : UnitIx} {v : EnvUnit} (h : FreshEnv s n (s.env e) v) (u : UnitIx) :
    FreshEnv s n (s.env u) ((s.setEnv e v).env u) := by
  rcases getD_set_cases s.envs e.toNat u.toNat v EnvUnit.initial with ⟨hu, hv⟩ | hv
  · obtain rfl := BitVec.eq_of_toNat_eq hu
    rwa [show (s.setEnv e v).env e = v from hv]
  · rw [show (s.setEnv e v).env u = s.env u from hv]
    exact {}

/-- An array of words with one element written. -/
theorem getD_set_fresh {y : Word} (h : ∀ x, FreshOr s n x y) (l : List Word) (k m : Nat) :
    FreshOr s n (l.getD m posZero) ((l.set k y).getD m posZero) := by
  rcases getD_set_cases l k m y posZero with ⟨-, hy⟩ | hy <;> rw [hy]
  · exact h _
  · exact FreshOr.same

theorem setLpf_fresh {f : UnitIx} {y : Word} (h : ∀ x, FreshOr s n x y) (u : UnitIx) :
    FreshOr s n (s.lpf u) ((s.setLpf f y).lpf u) := getD_set_fresh h _ _ _

theorem setHpf_fresh {f : UnitIx} {y : Word} (h : ∀ x, FreshOr s n x y) (u : UnitIx) :
    FreshOr s n (s.hpf u) ((s.setHpf f y).hpf u) := getD_set_fresh h _ _ _

theorem isNaN_posZero : isNaN posZero = false := rfl

theorem isNaN_one : isNaN one = false := rfl

/-- A write of a CSR draws for `SPERIOD` and `DC_K` alone (R43). -/
theorem writeCsr_fresh {r : Csr} {a : Word} (h : s.writeCsr r a = some t) : FreshNaNs s t := by
  cases r with
  | ctrl => cases h; exact {}
  | srate =>
    cases h
    exact { speriod := .result primitive_fdiv (by simp), dcK := .result primitive_fdiv (by simp) }
  | limCA => cases h; exact {}
  | limCR => cases h; exact {}
  | _ => cases h

/-- An increment is the first draw or no NaN (R134). -/
theorem increment_fresh {x : Word} (a : Word) (h : s.nanDraws < n) :
    FreshOr s n x (s.increment a) := .result primitive_fdiv h

/-- The position that the Gate's transitions leave is the one before or zero (R136). -/
theorem envTransition_pos (p : Params) (u : EnvUnit) (g : GateState) :
    (envTransition p u g).2 = u.pos ∨ (envTransition p u g).2 = posZero := by
  unfold envTransition
  split
  · exact .inr rfl
  · split <;> exact .inl rfl

/-- The position that an advance leaves is the one before, the second draw, or no NaN: the sustain
level is taken only where a comparison with it is true (R136). -/
theorem envAdvance_fresh (h : s.nanDraws + 1 < n) (u : EnvUnit) (dt : Word) (st : Stage)
    (x : Word) : FreshOr s n x (envAdvance (s.nan 0) (s.nan 1) u dt st x).2 := by
  cases st with
  | silence => exact .same
  | sustain => exact .same
  | attack =>
    simp only [envAdvance]
    split
    · exact .of_not_nan isNaN_one
    · exact .result primitive_fadd h
  | decay =>
    simp only [envAdvance]
    split
    next hle => exact .of_not_nan (fle_iff.1 hle).2.1
    next => exact .result primitive_fsub h
  | release =>
    simp only [envAdvance]
    split
    · exact .of_not_nan isNaN_posZero
    · exact .result primitive_fsub h

theorem envNext_fresh (h : s.nanDraws + 1 < n) (p : Params) (dt : Word) (u : EnvUnit)
    (a : Word) : FreshEnv s n u (envNext (s.nan 0) (s.nan 1) p dt u a) where
  pos := by
    have hadv := envAdvance_fresh h u dt (envTransition p u (gateNext u.gate a u.thr)).1
    simp only [envNext]
    rcases envTransition_pos p u (gateNext u.gate a u.thr) with hx | hx
    · rw [hx]
      exact hadv _
    · rw [hx]
      exact .through isNaN_posZero (hadv _)

/-- A lowpass state is zero or the result of the seventh operation (R161). -/
theorem lpfNext_fresh {x : Word} (h : s.nanDraws + 6 < n) (dt x0 a b : Word) :
    FreshOr s n x (lpfNext s.nan dt x0 a b) := by
  unfold lpfNext
  split
  · exact .of_not_nan isNaN_posZero
  · exact .result primitive_fadd h

theorem floorOne_fresh {x y : Word} (h : FreshOr s n x y) : FreshOr s n x (floorOne y) := by
  unfold floorOne
  split
  · exact .of_not_nan isNaN_one
  · exact h

theorem dcStep_fresh (s : State) (x : Word) : FreshNaNs s (s.dcStep x).1 :=
  { draws := Nat.le_add_right _ _
    dcAvg := .result primitive_fadd (Nat.add_lt_add_left (by decide) _) }

theorem limStep_fresh (s : State) (y : Word) : FreshNaNs s (s.limStep y).1 :=
  { draws := Nat.le_add_right _ _
    limEnv := floorOne_fresh (.result primitive_fadd (Nat.add_lt_add_left (by decide) _)) }

/-- Draws of the second of two computations in a row are draws of the whole. -/
theorem FreshOr.trans {x y z : Word} (hst : s.nanDraws ≤ t.nanDraws) (htn : t.nanDraws ≤ n)
    (hxy : FreshOr s t.nanDraws x y) (hyz : FreshOr t n y z) : FreshOr s n x z := by
  intro hz hne
  by_cases h : z = y
  · subst h
    obtain ⟨k, hk, hy⟩ := hxy hz hne
    exact ⟨k, by omega, hy⟩
  · obtain ⟨k, hk, rfl⟩ := hyz hz h
    have hsum : s.nanDraws + (t.nanDraws - s.nanDraws + k) = t.nanDraws + k := by omega
    refine ⟨t.nanDraws - s.nanDraws + k, by omega, ?_⟩
    rw [State.nan, State.nan, hsum]

theorem FreshEnv.trans {x y z : EnvUnit} (hst : s.nanDraws ≤ t.nanDraws) (htn : t.nanDraws ≤ n)
    (h : FreshEnv s t.nanDraws x y) (h' : FreshEnv t n y z) : FreshEnv s n x z where
  pos := h.pos.trans hst htn h'.pos
  atk := h.atk.trans hst htn h'.atk
  dec := h.dec.trans hst htn h'.dec
  rel := h.rel.trans hst htn h'.rel

theorem FreshNaNs.trans {u : State} (h : FreshNaNs s t) (h' : FreshNaNs t u) : FreshNaNs s u where
  draws := h.draws.trans h'.draws
  acc := h.acc.trans h.draws h'.draws h'.acc
  dcAvg := h.dcAvg.trans h.draws h'.draws h'.dcAvg
  limEnv := h.limEnv.trans h.draws h'.draws h'.limEnv
  speriod := h.speriod.trans h.draws h'.draws h'.speriod
  dcK := h.dcK.trans h.draws h'.draws h'.dcK
  lpf v := (h.lpf v).trans h.draws h'.draws (h'.lpf v)
  hpf v := (h.hpf v).trans h.draws h'.draws (h'.hpf v)
  env v := (h.env v).trans h.draws h'.draws (h'.env v)

end

/-! ## Every instruction and every step -/

section
variable {s t : State}

theorem execCsrRd_fresh {n : Imm} (h : execCsrRd n s = .next t) : FreshNaNs s t := by
  refine finish_fresh h ?_
  split
  · exact fresh_done {} _
  · trivial

theorem execCsrWr_fresh {n : Imm} {a : Word} (h : execCsrWr n a s = .next t) : FreshNaNs s t := by
  refine gated_fresh h ?_
  split
  · trivial
  · split
    · trivial
    next hw => exact fresh_done (writeCsr_fresh hw) _

theorem execBusAcc_fresh {v : UnitIx} {a : Word} (h : execBusAcc v a s = .next t) :
    FreshNaNs s t := by
  refine gated_fresh h (withUnit_fresh .voice v ?_)
  split
  · exact fresh_done { acc := .result primitive_fadd (by simp) } _
  · trivial

theorem execVoiceSet_fresh {v : UnitIx} {a b : Word} (h : execVoiceSet v a b s = .next t) :
    FreshNaNs s t := by
  refine gated_fresh h (withUnit_fresh .voice v ?_)
  split
  · trivial
  · exact fresh_done {} _

theorem execVoiceDel_fresh {a : Word} (h : execVoiceDel a s = .next t) : FreshNaNs s t := by
  refine gated_fresh h ?_
  split <;> exact fresh_done {} _

theorem execParamInit_fresh {v : UnitIx} {n : Imm} {a : Word}
    (h : execParamInit v n a s = .next t) : FreshNaNs s t := by
  refine gated_fresh h (withUnit_fresh .voice v (withIndex_fresh n ?_))
  split
  · exact fresh_done {} _
  · trivial

theorem execParamRd_fresh {v : UnitIx} {n : Imm} {a : Word}
    (h : execParamRd v n a s = .next t) : FreshNaNs s t := by
  refine gated_fresh h (withUnit_fresh .voice v (withIndex_fresh n ?_))
  split
  · exact fresh_done {} _
  · trivial

theorem execParamPost_fresh {n : Imm} {a b : Word} (h : execParamPost n a b s = .next t) :
    FreshNaNs s t := by
  refine gated_fresh h ?_
  split
  · exact fresh_done {} _
  · trivial

theorem execParamCommit_fresh (h : execParamCommit s = .next t) : FreshNaNs s t := by
  refine gated_fresh h ?_
  split
  · trivial
  · exact fresh_done {} _

theorem execPwWrite_fresh {o : Word} {n : Imm} {x : Word} (h : execPwWrite o n x s = .next t) :
    FreshNaNs s t := by
  unfold execPwWrite at h
  split at h <;> cases h <;> exact {}

/-- No instruction lowers the count of draws, and a NaN that it newly leaves in a computed register
is one of its own draws. -/
theorem exec_fresh {i : Instr} (h : exec i s = .next t) : FreshNaNs s t := by
  cases i with
  | nop => cases h; exact {}
  | csrRd n => exact execCsrRd_fresh h
  | csrWr n a => exact execCsrWr_fresh h
  | gateStep g a => exact gated_withUnit_fresh h {}
  | gateCfg g a => exact gated_withUnit_fresh h {}
  | gateRd g => exact gated_withUnit_fresh h {}
  | gateInit g => exact gated_withUnit_fresh h {}
  | envInit e m =>
    exact gated_withUnit_fresh h { env := setEnv_fresh { pos := .of_not_nan isNaN_posZero } }
  | envAtk e a =>
    exact gated_withUnit_fresh h { env := setEnv_fresh { atk := increment_fresh a (by simp) } }
  | envDec e a =>
    exact gated_withUnit_fresh h { env := setEnv_fresh { dec := increment_fresh a (by simp) } }
  | envRel e a =>
    exact gated_withUnit_fresh h { env := setEnv_fresh { rel := increment_fresh a (by simp) } }
  | envSus e a => exact gated_withUnit_fresh h { env := setEnv_fresh {} }
  | envThr e a => exact gated_withUnit_fresh h { env := setEnv_fresh {} }
  | envStep e a =>
    exact gated_withUnit_fresh h { env := setEnv_fresh (envNext_fresh (by simp) _ _ _ _) }
  | envRdPos e => exact gated_withUnit_fresh h {}
  | envRdStg e => exact gated_withUnit_fresh h {}
  | envRdGate e => exact gated_withUnit_fresh h {}
  | lpfStep f a b =>
    exact gated_withUnit_fresh h { lpf := setLpf_fresh fun _ => lpfNext_fresh (by simp) _ _ _ _ }
  | lpfInit f =>
    exact gated_withUnit_fresh h { lpf := setLpf_fresh fun _ => .of_not_nan isNaN_posZero }
  | lpfRd f => exact gated_withUnit_fresh h {}
  | hpfStep f a b =>
    exact gated_withUnit_fresh h { hpf := setHpf_fresh fun _ => .result primitive_fsub (by simp) }
  | hpfInit f =>
    exact gated_withUnit_fresh h { hpf := setHpf_fresh fun _ => .of_not_nan isNaN_posZero }
  | hpfRd f => exact gated_withUnit_fresh h {}
  | dcbStep a => exact gated_fresh h (fresh_done (dcStep_fresh s a) _)
  | limStep a => exact gated_fresh h (fresh_done (limStep_fresh s a) _)
  | busMaster =>
    exact gated_fresh h (fresh_done ((dcStep_fresh s s.acc).trans (limStep_fresh _ _)) _)
  | busClr => exact gated_fresh h (fresh_done { acc := .of_not_nan isNaN_posZero } _)
  | busAcc v a => exact execBusAcc_fresh h
  | voiceSet v a b => exact execVoiceSet_fresh h
  | voiceDel a => exact execVoiceDel_fresh h
  | paramInit v n a => exact execParamInit_fresh h
  | paramRd v n a => exact execParamRd_fresh h
  | paramPost n a b => exact execParamPost_fresh h
  | paramCommit => exact execParamCommit_fresh h
  | pwWrite o n x => exact execPwWrite_fresh h

theorem runCommand_nanDraws_le {c : Command} (h : runCommand c s = .next t) :
    s.nanDraws ≤ t.nanDraws := by
  rcases runCommand_cases c s with ⟨i, -, hr⟩ | ⟨op, -, hr⟩ | ⟨w, -, hr⟩ <;> rw [hr] at h
  · exact (exec_fresh h).draws
  · exact (gated_fresh h (fresh_raise _ _)).draws
  · exact (gated_fresh h (fresh_raise _ _)).draws

theorem hostTurn_nanDraws_le (h : hostTurn s = .next t) : s.nanDraws ≤ t.nanDraws := by
  rcases hostTurn_cases s with ⟨r, -, ht⟩ | ⟨c, rest, -, -, ht⟩ | ⟨-, -, ht⟩ <;> rw [ht] at h
  · cases h; exact Nat.le_refl _
  · have hle := runCommand_nanDraws_le h
    exact hle
  · cases h; exact Nat.le_refl _

theorem writerTurn_nanDraws (h : writerTurn s = .next t) : t.nanDraws = s.nanDraws := by
  rcases writerTurn_cases s with ⟨e, rest, -, -, ht⟩ | ⟨-, ht⟩ <;> rw [ht] at h <;> cases h <;> rfl

/-- No step lowers the count of draws, a reset neither. -/
theorem step_nanDraws_le (h : step s = .next t) : s.nanDraws ≤ t.nanDraws := by
  rcases step_cases s with ⟨-, hs⟩ | ⟨rest, -, hs⟩ | ⟨rest, -, hs⟩ | ⟨rest, -, hs⟩ <;> rw [hs] at h
  · cases h; exact Nat.le_refl _
  · have hle := hostTurn_nanDraws_le h
    exact hle
  · exact Nat.le_of_eq (writerTurn_nanDraws h).symm
  · cases h; exact Nat.le_refl _

end

/-- Settles O60: the primitives by what each gives as its draw varies, the commands by
`exec_fresh`. -/
theorem nanResultsAreFreshDraws : Obligations.NanResultsAreFreshDraws := by
  refine ⟨fun n a b _ => ⟨primitive_fadd.eq_draw, primitive_fsub.eq_draw, primitive_fmul.eq_draw,
      primitive_fdiv.eq_draw⟩,
    fun n m a b c d hn hm hac hbd => ⟨primitive_fadd.sameFloat_congr hn hm hac hbd,
      primitive_fsub.sameFloat_congr hn hm hac hbd, primitive_fmul.sameFloat_congr hn hm hac hbd,
      primitive_fdiv.sameFloat_congr hn hm hac hbd, flt_fle_sameFloat hac hbd⟩,
    isNaN_nan, fun s t => step_nanDraws_le, fun i s t h => ?_⟩
  have hf := exec_fresh h
  exact ⟨hf.draws, hf.acc, hf.dcAvg, hf.limEnv, hf.speriod, hf.dcK, fun u =>
    ⟨hf.lpf u, hf.hpf u, (hf.env u).pos, (hf.env u).atk, (hf.env u).dec, (hf.env u).rel⟩⟩

end Sys2Proof.Machine
end

section
/-! The control and status registers: what CSR.RD and CSR.WR answer for each number (R241, R242), and
where the packed ones put their fields (R35 to R42). -/

namespace Sys2Proof.Machine

/-! ## Reads and writes by number -/

theorem exec_csrRd_number (r : Csr) (s : State) :
    exec (.csrRd r.number) s = .next (s.respond (s.readCsr r)) := by
  change execCsrRd r.number s = _
  rw [execCsrRd, csrOfNumber_number]
  rfl

theorem exec_csrRd_reserved {n : Imm} {s : State} (hn : csrOfNumber n = none)
    (hs : s.fault = false) :
    exec (.csrRd n) s = .next (s.faulted (commandWord (.csrRd n)) 0x05 (zext32 n)) := by
  change execCsrRd n s = _
  rw [execCsrRd, hn, finish_raise, takeFault_running hs]
  rfl

theorem exec_csrWr_done {r : Csr} {a : Word} {s t : State} (hs : s.fault = false)
    (hw : s.writeCsr r a = some t) : exec (.csrWr r.number a) s = .next (t.respond 0) := by
  change execCsrWr r.number a s = _
  rw [execCsrWr, csrOfNumber_number]
  simp only [hw]
  exact gated_done hs _ t 0

/-- A reserved number and a read-only register fault alike (R242, R267). -/
theorem exec_csrWr_refused {n : Imm} {a : Word} {s : State} (hs : s.fault = false)
    (hn : ∀ r, csrOfNumber n = some r → s.writeCsr r a = none) :
    exec (.csrWr n a) s = .next (s.faulted (commandWord (.csrWr n a)) 0x05 (zext32 n)) := by
  change execCsrWr n a s = _
  rw [execCsrWr]
  cases hc : csrOfNumber n with
  | none => exact gated_raise hs _ .csrAccess _
  | some r =>
    simp only [hn r hc]
    exact gated_raise hs _ .csrAccess _

/-- Settles O10: each of the 13 numbers is a CSR's own, read by `exec_csrRd_number`. -/
theorem csrReadGivesTheRegister : Obligations.CsrReadGivesTheRegister := fun s =>
  ⟨exec_csrRd_number .id s, exec_csrRd_number .finfo s, exec_csrRd_number .faux s,
    exec_csrRd_number .srate s, exec_csrRd_number .speriod s, exec_csrRd_number .dcK s,
    exec_csrRd_number .limCA s, exec_csrRd_number .limCR s, exec_csrRd_number .headroom s,
    exec_csrRd_number .envEps s, exec_csrRd_number .dcAvg s, exec_csrRd_number .limEnv s,
    exec_csrRd_number .acc s⟩

/-- Settles O12: the NaNs of the two quotients are the first two draws. -/
theorem csrWriteOfEachWritableRegister : Obligations.CsrWriteOfEachWritableRegister :=
  fun s a hs =>
    ⟨exec_csrWr_done (r := .ctrl) hs rfl, exec_csrWr_done (r := .limCA) hs rfl,
      exec_csrWr_done (r := .limCR) hs rfl, s.nan 0, s.nan 1, (s.writeSrate a).respond 0,
      isNaN_nan s 0, isNaN_nan s 1, exec_csrWr_done (r := .srate) hs rfl, rfl, rfl, rfl, rfl, rfl⟩

/-! ## The CSR map (R33) -/

theorem csrOfNumber_none {n : Imm} (h : ∀ r : Csr, r.number ≠ n) : csrOfNumber n = none := by
  cases hc : csrOfNumber n with
  | none => rfl
  | some r => exact absurd (number_of_csrOfNumber hc) (h r)

theorem writeCsr_none {r : Csr} (h : r.number.toNat ∉ [0x00B, 0x010, 0x013, 0x014]) (s : State)
    (a : Word) : s.writeCsr r a = none := by
  cases r with
  | ctrl | srate | limCA | limCR => exact absurd (by decide) h
  | _ => rfl

/-- Settles O13: every CSR's number is in the list of the first clause, and every writable CSR's in
that of the second. -/
theorem reservedAndReadOnlyCsrsFault : Obligations.ReservedAndReadOnlyCsrsFault := by
  intro s n a hs
  rw [← zext32_eq]
  refine ⟨fun hn => exec_csrRd_reserved (csrOfNumber_none ?_) hs,
    fun hn => exec_csrWr_refused hs ?_⟩
  · rintro r rfl
    exact hn (by cases r <;> decide)
  · intro r hr
    obtain rfl := number_of_csrOfNumber hr
    exact writeCsr_none hn s a

/-! ## Packed CSRs (R35 to R42) -/

/-- The value of two fields laid side by side. -/
theorem toNat_append_add {m n : Nat} (hi : BitVec m) (lo : BitVec n) :
    (hi ++ lo).toNat = lo.toNat + hi.toNat * 2 ^ n := by
  rw [BitVec.toNat_append, ← Nat.shiftLeft_add_eq_or_of_lt lo.isLt, Nat.shiftLeft_eq, Nat.add_comm]

theorem toNat_halves {hi lo : Nat} (hh : hi < 2 ^ 16) (hl : lo < 2 ^ 16) :
    (halves hi lo).toNat = lo + hi * 2 ^ 16 := by
  rw [halves, toNat_append_add, BitVec.toNat_ofNat, BitVec.toNat_ofNat, Nat.mod_eq_of_lt hh,
    Nat.mod_eq_of_lt hl]

theorem toNat_status (s : State) : s.status.toNat = s.fault.toNat + s.cause.toNat * 2 ^ 8 := by
  calc s.status.toNat
      = (BitVec.ofBool s.fault).toNat + (0#16 ++ s.cause ++ 0#7).toNat * 2 ^ 1 :=
        toNat_append_add _ _
    _ = s.fault.toNat + s.cause.toNat * 2 ^ 8 := by
        rw [toNat_append_add, toNat_append_add, BitVec.toNat_ofBool, BitVec.toNat_ofNat,
          BitVec.toNat_ofNat]
        omega

theorem toNat_ctrl (s : State) : s.ctrl.toNat = s.fie.toNat :=
  (toNat_append_add 0#31 (BitVec.ofBool s.fie)).trans (by simp)

/-- A read of a CSR, by the value of its word. -/
theorem exec_csrRd_toNat {r : Csr} {s : State} {v : Nat} (hv : (s.readCsr r).toNat = v) :
    exec (.csrRd r.number) s = .next { s with rsp := some ⟨BitVec.ofNat 32 v, false⟩ } ∧
      v < 2 ^ 32 := by
  subst hv
  refine ⟨?_, (s.readCsr r).isLt⟩
  rw [exec_csrRd_number, BitVec.ofNat_toNat, BitVec.setWidth_eq]
  rfl

/-- Every count of a legal machine fits in 16 bits (R7). -/
theorem counts_lt_of_legal {p : Params} (h : p.legal = true) :
    (∀ k, p.count k < 2 ^ 16) ∧ p.nParam < 2 ^ 16 ∧ p.pwqDepth < 2 ^ 16 := by
  simp only [Params.legal, Bool.and_eq_true, decide_eq_true_eq] at h
  refine ⟨fun k => ?_, by omega, by omega⟩
  cases k <;> simp only [Params.count] <;> omega

/-- Settles O11: each packed word's value is the sum of its fields at their places. -/
theorem csrFieldsReadAsLaidOut : Obligations.CsrFieldsReadAsLaidOut := by
  intro s hp hq
  obtain ⟨hcount, hparam, hdepth⟩ := counts_lt_of_legal hp
  have hlevel := Nat.lt_of_le_of_lt hq hdepth
  exact ⟨exec_csrRd_toNat (r := .caps0) (toNat_halves (hcount .env) (hcount .gate)),
    exec_csrRd_toNat (r := .caps1) (toNat_halves (hcount .hpf) (hcount .lpf)),
    exec_csrRd_toNat (r := .caps2) (toNat_halves hparam (hcount .voice)),
    exec_csrRd_toNat (r := .caps3) (toNat_halves (by decide) hdepth),
    exec_csrRd_toNat (r := .status) (toNat_status s),
    exec_csrRd_toNat (r := .ctrl) (toNat_ctrl s),
    exec_csrRd_toNat (r := .pwqlvl) (toNat_halves (by decide) hlevel)⟩

end Sys2Proof.Machine
end

section
/-! The parts of the invariant `State.Wf` that a command has to compute to keep: the stages of AR
units (R131), the voice slots (R200), and the sign of `ACC` (R231). -/

namespace Sys2Proof.Machine

/-! ## Envelope stages (R131) -/

/-- An AR unit holds neither Decay nor Sustain. -/
def ArStage (u : EnvUnit) : Prop := u.mode = .ar → u.stage ≠ .decay ∧ u.stage ≠ .sustain

theorem arStage_of_adsr {u : EnvUnit} (h : u.mode = .adsr) : ArStage u := fun hm => by
  rw [h] at hm
  cases hm

theorem arStage_env {s : State} (h : s.Wf) (e : UnitIx) : ArStage (s.env e) := by
  unfold State.env
  by_cases he : e.toNat < s.envs.length
  · rw [List.getD_eq_getElem _ _ he]
    exact h.arStages _ (List.getElem_mem he)
  · rw [List.getD_eq_default _ _ (Nat.not_lt.1 he)]
    exact fun _ => by decide

/-- The Gate's transitions take an AR unit to no stage but Attack (R135, R136). -/
theorem envTransition_ar {p : Params} {u : EnvUnit} (g : GateState) (hm : u.mode = .ar) :
    (envTransition p u g).1 = .attack ∨ (envTransition p u g).1 = u.stage := by
  unfold envTransition
  split
  · exact .inl rfl
  · rw [hm]
    exact .inr rfl

/-- An AR unit advances from Attack to Release, and from no stage to Decay or Sustain (R136). -/
theorem envAdvance_ar {nan0 nan1 dt x : Word} {u : EnvUnit} {st : Stage} (hm : u.mode = .ar)
    (hst : st ≠ .decay ∧ st ≠ .sustain) :
    (envAdvance nan0 nan1 u dt st x).1 ≠ .decay ∧
      (envAdvance nan0 nan1 u dt st x).1 ≠ .sustain := by
  cases st with
  | silence => exact hst
  | decay => exact absurd rfl hst.1
  | sustain => exact absurd rfl hst.2
  | attack =>
    simp only [envAdvance, if_pos hm]
    split <;> exact ⟨nofun, nofun⟩
  | release =>
    simp only [envAdvance]
    split <;> exact ⟨nofun, nofun⟩

theorem arStage_envNext {nan0 nan1 dt a : Word} {p : Params} {u : EnvUnit} (h : ArStage u) :
    ArStage (envNext nan0 nan1 p dt u a) := by
  intro (hm : u.mode = .ar)
  refine envAdvance_ar hm ?_
  rcases envTransition_ar (p := p) (gateNext u.gate a u.thr) hm with hst | hst <;> rw [hst]
  · decide
  · exact h hm

/-! ## The voice slots (R31, R200) -/

/-- The clauses of `State.Wf` about the voice slots, with SynthIDs compared slot by slot. -/
structure SlotsWf (p : Params) (voices : List Voice) : Prop where
  length : voices.length = p.nVoice
  rows : ∀ x ∈ voices, x.params.length = p.nParam
  ids : ∀ {i j : Nat} {x y : Voice}, voices[i]? = some x → voices[j]? = some y →
    x.active = true → y.active = true → x.id = y.id → i = j

theorem nodup_ids_iff {voices : List Voice} :
    ((voices.filter (·.active)).map (·.id)).Nodup ↔
      ∀ {i j : Nat} {x y : Voice}, voices[i]? = some x → voices[j]? = some y →
        x.active = true → y.active = true → x.id = y.id → i = j := by
  rw [List.nodup_iff_pairwise_ne, List.pairwise_map, List.pairwise_filter,
    List.pairwise_iff_getElem]
  constructor
  · intro h i j x y hx hy hax hay hid
    obtain ⟨hi, rfl⟩ := List.getElem?_eq_some_iff.1 hx
    obtain ⟨hj, rfl⟩ := List.getElem?_eq_some_iff.1 hy
    rcases Nat.lt_trichotomy i j with hlt | heq | hgt
    · exact absurd hid (h i j hi hj hlt hax hay)
    · exact heq
    · exact absurd hid.symm (h j i hj hi hgt hay hax)
  · intro h i j hi hj hlt hax hay hid
    exact Nat.ne_of_lt hlt
      (h (List.getElem?_eq_getElem hi) (List.getElem?_eq_getElem hj) hax hay hid)

theorem State.Wf.slots {s : State} (h : s.Wf) : SlotsWf s.params s.voices :=
  ⟨h.voicesLength, h.rowsLength, nodup_ids_iff.1 h.idsUnique⟩

/-- A change of one slot that keeps its row's size, and that leaves it active only if it was, and
with the SynthID it had. -/
theorem SlotsWf.modify {p : Params} {voices : List Voice} (h : SlotsWf p voices) (v : Nat)
    {f : Voice → Voice} (hrow : ∀ x, (f x).params.length = x.params.length)
    (hid : ∀ x, (f x).active = true → x.active = true ∧ (f x).id = x.id) :
    SlotsWf p (voices.modify v f) := by
  have hget {i : Nat} {y : Voice} (hy : (voices.modify v f)[i]? = some y) :
      ∃ x, voices[i]? = some x ∧ (y = f x ∨ y = x) := by
    rw [List.getElem?_modify] at hy
    obtain ⟨x, hx, rfl⟩ := Option.map_eq_some_iff.1 hy
    refine ⟨x, hx, ?_⟩
    split
    · exact .inl rfl
    · exact .inr rfl
  have hact {i : Nat} {y : Voice} (hy : (voices.modify v f)[i]? = some y)
      (ha : y.active = true) : ∃ x, voices[i]? = some x ∧ x.active = true ∧ y.id = x.id := by
    obtain ⟨x, hx, rfl | rfl⟩ := hget hy
    · exact ⟨x, hx, hid x ha⟩
    · exact ⟨y, hx, ha, rfl⟩
  refine ⟨by rw [List.length_modify, h.length], fun y hy => ?_, fun hx hy hax hay hxy => ?_⟩
  · obtain ⟨i, hi⟩ := List.mem_iff_getElem?.1 hy
    obtain ⟨x, hx, rfl | rfl⟩ := hget hi
    · rw [hrow, h.rows x (List.mem_of_getElem? hx)]
    · exact h.rows y (List.mem_of_getElem? hx)
  · obtain ⟨x', hx', hax', hxid⟩ := hact hx hax
    obtain ⟨y', hy', hay', hyid⟩ := hact hy hay
    exact h.ids hx' hy' hax' hay' (hxid.symm.trans (hxy.trans hyid))

theorem heldElsewhere_false {voices : List Voice} {v : Nat} {o : Word}
    (h : heldElsewhere voices v o = false) {i : Nat} {x : Voice} (hx : voices[i]? = some x)
    (ha : x.active = true) (ho : x.id = o) : i = v := by
  by_contra hne
  have hheld : heldElsewhere voices v o = true := by
    refine List.any_eq_true.2 ⟨(x, i), List.mem_zipIdx_iff_getElem?.2 hx, ?_⟩
    rw [Bool.and_eq_true]
    exact ⟨bne_iff_ne.2 hne, (holds_iff x o).2 ⟨ha, ho⟩⟩
  rw [h] at hheld
  cases hheld

/-- A voice installed with a SynthID that no other active slot holds (R208). -/
theorem SlotsWf.set {p : Params} {voices : List Voice} (h : SlotsWf p voices) {v : Nat} {x : Voice}
    (hrow : x.params.length = p.nParam) (hid : heldElsewhere voices v x.id = false) :
    SlotsWf p (voices.set v x) := by
  have hget {i : Nat} {y : Voice} (hy : (voices.set v x)[i]? = some y) :
      i = v ∧ y = x ∨ voices[i]? = some y := by
    rw [List.getElem?_set] at hy
    split at hy
    next hv =>
      split at hy
      · cases hy
        exact .inl ⟨hv.symm, rfl⟩
      · cases hy
    next => exact .inr hy
  refine ⟨by rw [List.length_set, h.length], fun y hy => ?_, fun hy hz hay haz hyz => ?_⟩
  · rcases List.mem_or_eq_of_mem_set hy with hy | rfl
    · exact h.rows y hy
    · exact hrow
  · rcases hget hy with ⟨hi, rfl⟩ | hy' <;> rcases hget hz with ⟨hj, rfl⟩ | hz'
    · rw [hi, hj]
    · rw [hi, heldElsewhere_false hid hz' haz hyz.symm]
    · rw [hj, heldElsewhere_false hid hy' hay hyz]
    · exact h.ids hy' hz' hay haz hyz

theorem SlotsWf.setParam {p : Params} {voices : List Voice} (h : SlotsWf p voices) (v : Nat)
    (n : Imm) (x : Word) : SlotsWf p (voices.modify v (·.setParam n x)) :=
  h.modify v (fun y => setParam_params_length y n x) fun _ ha => ⟨ha, rfl⟩

theorem SlotsWf.applyBatch {p : Params} {voices : List Voice} (h : SlotsWf p voices)
    (batch : List Event) : SlotsWf p (applyBatch voices batch) := by
  induction batch generalizing voices with
  | nil => exact h
  | cons e es ih =>
    refine ih ?_
    unfold applyEvent
    split
    · exact h.setParam _ _ _
    · exact h

/-- A write of one element computed from what it was. -/
theorem set_getD_eq_modify {α : Type} (l : List α) (n : Nat) (d : α) (f : α → α) :
    l.set n (f (l.getD n d)) = l.modify n f := by
  by_cases hn : n < l.length
  · rw [List.getD_eq_getElem _ _ hn, List.modify_eq_set_getElem?, List.getElem?_eq_getElem hn]
    rfl
  · rw [List.set_eq_of_length_le (Nat.not_lt.1 hn), List.modify_eq_self (Nat.not_lt.1 hn)]

/-! ## The sum (R231) -/

theorem roundMag_eq_zero {m : Nat} (h : roundMag m 1 = 0) : m = 0 := by
  by_contra hm
  have hle : magBits (1 : Word) ≤ roundMag m 1 :=
    le_roundMag (by decide) 1 (by decide) (by rw [show magUnits (1 : Word) = 1 from rfl]; omega)
  rw [h] at hle
  exact absurd hle (by decide)

theorem eq_negZero_of_magUnits {a : Word} (hf : isFinite a = true) (hn : isNeg a = true)
    (hu : magUnits a = 0) : a = negZero := by
  have hm := roundMag_magUnits a ((isFinite_iff a).1 hf)
  rw [hu] at hm
  exact word_eq_of hn hm.symm

/-- A sum of finite values is `-0` only where both are (R11). -/
theorem eq_negZero_of_fadd {n a b : Word} (ha : isFinite a = true) (hb : isFinite b = true)
    (h : fadd n a b = negZero) : a = negZero := by
  rw [fadd_eq_withSign ha hb] at h
  have hbits := congrArg magBits h
  have hsign := congrArg isNeg h
  rw [magBits_withSign _ _ (roundMag_lt _ _)] at hbits
  rw [isNeg_withSign _ _ (roundMag_lt _ _)] at hsign
  have hsum : units a + units b = 0 := Int.natAbs_eq_zero.1 (roundMag_eq_zero hbits)
  rw [sumNeg, if_pos hsum] at hsign
  obtain ⟨hna, hnb⟩ := Bool.and_eq_true_iff.1 hsign
  rw [units, units, if_pos hna, if_pos hnb] at hsum
  exact eq_negZero_of_magUnits ha hna (by omega)

/-- Adding to a value other than `-0` never gives `-0`, so `ACC` does not become `-0` (R231). -/
theorem fadd_ne_negZero {n a b : Word} (hn : isNaN n = true) (ha : a ≠ negZero) :
    fadd n a b ≠ negZero := by
  have hdraw : n ≠ negZero := fun h => by
    rw [h] at hn
    cases hn
  by_cases hnan : isNaN a = true ∨ isNaN b = true
  · rwa [fadd_nan hnan]
  · rw [not_or, Bool.not_eq_true, Bool.not_eq_true] at hnan
    obtain ⟨hna, hnb⟩ := hnan
    rcases isInf_or_isFinite hna with hfa | hfa
    · rw [fadd_inf_left hfa hnb]
      split
      · exact hdraw
      · exact ha
    · rcases isInf_or_isFinite hnb with hfb | hfb
      · rw [fadd_inf_right hfa hfb]
        intro h
        rw [h] at hfb
        cases hfb
      · exact fun h => ha (eq_negZero_of_fadd hfa hfb h)

end Sys2Proof.Machine
end

section
/-! What every step keeps: each write of a register, each instruction from the writes, each step from
the instructions, and O56 from the steps. -/

namespace Sys2Proof.Machine

/-! ## What is kept from one state to another -/

/-- What every step keeps: the implementation parameters, and well-formedness. -/
structure KeepsWf (s t : State) : Prop where
  params : t.params = s.params := by rfl
  wf : s.Wf → t.Wf

/-- What every command but PARAM.POST and PARAM.COMMIT keeps: `PWQ` too (R48). -/
structure Keeps (s t : State) : Prop extends KeepsWf s t where
  pwq : t.pwq = s.pwq := by rfl

theorem KeepsWf.trans {s t u : State} (h : KeepsWf s t) (h' : KeepsWf t u) : KeepsWf s u where
  params := h'.params.trans h.params
  wf hs := h'.wf (h.wf hs)

theorem Keeps.trans {s t u : State} (h : Keeps s t) (h' : Keeps t u) : Keeps s u where
  toKeepsWf := h.toKeepsWf.trans h'.toKeepsWf
  pwq := h'.pwq.trans h.pwq

section
variable {s t : State}

theorem keeps_refl (s : State) : Keeps s s where
  wf h := h

/-- The invariant does not speak of the ports, the response or the turns. -/
theorem keeps_ports (s : State) (r : Option Response) (c : List Command) (p : List Event)
    (q : List Turn) : Keeps s { s with rsp := r, cmdPort := c, pwPort := p, sched := q } where
  wf h := { h with }

theorem keeps_respond (s : State) (d : Word) : Keeps s (s.respond d) := keeps_ports s _ _ _ _

theorem keeps_respondError (s : State) : Keeps s s.respondError := keeps_ports s _ _ _ _

theorem keeps_faulted (s : State) (w : Word) (c : Cause) (aux : Word) :
    Keeps s (s.faulted w c.code aux) where
  wf h := { h with
    noFault := nofun
    faultCause := fun _ => code_range c }

theorem keeps_drew (s : State) (n : Nat) : Keeps s (s.drew n) where
  wf h := { h with }

theorem Keeps.drew (h : Keeps s t) (n : Nat) : Keeps s (t.drew n) := h.trans (keeps_drew t n)

/-! ## What each register's write keeps -/

theorem keeps_setGate (s : State) (g : UnitIx) (u : GateUnit) : Keeps s (s.setGate g u) where
  wf h := { h with gatesLength := (List.length_set ..).trans h.gatesLength }

theorem keeps_setLpf (s : State) (f : UnitIx) (x : Word) : Keeps s (s.setLpf f x) where
  wf h := { h with lpfsLength := (List.length_set ..).trans h.lpfsLength }

theorem keeps_setHpf (s : State) (f : UnitIx) (x : Word) : Keeps s (s.setHpf f x) where
  wf h := { h with hpfsLength := (List.length_set ..).trans h.hpfsLength }

theorem keeps_setEnv {e : UnitIx} {u : EnvUnit} (hu : ArStage (s.env e) → ArStage u) :
    Keeps s (s.setEnv e u) where
  wf h := { h with
    envsLength := (List.length_set ..).trans h.envsLength
    arStages := fun x hx => by
      rcases List.mem_or_eq_of_mem_set hx with hx | rfl
      · exact h.arStages x hx
      · exact hu (arStage_env h e) }

theorem keeps_setEnv_drew {e : UnitIx} {u : EnvUnit} {n : Nat}
    (hu : ArStage (s.env e) → ArStage u) : Keeps s ((s.setEnv e u).drew n) :=
  (keeps_setEnv hu).drew n

theorem keeps_voices {voices : List Voice}
    (hv : SlotsWf s.params s.voices → SlotsWf s.params voices) :
    Keeps s { s with voices := voices } where
  wf h := { h with
    voicesLength := (hv h.slots).length
    rowsLength := (hv h.slots).rows
    idsUnique := nodup_ids_iff.2 (hv h.slots).ids }

theorem keeps_acc {x : Word} (hx : s.acc ≠ negZero → x ≠ negZero) :
    Keeps s { s with acc := x } where
  wf h := { h with accSign := hx h.accSign }

theorem keeps_dcStep (s : State) (x : Word) : Keeps s (s.dcStep x).1 where
  wf h := { h with }

theorem keeps_limStep (s : State) (y : Word) : Keeps s (s.limStep y).1 where
  wf h := { h with limFloor := floorOne_not_below _ }

/-- The quotient that a command computes is the one `State.Wf` names, up to its NaN. -/
theorem sameFloat_fdiv_draw (s : State) (k : Nat) (a b : Word) :
    sameFloat (fdiv (s.nan k) a b) (fdiv someNaN a b) = true :=
  primitive_fdiv.sameFloat_congr (isNaN_nan s k) rfl (sameFloat_iff.2 (.inl rfl))
    (sameFloat_iff.2 (.inl rfl))

theorem keeps_writeCsr {r : Csr} {a : Word} (h : s.writeCsr r a = some t) : Keeps s t := by
  cases r with
  | ctrl | limCA | limCR => cases h; exact { wf := fun h => { h with } }
  | srate =>
    cases h
    exact { wf := fun h => { h with
      speriodDerived := sameFloat_fdiv_draw s 0 one a
      dcKDerived := sameFloat_fdiv_draw s 1 half a } }
  | _ => cases h

/-- An event appended while there is room (R202, R203, R204). -/
theorem keepsWf_append (e : Event) (hroom : s.pwq.length < s.params.pwqDepth) :
    KeepsWf s (s.append e) where
  wf h := { h with
    pwqBound := by
      rw [append_pwq, List.length_append]
      exact hroom }

/-- A batch applied and `PWQ` emptied (R205). -/
theorem keepsWf_commit (s : State) :
    KeepsWf s { s with voices := applyBatch s.voices s.pwq, pwq := [] } where
  wf h := { (keeps_voices fun hv => hv.applyBatch s.pwq).wf h with pwqBound := Nat.zero_le _ }

end

/-! ## Commands in general -/

/-- `P` of the state with which a command's body completes. -/
def Effect.Leaves (P : State → Prop) : Effect → Prop
  | .done t _ => P t
  | .raise _ _ => True

section
variable {s t : State} {w : Word} {e : Effect}

theorem withUnit_leaves {P : State → Prop} {k : UnitKind} {u : UnitIx} (he : e.Leaves P) :
    (withUnit s k u e).Leaves P := by
  unfold withUnit
  split
  · exact he
  · trivial

theorem withIndex_leaves {P : State → Prop} {n : Imm} (he : e.Leaves P) :
    (withIndex s n e).Leaves P := by
  unfold withIndex
  split
  · exact he
  · trivial

theorem keeps_takeFault (s : State) (w : Word) (c : Cause) (aux : Word) :
    Keeps s (s.takeFault w c aux) := by
  cases hf : s.fault with
  | true =>
    rw [takeFault_halted hf]
    exact keeps_respondError s
  | false =>
    rw [takeFault_running hf]
    exact keeps_faulted s w c aux

theorem finish_keeps (h : finish w s e = .next t) (he : e.Leaves (Keeps s)) : Keeps s t := by
  rcases finish_next h with ⟨u, d, rfl, rfl⟩ | ⟨c, aux, -, rfl⟩
  · exact Keeps.trans he (keeps_respond u d)
  · exact keeps_takeFault s w c aux

theorem gated_keeps (h : gated w s e = .next t) (he : e.Leaves (Keeps s)) : Keeps s t := by
  rcases gated_next h with ⟨-, rfl⟩ | ⟨-, u, d, rfl, rfl⟩ | ⟨-, c, aux, -, rfl⟩
  · exact keeps_respondError s
  · exact Keeps.trans he (keeps_respond u d)
  · exact keeps_faulted s w c aux

/-- A command on a unit whose body always completes. -/
theorem gated_withUnit_keeps {k : UnitKind} {u : UnitIx} {r : State} {d : Word}
    (h : gated w s (withUnit s k u (.done r d)) = .next t) (hr : Keeps s r) : Keeps s t :=
  gated_keeps h (withUnit_leaves (e := .done r d) hr)

end

/-! ## Every instruction -/

section
variable {s t : State}

theorem execCsrRd_keeps {n : Imm} (h : execCsrRd n s = .next t) : Keeps s t := by
  refine finish_keeps h ?_
  split
  · exact keeps_refl s
  · trivial

theorem execCsrWr_keeps {n : Imm} {a : Word} (h : execCsrWr n a s = .next t) : Keeps s t := by
  refine gated_keeps h ?_
  split
  · trivial
  · split
    · trivial
    next hw => exact keeps_writeCsr hw

theorem execBusAcc_keeps {v : UnitIx} {a : Word} (h : execBusAcc v a s = .next t) :
    Keeps s t := by
  refine gated_keeps h (withUnit_leaves ?_)
  split
  · exact (keeps_acc (fadd_ne_negZero (isNaN_nan s 1))).drew 2
  · trivial

theorem execVoiceSet_keeps {v : UnitIx} {a b : Word} (h : execVoiceSet v a b s = .next t) :
    Keeps s t := by
  refine gated_keeps h (withUnit_leaves ?_)
  split
  · trivial
  next hid =>
    exact keeps_voices fun hv => hv.set List.length_replicate (Bool.eq_false_of_not_eq_true hid)

theorem execVoiceDel_keeps {a : Word} (h : execVoiceDel a s = .next t) : Keeps s t := by
  refine gated_keeps h ?_
  split
  · exact keeps_voices fun hv => hv.modify _ (fun _ => rfl) nofun
  · exact keeps_refl s

theorem execParamInit_keeps {v : UnitIx} {n : Imm} {a : Word}
    (h : execParamInit v n a s = .next t) : Keeps s t := by
  refine gated_keeps h (withUnit_leaves (withIndex_leaves ?_))
  split
  · refine keeps_voices fun hv => ?_
    rw [State.voice, set_getD_eq_modify s.voices v.toNat (Voice.initial 0) (·.setParam n a)]
    exact hv.setParam v.toNat n a
  · trivial

theorem execParamRd_keeps {v : UnitIx} {n : Imm} {a : Word}
    (h : execParamRd v n a s = .next t) : Keeps s t := by
  refine gated_keeps h (withUnit_leaves (withIndex_leaves ?_))
  split
  · exact keeps_refl s
  · trivial

/-- The instructions that write `PWQ` (R48): two commands and the port transaction. -/
def writesPwq : Instr → Bool
  | .paramPost _ _ _ => true
  | .paramCommit => true
  | .pwWrite _ _ _ => true
  | _ => false

/-- Every instruction that is not in that list, by the one register it writes (R87). -/
theorem exec_keeps {i : Instr} (hi : writesPwq i = false) (h : exec i s = .next t) :
    Keeps s t := by
  cases i with
  | nop => cases h; exact keeps_respond s _
  | csrRd n => exact execCsrRd_keeps h
  | csrWr n a => exact execCsrWr_keeps h
  | gateRd _ | envRdPos _ | envRdStg _ | envRdGate _ | lpfRd _ | hpfRd _ =>
    exact gated_withUnit_keeps h (keeps_refl s)
  | gateStep g _ | gateCfg g _ | gateInit g => exact gated_withUnit_keeps h (keeps_setGate s g _)
  | envInit _ _ => exact gated_withUnit_keeps h (keeps_setEnv fun _ _ => ⟨nofun, nofun⟩)
  | envSus _ _ | envThr _ _ => exact gated_withUnit_keeps h (keeps_setEnv fun hu => hu)
  | envAtk _ _ | envDec _ _ | envRel _ _ =>
    exact gated_withUnit_keeps h (keeps_setEnv_drew fun hu => hu)
  | envStep _ _ => exact gated_withUnit_keeps h (keeps_setEnv_drew arStage_envNext)
  | lpfStep f _ _ => exact gated_withUnit_keeps h ((keeps_setLpf s f _).drew 7)
  | lpfInit f => exact gated_withUnit_keeps h (keeps_setLpf s f _)
  | hpfStep f _ _ => exact gated_withUnit_keeps h ((keeps_setHpf s f _).drew 7)
  | hpfInit f => exact gated_withUnit_keeps h (keeps_setHpf s f _)
  | dcbStep a => exact gated_keeps h (keeps_dcStep s a)
  | limStep a => exact gated_keeps h (keeps_limStep s a)
  | busMaster => exact gated_keeps h ((keeps_dcStep s s.acc).trans (keeps_limStep _ _))
  | busClr => exact gated_keeps h (keeps_acc fun _ => by decide)
  | busAcc v a => exact execBusAcc_keeps h
  | voiceSet v a b => exact execVoiceSet_keeps h
  | voiceDel a => exact execVoiceDel_keeps h
  | paramInit v n a => exact execParamInit_keeps h
  | paramRd v n a => exact execParamRd_keeps h
  | paramPost _ _ _ | paramCommit | pwWrite _ _ _ => cases hi

/-- PARAM.POST appends its event, or is discarded or faults (R203). -/
theorem execParamPost_cases {n : Imm} {a b : Word} (h : execParamPost n a b s = .next t) :
    ((s.fault = false ∧ s.pwq.length < s.params.pwqDepth) ∧
        t = (s.append ⟨a, n, b⟩).respond 0) ∨
      (¬(s.fault = false ∧ s.pwq.length < s.params.pwqDepth) ∧ Keeps s t) := by
  by_cases hroom : s.pwqHasRoom = true
  · have hlt : s.pwq.length < s.params.pwqDepth := of_decide_eq_true hroom
    rw [execParamPost, if_pos hroom] at h
    rcases gated_next h with ⟨hf, rfl⟩ | ⟨hf, u, d, he, rfl⟩ | ⟨-, c, aux, he, -⟩
    · exact .inr ⟨fun ⟨hrun, _⟩ => Bool.noConfusion (hf.symm.trans hrun), keeps_respondError s⟩
    · cases he
      exact .inl ⟨⟨hf, hlt⟩, rfl⟩
    · cases he
  · refine .inr ⟨fun hrun => hroom (decide_eq_true hrun.2), ?_⟩
    rw [execParamPost, if_neg hroom] at h
    exact gated_keeps h trivial

/-- PARAM.COMMIT applies the batch and empties `PWQ`, or answers the error response (R205, R206). -/
theorem execParamCommit_cases (h : execParamCommit s = .next t) :
    t = State.respond { s with voices := applyBatch s.voices s.pwq, pwq := [] } 0 ∨
      (Keeps s t ∧ t.rsp = some ⟨0, true⟩) := by
  rcases gated_next h with ⟨-, rfl⟩ | ⟨-, u, d, he, rfl⟩ | ⟨-, c, aux, -, rfl⟩
  · exact .inr ⟨keeps_respondError s, rfl⟩
  · split at he
    · cases he
    · cases he
      exact .inl rfl
  · exact .inr ⟨keeps_faulted s _ c aux, rfl⟩

theorem execPwWrite_keepsWf {o : Word} {n : Imm} {x : Word}
    (h : execPwWrite o n x s = .next t) : KeepsWf s t := by
  unfold execPwWrite at h
  split at h
  next hroom => cases h; exact keepsWf_append _ (of_decide_eq_true hroom)
  next => cases h; exact (keeps_refl s).toKeepsWf

theorem exec_keepsWf {i : Instr} (h : exec i s = .next t) : KeepsWf s t := by
  cases i with
  | paramPost n a b =>
    rcases execParamPost_cases h with ⟨⟨-, hroom⟩, rfl⟩ | ⟨-, hk⟩
    · exact (keepsWf_append _ hroom).trans (keeps_respond _ 0).toKeepsWf
    · exact hk.toKeepsWf
  | paramCommit =>
    rcases execParamCommit_cases h with rfl | ⟨hk, -⟩
    · exact (keepsWf_commit s).trans (keeps_respond _ 0).toKeepsWf
    · exact hk.toKeepsWf
  | pwWrite o n x => exact execPwWrite_keepsWf h
  | _ => exact (exec_keeps rfl h).toKeepsWf

/-! ## Every step -/

theorem runCommand_keepsWf {c : Command} (h : runCommand c s = .next t) : KeepsWf s t := by
  rcases runCommand_cases c s with ⟨i, -, hr⟩ | ⟨op, -, hr⟩ | ⟨w, -, hr⟩ <;> rw [hr] at h
  · exact exec_keepsWf h
  · exact (gated_keeps h trivial).toKeepsWf
  · exact (gated_keeps h trivial).toKeepsWf

theorem hostTurn_keepsWf (h : hostTurn s = .next t) : KeepsWf s t := by
  rcases hostTurn_cases s with ⟨r, -, ht⟩ | ⟨c, rest, -, -, ht⟩ | ⟨-, -, ht⟩ <;> rw [ht] at h
  · cases h; exact (keeps_ports s _ _ _ _).toKeepsWf
  · exact (keeps_ports s _ _ _ _).toKeepsWf.trans (runCommand_keepsWf h)
  · cases h; exact (keeps_refl s).toKeepsWf

theorem writerTurn_keepsWf (h : writerTurn s = .next t) : KeepsWf s t := by
  rcases writerTurn_cases s with ⟨e, rest, -, hroom, ht⟩ | ⟨-, ht⟩ <;> rw [ht] at h <;> cases h
  · exact (keepsWf_append e hroom).trans (keeps_ports _ _ _ _ _).toKeepsWf
  · exact (keeps_refl s).toKeepsWf

/-- The reset values of `SPERIOD` and `DC_K` are the quotients by that of `SRATE` (R291, R43). -/
theorem reset_quotients :
    sameFloat 0x37BE37C6 (fdiv someNaN one 0x472C4400) = true ∧
      sameFloat 0x373E37C6 (fdiv someNaN half 0x472C4400) = true := by decide

theorem initial_wf {p : Params} (hp : p.legal = true) : (State.initial p).Wf where
  paramsLegal := hp
  gatesLength := List.length_replicate
  envsLength := List.length_replicate
  lpfsLength := List.length_replicate
  hpfsLength := List.length_replicate
  voicesLength := List.length_replicate
  rowsLength x hx := by
    rw [List.eq_of_mem_replicate hx]
    exact List.length_replicate
  pwqBound := Nat.zero_le _
  idsUnique := by
    change (List.map _ (List.filter _ (List.replicate _ (Voice.initial p.nParam)))).Nodup
    rw [List.filter_replicate]
    exact List.nodup_nil
  arStages u hu := by
    rw [List.eq_of_mem_replicate hu]
    exact fun _ => by decide
  noFault _ := ⟨rfl, rfl, rfl⟩
  faultCause := nofun
  accSign := show posZero ≠ negZero by decide
  limFloor := show flt one one = false by decide
  speriodDerived := reset_quotients.1
  dcKDerived := reset_quotients.2

theorem resetEvent_keepsWf (s : State) : KeepsWf s s.resetEvent where
  wf h := { initial_wf h.paramsLegal with }

theorem step_keepsWf (h : step s = .next t) : KeepsWf s t := by
  rcases step_cases s with ⟨-, hs⟩ | ⟨rest, -, hs⟩ | ⟨rest, -, hs⟩ | ⟨rest, -, hs⟩ <;> rw [hs] at h
  · cases h; exact (keeps_refl s).toKeepsWf
  · exact (keeps_ports s _ _ _ _).toKeepsWf.trans (hostTurn_keepsWf h)
  · exact (keeps_ports s _ _ _ _).toKeepsWf.trans (writerTurn_keepsWf h)
  · cases h
    exact (keeps_ports s _ _ _ _).toKeepsWf.trans (resetEvent_keepsWf _)

end

/-- Settles O56, by `step_keepsWf`. -/
theorem everyStepKeepsWellFormedness : Obligations.EveryStepKeepsWellFormedness :=
  ⟨fun _ _ h => (step_keepsWf h).params, fun _ _ hs h => (step_keepsWf h).wf hs⟩

end Sys2Proof.Machine
end

section
/-! Who writes `PWQ` (R48): the writer's turn and PW.WRITE append to it, and of the commands PARAM.POST
and PARAM.COMMIT alone change it. O46 from that. -/

namespace Sys2Proof.Machine

theorem writesPwq_eq_false {i : Instr} (hc : i.isCommand = true)
    (hp : ∀ n a b, i ≠ .paramPost n a b) (hm : i ≠ .paramCommit) : writesPwq i = false := by
  cases i with
  | paramPost n a b => exact absurd rfl (hp n a b)
  | paramCommit => exact absurd rfl hm
  | pwWrite o n x => cases hc
  | _ => rfl

/-- The two cases of the writer's turn exclude each other. -/
theorem not_waiting {s : State} {ev : Event} {es : List Event} (hport : s.pwPort = ev :: es)
    (hroom : s.pwq.length < s.params.pwqDepth) :
    ¬(s.pwPort = [] ∨ s.params.pwqDepth ≤ s.pwq.length) := by
  rintro (hnil | hfull)
  · rw [hport] at hnil
    cases hnil
  · exact Nat.not_lt.2 hfull hroom

/-- PW.WRITE appends its event while there is room, and otherwise changes nothing (R202). -/
theorem execPwWrite_eq (o : Word) (n : Imm) (x : Word) (s : State) :
    execPwWrite o n x s = .next { s with
      pwq := if s.pwq.length < s.params.pwqDepth then s.pwq ++ [⟨o, n, x⟩] else s.pwq } := by
  by_cases hroom : s.pwq.length < s.params.pwqDepth
  · rw [execPwWrite, State.pwqHasRoom, if_pos (decide_eq_true hroom), if_pos hroom]
    rfl
  · rw [execPwWrite, State.pwqHasRoom, if_neg (by simpa using hroom), if_neg hroom]

/-- Settles O46: the writer's turn by its two cases, the commands by `exec_keeps` and by the cases
of the two that use `PWQ`. -/
theorem onlyPwqIsSharedByTheAgents : Obligations.OnlyPwqIsSharedByTheAgents := by
  refine ⟨fun s t rest hsched h => ?_, fun s t o n x h => ?_, fun s r t u o n x hq hp ht hu => ?_,
    fun i s t hc h => ⟨fun hp hm => (exec_keeps (writesPwq_eq_false hc hp hm) h).pwq, ?_, ?_⟩⟩
  · rw [step_writer hsched] at h
    rcases writerTurn_cases { s with sched := rest } with
      ⟨e, es, hport, hroom, ht⟩ | ⟨hwait, ht⟩ <;> rw [ht] at h <;> cases h
    · refine ⟨rfl, fun e' es' hport' _ => ?_, fun hwait => ?_⟩
      · obtain ⟨rfl, rfl⟩ := List.cons.inj (hport.symm.trans hport')
        exact ⟨rfl, rfl⟩
      · exact absurd hwait (not_waiting hport hroom)
    · refine ⟨rfl, fun e es hport hroom => ?_, fun _ => ⟨rfl, rfl⟩⟩
      exact absurd hwait (not_waiting hport hroom)
  · exact (Host.Outcome.next.inj ((execPwWrite_eq o n x s).symm.trans h)).symm
  · obtain rfl := Host.Outcome.next.inj ((execPwWrite_eq o n x s).symm.trans ht)
    obtain rfl := Host.Outcome.next.inj ((execPwWrite_eq o n x r).symm.trans hu)
    simp only [hq, hp]
  · rintro n a b rfl
    rcases execParamPost_cases h with ⟨hroom, rfl⟩ | ⟨hroom, hk⟩
    · rw [if_pos hroom]
      rfl
    · rw [if_neg hroom]
      exact hk.pwq
  · rintro rfl
    rcases execParamCommit_cases h with rfl | ⟨hk, hr⟩
    · exact ⟨fun _ _ => rfl, nofun⟩
    · refine ⟨fun d hd => ?_, fun _ _ => hk.pwq⟩
      rw [hr] at hd
      cases hd

end Sys2Proof.Machine
end

section
/-! The turns and the two agents' interleaving: the host's turn as R62 and R80 give it (O5, O6), one
response per command (O7), the unit reads (O14), and `PWQ` as the one register through which the
order of a command and a port transaction shows (O47). -/

namespace Sys2Proof.Machine

/-! ## The host's turn (R62, R80) -/

/-- With no response waiting, the host's turn runs the first command offered. -/
theorem step_accept {s : State} {rest : List Turn} {c : Command} {cs : List Command}
    (hsched : s.sched = .agent .host :: rest) (hrsp : s.rsp = none) (hport : s.cmdPort = c :: cs) :
    step s = runCommand c { s with sched := rest, cmdPort := cs } := by
  rw [step_host hsched, hostTurn, State.hostMove]
  simp only [hrsp, hport]

/-- With a response waiting, the host's turn takes it and accepts no command. -/
theorem step_takeResponse {s : State} {rest : List Turn} {r : Response}
    (hsched : s.sched = .agent .host :: rest) (hrsp : s.rsp = some r) :
    step s = .next { s with sched := rest, rsp := none } := by
  rw [step_host hsched, hostTurn, State.hostMove]
  simp only [hrsp]

theorem rst_of_agent {s : State} {rest : List Turn} {a : Agent} (h : s.sched = .agent a :: rest) :
    s.rst = false := by
  rw [State.rst, h]
  rfl

theorem runCommand_instr {c : Command} {i : Instr} (h : decode c = .instr i) (s : State) :
    runCommand c s = exec i s := by
  rw [runCommand, h]

theorem runCommand_illegalOpcode {c : Command} {op : BitVec 6} (h : decode c = .illegalOpcode op)
    (s : State) : runCommand c s = gated c.w s (.raise .illegalOpcode (zext32 op)) := by
  rw [runCommand, h]
  rfl

theorem runCommand_illegalField {c : Command} {w : Word} (h : decode c = .illegalField w)
    (s : State) : runCommand c s = gated c.w s (.raise .illegalField c.w) := by
  rw [runCommand, h]
  rfl

/-- A word that does not decode is discarded while the block is halted (R264). -/
theorem runCommand_halted {c : Command} {s : State} (hc : ∀ i, decode c ≠ .instr i)
    (hs : s.fault = true) : runCommand c s = .next s.respondError := by
  rcases runCommand_cases c s with ⟨i, hi, -⟩ | ⟨op, -, hr⟩ | ⟨w, -, hr⟩
  · exact absurd hi (hc i)
  · exact hr.trans (gated_halted hs _ _)
  · exact hr.trans (gated_halted hs _ _)

/-- Settles O5, by `step_accept` and the three answers of the decoder. -/
theorem stepRunsTheDecodedCommand : Obligations.StepRunsTheDecodedCommand := by
  intro s rest c cs hsched hrsp hport r
  have hstep : step s = runCommand c r := step_accept hsched hrsp hport
  rw [hstep]
  refine ⟨rfl, fun i hi => runCommand_instr hi r, fun op hop hs => ?_, fun w hw hs => ?_,
    fun hc hs => runCommand_halted hc hs⟩
  · rw [runCommand_illegalOpcode hop, ← zext32_eq]
    exact gated_raise (s := r) hs c.w .illegalOpcode _
  · rw [runCommand_illegalField hw]
    exact gated_raise (s := r) hs c.w .illegalField c.w

/-- Settles O6: the turn is no reset, so the two port signals depend on the response alone. -/
theorem noCommandWhileAResponseWaits : Obligations.NoCommandWhileAResponseWaits := by
  intro s rest r hsched hrsp
  refine ⟨?_, ?_, step_takeResponse hsched hrsp⟩
  · rw [State.cmdReady, hrsp]
    exact Bool.and_false _
  · rw [State.rspValid, rst_of_agent hsched, hrsp]
    rfl

/-! ## One response per command (R84) -/

/-- However a command ends, it answers a state with a response on the port. -/
theorem finish_responds (w : Word) (s : State) (e : Effect) :
    ∃ t, finish w s e = .next t ∧ ∃ r, t.rsp = some r := by
  cases e with
  | done u d => exact ⟨_, rfl, _, rfl⟩
  | raise c aux =>
    refine ⟨_, rfl, ?_⟩
    cases hf : s.fault with
    | true => exact ⟨_, by rw [takeFault_halted hf]; rfl⟩
    | false => exact ⟨_, by rw [takeFault_running hf]; rfl⟩

theorem gated_responds (w : Word) (s : State) (e : Effect) :
    ∃ t, gated w s e = .next t ∧ ∃ r, t.rsp = some r := by
  cases hf : s.fault with
  | true => exact ⟨_, gated_halted hf w e, _, rfl⟩
  | false =>
    rw [gated_running hf]
    exact finish_responds w s e

theorem exec_responds {i : Instr} (hi : i.isCommand = true) (s : State) :
    ∃ t, exec i s = .next t ∧ ∃ r, t.rsp = some r := by
  cases i with
  | nop => exact ⟨_, rfl, _, rfl⟩
  | csrRd n => exact finish_responds _ s _
  | pwWrite o n x => cases hi
  | _ =>
    obtain ⟨e, he⟩ := exec_gated _ hi nofun nofun s
    rw [he]
    exact gated_responds _ s e

/-- Settles O7: the commands by `exec_responds`, PW.WRITE by what it writes. -/
theorem everyCommandIsAnswered : Obligations.EveryCommandIsAnswered := by
  intro i s
  cases hi : i.isCommand with
  | true =>
    obtain ⟨t, ht, hr⟩ := exec_responds hi s
    exact ⟨t, ht, fun _ => hr, nofun⟩
  | false =>
    cases i with
    | pwWrite o n x => exact ⟨_, execPwWrite_eq o n x s, nofun, fun _ => rfl⟩
    | _ => cases hi

/-! ## Unit reads (R65) -/

/-- A read of a unit that exists responds the value and leaves the rest of the state. -/
theorem gated_unitRead {s : State} {k : UnitKind} {u : UnitIx} {v v' : Word} (w : Word)
    (hs : s.fault = false) (hu : u.toNat < s.params.count k) (hv : v = v') :
    gated w s (withUnit s k u (.done s v)) = .next { s with rsp := some ⟨v', false⟩ } := by
  rw [withUnit_ok hu, hv]
  exact gated_done hs w s v'

/-- Settles O14: each of the six reads is one `gated_unitRead`, with the codes of R110 and R130. -/
theorem unitReadsHaveNoSideEffect : Obligations.UnitReadsHaveNoSideEffect := by
  intro s u hs
  refine ⟨fun hu => ?_, fun hu => ⟨?_, ?_, ?_⟩, fun hu => ?_, fun hu => ?_⟩
  · exact gated_unitRead (k := .gate) _ hs hu (zext32_gateCode _)
  · exact gated_unitRead (k := .env) _ hs hu rfl
  · exact gated_unitRead (k := .env) _ hs hu (zext32_stageCode _)
  · exact gated_unitRead (k := .env) _ hs hu (zext32_gateCode _)
  · exact gated_unitRead (k := .lpf) _ hs hu rfl
  · exact gated_unitRead (k := .hpf) _ hs hu rfl

/-! ## Commands that do not use `PWQ` (R48, R63)

Such a command does the same whatever `PWQ` holds: run on the state with another queue, it leaves
its own result with that queue. -/

/-- The state with another `PWQ`. -/
def State.withPwq (s : State) (q : List Event) : State := { s with pwq := q }

@[simp] theorem withPwq_voices (s : State) (q : List Event) : (s.withPwq q).voices = s.voices := rfl

/-- The effect with another `PWQ` in the state it leaves. -/
def Effect.withPwq (q : List Event) : Effect → Effect
  | .done t d => .done (t.withPwq q) d
  | .raise c aux => .raise c aux

section
variable {s t : State} {w : Word} {e e' : Effect} (q : List Event)

theorem takeFault_withPwq (s : State) (w : Word) (c : Cause) (aux : Word) :
    (s.withPwq q).takeFault w c aux = (s.takeFault w c aux).withPwq q := by
  cases hf : s.fault with
  | true =>
    rw [takeFault_halted hf, takeFault_halted (s := s.withPwq q) hf]
    rfl
  | false =>
    rw [takeFault_running hf, takeFault_running (s := s.withPwq q) hf]
    rfl

theorem finish_withPwq (h : finish w s e = .next t) (he : e' = e.withPwq q) :
    finish w (s.withPwq q) e' = .next (t.withPwq q) := by
  subst he
  rcases finish_next h with ⟨u, d, rfl, rfl⟩ | ⟨c, aux, rfl, rfl⟩
  · rfl
  · exact congrArg _ (takeFault_withPwq q s w c aux)

theorem gated_withPwq (h : gated w s e = .next t) (he : e' = e.withPwq q) :
    gated w (s.withPwq q) e' = .next (t.withPwq q) := by
  cases hf : s.fault with
  | true =>
    rw [gated_halted hf] at h
    cases h
    exact gated_halted (s := s.withPwq q) hf w e'
  | false =>
    rw [gated_running hf] at h
    rw [gated_running (s := s.withPwq q) hf]
    exact finish_withPwq q h he

/-- A body that branches on what does not involve `PWQ`. -/
theorem withPwq_ite {p : Prop} [Decidable p] {f f' : Effect} (he : e' = e.withPwq q)
    (hf : f' = f.withPwq q) : (if p then e' else f') = (if p then e else f).withPwq q := by
  rw [he, hf, apply_ite (Effect.withPwq q)]

theorem withUnit_withPwq {k : UnitKind} {u : UnitIx} (he : e' = e.withPwq q) :
    withUnit (s.withPwq q) k u e' = (withUnit s k u e).withPwq q :=
  withPwq_ite q he rfl

theorem withIndex_withPwq {n : Imm} (he : e' = e.withPwq q) :
    withIndex (s.withPwq q) n e' = (withIndex s n e).withPwq q :=
  withPwq_ite q he rfl

/-- A command on a unit whose body always completes. -/
theorem gated_withUnit_withPwq {k : UnitKind} {u : UnitIx} {r : State} {d : Word}
    (h : gated w s (withUnit s k u (.done r d)) = .next t) :
    gated w (s.withPwq q) (withUnit (s.withPwq q) k u (.done (r.withPwq q) d)) =
      .next (t.withPwq q) :=
  gated_withPwq q h (withUnit_withPwq q rfl)

theorem gated_done_withPwq {r : State} {d : Word} (h : gated w s (.done r d) = .next t) :
    gated w (s.withPwq q) (.done (r.withPwq q) d) = .next (t.withPwq q) :=
  gated_withPwq q h rfl

/-! ### CSRs -/

/-- `PWQLVL` is the one CSR that shows `PWQ` (R42). -/
theorem readCsr_withPwq {r : Csr} (hr : r ≠ .pwqlvl) (s : State) :
    (s.withPwq q).readCsr r = s.readCsr r := by
  cases r with
  | pwqlvl => exact absurd rfl hr
  | _ => rfl

theorem writeCsr_withPwq (r : Csr) (a : Word) (s : State) :
    (s.withPwq q).writeCsr r a = (s.writeCsr r a).map (·.withPwq q) := by
  cases r <;> rfl

theorem execCsrRd_withPwq {n : Imm} (hn : n ≠ Csr.pwqlvl.number) (h : execCsrRd n s = .next t) :
    execCsrRd n (s.withPwq q) = .next (t.withPwq q) := by
  refine finish_withPwq q h ?_
  cases hc : csrOfNumber n with
  | none => rfl
  | some r =>
    have hr : r ≠ .pwqlvl := by
      rintro rfl
      exact hn (number_of_csrOfNumber hc).symm
    exact congrArg _ (readCsr_withPwq q hr s)

theorem execCsrWr_withPwq {n : Imm} {a : Word} (h : execCsrWr n a s = .next t) :
    execCsrWr n a (s.withPwq q) = .next (t.withPwq q) := by
  refine gated_withPwq q h ?_
  cases csrOfNumber n with
  | none => rfl
  | some r =>
    simp only [writeCsr_withPwq]
    cases s.writeCsr r a <;> rfl

/-! ### Voices -/

theorem execBusAcc_withPwq {v : UnitIx} {a : Word} (h : execBusAcc v a s = .next t) :
    execBusAcc v a (s.withPwq q) = .next (t.withPwq q) :=
  gated_withPwq q h (withUnit_withPwq q (withPwq_ite q rfl rfl))

theorem execVoiceSet_withPwq {v : UnitIx} {a b : Word} (h : execVoiceSet v a b s = .next t) :
    execVoiceSet v a b (s.withPwq q) = .next (t.withPwq q) :=
  gated_withPwq q h (withUnit_withPwq q (withPwq_ite q rfl rfl))

theorem execVoiceDel_withPwq {a : Word} (h : execVoiceDel a s = .next t) :
    execVoiceDel a (s.withPwq q) = .next (t.withPwq q) := by
  refine gated_withPwq q h ?_
  rw [withPwq_voices]
  cases findSlot s.voices a <;> rfl

theorem execParamInit_withPwq {v : UnitIx} {n : Imm} {a : Word}
    (h : execParamInit v n a s = .next t) :
    execParamInit v n a (s.withPwq q) = .next (t.withPwq q) :=
  gated_withPwq q h (withUnit_withPwq q (withIndex_withPwq q (withPwq_ite q rfl rfl)))

theorem execParamRd_withPwq {v : UnitIx} {n : Imm} {a : Word}
    (h : execParamRd v n a s = .next t) :
    execParamRd v n a (s.withPwq q) = .next (t.withPwq q) :=
  gated_withPwq q h (withUnit_withPwq q (withIndex_withPwq q (withPwq_ite q rfl rfl)))

/-! ### Every command -/

/-- Every instruction but those that write `PWQ` and the read of its level. -/
theorem exec_withPwq {i : Instr} (hi : writesPwq i = false) (hl : i ≠ .csrRd Csr.pwqlvl.number)
    (h : exec i s = .next t) : exec i (s.withPwq q) = .next (t.withPwq q) := by
  cases i with
  | nop => cases h; rfl
  | csrRd n => exact execCsrRd_withPwq q (fun hn => hl (congrArg _ hn)) h
  | csrWr n a => exact execCsrWr_withPwq q h
  | gateStep _ _ | gateCfg _ _ | gateRd _ | gateInit _ => exact gated_withUnit_withPwq q h
  | envInit _ _ | envAtk _ _ | envDec _ _ | envSus _ _ | envRel _ _ | envThr _ _ | envStep _ _
  | envRdPos _ | envRdStg _ | envRdGate _ => exact gated_withUnit_withPwq q h
  | lpfStep _ _ _ | lpfInit _ | lpfRd _ => exact gated_withUnit_withPwq q h
  | hpfStep _ _ _ | hpfInit _ | hpfRd _ => exact gated_withUnit_withPwq q h
  | dcbStep _ | limStep _ | busMaster | busClr => exact gated_done_withPwq q h
  | busAcc v a => exact execBusAcc_withPwq q h
  | voiceSet v a b => exact execVoiceSet_withPwq q h
  | voiceDel a => exact execVoiceDel_withPwq q h
  | paramInit v n a => exact execParamInit_withPwq q h
  | paramRd v n a => exact execParamRd_withPwq q h
  | paramPost _ _ _ | paramCommit | pwWrite _ _ _ => cases hi

end

/-! ### The port transaction -/

/-- `PWQ` after a port transaction that offers `ev` (R202). -/
def State.pwqAfter (s : State) (ev : Event) : List Event :=
  if s.pwq.length < s.params.pwqDepth then s.pwq ++ [ev] else s.pwq

theorem exec_pwWrite_withPwq (o : Word) (n : Imm) (x : Word) (s : State) :
    exec (.pwWrite o n x) s = .next (s.withPwq (s.pwqAfter ⟨o, n, x⟩)) :=
  execPwWrite_eq o n x s

theorem Keeps.pwqAfter {s t : State} (h : Keeps s t) (ev : Event) :
    t.pwqAfter ev = s.pwqAfter ev := by
  rw [State.pwqAfter, State.pwqAfter, h.pwq, h.params]

/-- Settles O47: PW.WRITE puts in place a queue that the command does not change (`exec_keeps`), and
the command does the same with that queue in place (`exec_withPwq`). -/
theorem portTransactionsCommuteWithCommands :
    Obligations.PortTransactionsCommuteWithCommands := by
  intro i o n x s t u hc hp hm hl ht hu
  have hi : writesPwq i = false := writesPwq_eq_false hc hp hm
  have hkeeps : Keeps s t := exec_keeps hi ht
  obtain rfl := Host.Outcome.next.inj ((exec_pwWrite_withPwq o n x s).symm.trans hu)
  calc exec i (s.withPwq (s.pwqAfter ⟨o, n, x⟩))
      = .next (t.withPwq (s.pwqAfter ⟨o, n, x⟩)) := exec_withPwq _ hi hl ht
    _ = .next (t.withPwq (t.pwqAfter ⟨o, n, x⟩)) := by rw [hkeeps.pwqAfter]
    _ = exec (.pwWrite o n x) t := (exec_pwWrite_withPwq o n x t).symm

end Sys2Proof.Machine
end

section
/-! Decoding as matching (R85 steps 1 and 2, R86 to R88): what the decoder answers for every word,
and for a word that matches a row the instruction of that row whose fields and operands the command
carries. The encoding statements O1 to O4 follow. -/

namespace Sys2Proof

/-! ## The words that match a row decode to the row's instruction (R86) -/

/-- The instruction of the same row as this one with the fields and operand words that `c` carries
(R82, R83, R87). PW.WRITE stands on no row and stays. -/
def Instr.ofCommand (c : Command) : Instr → Instr
  | .nop => .nop
  | .csrRd _ => .csrRd (immField c.w)
  | .csrWr _ _ => .csrWr (immField c.w) c.a
  | .gateStep _ _ => .gateStep (unitField c.w) c.a
  | .gateCfg _ _ => .gateCfg (unitField c.w) c.a
  | .gateRd _ => .gateRd (unitField c.w)
  | .gateInit _ => .gateInit (unitField c.w)
  | .envInit _ _ => .envInit (unitField c.w) (modeOfBit ((immField c.w).getLsbD 0))
  | .envAtk _ _ => .envAtk (unitField c.w) c.a
  | .envDec _ _ => .envDec (unitField c.w) c.a
  | .envSus _ _ => .envSus (unitField c.w) c.a
  | .envRel _ _ => .envRel (unitField c.w) c.a
  | .envThr _ _ => .envThr (unitField c.w) c.a
  | .envStep _ _ => .envStep (unitField c.w) c.a
  | .envRdPos _ => .envRdPos (unitField c.w)
  | .envRdStg _ => .envRdStg (unitField c.w)
  | .envRdGate _ => .envRdGate (unitField c.w)
  | .lpfStep _ _ _ => .lpfStep (unitField c.w) c.a c.b
  | .lpfInit _ => .lpfInit (unitField c.w)
  | .lpfRd _ => .lpfRd (unitField c.w)
  | .hpfStep _ _ _ => .hpfStep (unitField c.w) c.a c.b
  | .hpfInit _ => .hpfInit (unitField c.w)
  | .hpfRd _ => .hpfRd (unitField c.w)
  | .dcbStep _ => .dcbStep c.a
  | .limStep _ => .limStep c.a
  | .busMaster => .busMaster
  | .busClr => .busClr
  | .busAcc _ _ => .busAcc (unitField c.w) c.a
  | .voiceSet _ _ _ => .voiceSet (unitField c.w) c.a c.b
  | .voiceDel _ => .voiceDel c.a
  | .paramInit _ _ _ => .paramInit (unitField c.w) (immField c.w) c.a
  | .paramRd _ _ _ => .paramRd (unitField c.w) (immField c.w) c.a
  | .paramPost _ _ _ => .paramPost (immField c.w) c.a c.b
  | .paramCommit => .paramCommit
  | .pwWrite owner index value => .pwWrite owner index value

theorem row?_ofCommand (c : Command) (j : Instr) : (j.ofCommand c).row? = j.row? := by
  cases j <;> rfl

/-- An instruction is read back from its own command. -/
theorem ofCommand_encode (i : Instr) :
    i.ofCommand ⟨commandWord i, (operandWords i).1, (operandWords i).2⟩ = i := by
  cases i <;> simp [Instr.ofCommand, commandWord, operandWords]

section
variable {w mask pattern : Word}

/-- A word matches a row exactly when each of its fields does. -/
theorem and_eq_iff_fields : w &&& mask = pattern ↔
    opField w &&& opField mask = opField pattern ∧
      unitField w &&& unitField mask = unitField pattern ∧
      rsvField w &&& rsvField mask = rsvField pattern ∧
      immField w &&& immField mask = immField pattern := by
  rw [word_eq_iff, opField_and, unitField_and, rsvField_and, immField_and]

/-- Every mask of R86 keeps OP and RSV whole, and every match word has RSV 0. -/
theorem fields_of_row {j : Instr} {row : OpRow} (hrow : j.row? = some row) :
    opField row.mask = 0x3F#6 ∧ rsvField row.mask = 0xF#4 ∧ rsvField row.pattern = 0 := by
  cases j <;> cases hrow <;> exact ⟨rfl, rfl, rfl⟩

theorem op_rsv_of_match {j : Instr} {row : OpRow} (hrow : j.row? = some row)
    (h : w &&& row.mask = row.pattern) : opField w = opField row.pattern ∧ rsvField w = 0 := by
  obtain ⟨hmop, hmrsv, hprsv⟩ := fields_of_row hrow
  obtain ⟨hop, -, hrsv, -⟩ := and_eq_iff_fields.1 h
  rw [hmop, opField_ones] at hop
  rw [hmrsv, hprsv] at hrsv
  exact ⟨hop, BitVec.and_allOnes.symm.trans hrsv⟩

theorem unit_of_match (h : w &&& mask = pattern) (hu : unitField mask = 0x3FF#10) :
    unitField w = unitField pattern := by
  obtain ⟨-, hunit, -, -⟩ := and_eq_iff_fields.1 h
  rwa [hu, unitField_ones] at hunit

theorem imm_of_match (h : w &&& mask = pattern) (hm : immField mask = 0xFFF#12) :
    immField w = immField pattern := by
  obtain ⟨-, -, -, himm⟩ := and_eq_iff_fields.1 h
  rwa [hm, immField_ones] at himm

end

/-- ENV.INIT's mask drops bit 0 of IMM alone. -/
theorem extract_of_modeMask {m : Imm} (h : m &&& 0xFFE#12 = 0) : m.extractLsb' 1 11 = 0 := by
  have hbits := congrArg (BitVec.extractLsb' 1 11) h
  rw [BitVec.extractLsb'_and] at hbits
  exact BitVec.and_allOnes.symm.trans hbits

section
variable {w : Word}

theorem plainForm_ok (hu : unitField w = 0) (hr : rsvField w = 0) (hm : immField w = 0)
    (i : Instr) : plainForm w i = .instr i :=
  fieldCheck_instr.2 ⟨by simp [hu, hr, hm], rfl⟩

theorem unitForm_ok (hr : rsvField w = 0) (hm : immField w = 0) (mk : UnitIx → Instr) :
    unitForm w mk = .instr (mk (unitField w)) :=
  fieldCheck_instr.2 ⟨by simp [hr, hm], rfl⟩

theorem immForm_ok (hu : unitField w = 0) (hr : rsvField w = 0) (mk : Imm → Instr) :
    immForm w mk = .instr (mk (immField w)) :=
  fieldCheck_instr.2 ⟨by simp [hu, hr], rfl⟩

theorem unitImmForm_ok (hr : rsvField w = 0) (mk : UnitIx → Imm → Instr) :
    unitImmForm w mk = .instr (mk (unitField w) (immField w)) :=
  fieldCheck_instr.2 ⟨by simp [hr], rfl⟩

theorem envInitForm_ok (hr : rsvField w = 0) (hm : (immField w).extractLsb' 1 11 = 0) :
    envInitForm w = .instr (.envInit (unitField w) (modeOfBit ((immField w).getLsbD 0))) :=
  fieldCheck_instr.2 ⟨by simp [hr, hm], rfl⟩

end

/-- A word that matches a row decodes to that row's instruction, read from the command (R86). -/
theorem decode_of_match {c : Command} {j : Instr} {row : OpRow} (hrow : j.row? = some row)
    (h : c.w &&& row.mask = row.pattern) : decode c = .instr (j.ofCommand c) := by
  obtain ⟨ho, hr⟩ := op_rsv_of_match hrow h
  cases j with
  | pwWrite _ _ _ => cases hrow
  | nop | dcbStep _ | limStep _ | busMaster | busClr | voiceDel _ | paramCommit =>
    cases hrow
    rw [decode, ho]
    exact plainForm_ok (unit_of_match h rfl) hr (imm_of_match h rfl) _
  | gateStep _ _ | gateCfg _ _ | gateRd _ | gateInit _ | envAtk _ _ | envDec _ _ | envSus _ _
  | envRel _ _ | envThr _ _ | envStep _ _ | lpfStep _ _ _ | lpfInit _ | lpfRd _ | hpfStep _ _ _
  | hpfInit _ | hpfRd _ | busAcc _ _ | voiceSet _ _ _ =>
    cases hrow
    rw [decode, ho]
    exact unitForm_ok hr (imm_of_match h rfl) _
  | csrRd _ | csrWr _ _ | paramPost _ _ _ =>
    cases hrow
    rw [decode, ho]
    exact immForm_ok (unit_of_match h rfl) hr _
  | paramInit _ _ _ | paramRd _ _ _ =>
    cases hrow
    rw [decode, ho]
    exact unitImmForm_ok hr _
  | envInit _ _ =>
    cases hrow
    obtain ⟨-, -, -, hm⟩ := and_eq_iff_fields.1 h
    rw [decode, ho]
    exact envInitForm_ok hr (extract_of_modeMask hm)
  | envRdPos _ | envRdStg _ | envRdGate _ =>
    cases hrow
    rw [decode, ho]
    show envReadForm c.w = _
    rw [envReadForm, imm_of_match h rfl]
    exact fieldCheck_instr.2 ⟨beq_iff_eq.2 hr, rfl⟩

/-- The opcodes that R86 reserves. -/
abbrev ReservedOp (op : BitVec 6) : Prop :=
  op.toNat ∈ [0x03, 0x13, 0x17, 0x1B, 0x1E, 0x1F, 0x22, 0x23] ∨ 0x28 ≤ op.toNat

/-- The opcodes that R86 assigns. -/
def assignedOps : List (BitVec 6) :=
  [0x00, 0x01, 0x02, 0x04, 0x05, 0x06, 0x07, 0x08, 0x09, 0x0A, 0x0B, 0x0C, 0x0D, 0x0E, 0x0F, 0x10,
    0x11, 0x12, 0x14, 0x15, 0x16, 0x18, 0x19, 0x1A, 0x1C, 0x1D, 0x20, 0x21, 0x24, 0x25, 0x26, 0x27]

theorem mem_assignedOps {op : BitVec 6} (h : ¬ ReservedOp op) : op ∈ assignedOps := by
  revert op
  decide

/-- What decoding the command `c` can answer (R85 steps 1 and 2). -/
inductive DecodesTo (c : Command) : Decoded → Prop
  | instr {i : Instr} (assigned : ¬ ReservedOp (opField c.w)) (command : i.isCommand = true)
      (word : commandWord i = c.w) : DecodesTo c (.instr i)
  | illegalOpcode (reserved : ReservedOp (opField c.w)) :
      DecodesTo c (.illegalOpcode (opField c.w))
  | illegalField (assigned : ¬ ReservedOp (opField c.w)) : DecodesTo c (.illegalField c.w)

section
variable {c : Command} {op : BitVec 6} (hop : opField c.w = op) (ha : ¬ ReservedOp op)
include hop ha

/-- A field check answers a command with the word given, provided that is so when it succeeds. -/
theorem fieldCheck_decodesTo {ok : Bool} {i : Instr} (hi : i.isCommand = true)
    (hw : ok = true →
      rsvField c.w = 0 ∧ commandWord i = packWord op (unitField c.w) (immField c.w)) :
    DecodesTo c (fieldCheck c.w ok i) := by
  subst hop
  unfold fieldCheck
  split
  next hok =>
    obtain ⟨hr, hword⟩ := hw hok
    exact .instr ha hi (hword.trans (packWord_fields c.w hr))
  next => exact .illegalField ha

theorem plainForm_decodesTo {i : Instr} (hi : i.isCommand = true)
    (hw : commandWord i = packWord op 0 0) : DecodesTo c (plainForm c.w i) :=
  fieldCheck_decodesTo hop ha hi fun hok => by
    simp only [Bool.and_eq_true, beq_iff_eq] at hok
    obtain ⟨⟨hu, hr⟩, hm⟩ := hok
    rw [hu, hm]
    exact ⟨hr, hw⟩

theorem unitForm_decodesTo {mk : UnitIx → Instr} (hi : ∀ u, (mk u).isCommand = true)
    (hw : ∀ u, commandWord (mk u) = packWord op u 0) : DecodesTo c (unitForm c.w mk) :=
  fieldCheck_decodesTo hop ha (hi _) fun hok => by
    simp only [Bool.and_eq_true, beq_iff_eq] at hok
    obtain ⟨hr, hm⟩ := hok
    rw [hm]
    exact ⟨hr, hw _⟩

theorem immForm_decodesTo {mk : Imm → Instr} (hi : ∀ m, (mk m).isCommand = true)
    (hw : ∀ m, commandWord (mk m) = packWord op 0 m) : DecodesTo c (immForm c.w mk) :=
  fieldCheck_decodesTo hop ha (hi _) fun hok => by
    simp only [Bool.and_eq_true, beq_iff_eq] at hok
    obtain ⟨hu, hr⟩ := hok
    rw [hu]
    exact ⟨hr, hw _⟩

theorem unitImmForm_decodesTo {mk : UnitIx → Imm → Instr} (hi : ∀ u m, (mk u m).isCommand = true)
    (hw : ∀ u m, commandWord (mk u m) = packWord op u m) : DecodesTo c (unitImmForm c.w mk) :=
  fieldCheck_decodesTo hop ha (hi _ _) fun hok => ⟨beq_iff_eq.1 hok, hw _ _⟩

end

/-- The mode that IMM names has that IMM, when its other bits are 0 (R138). -/
theorem modeImm_modeOfBit {m : Imm} (h : m.extractLsb' 1 11 = 0) :
    modeImm (modeOfBit (m.getLsbD 0)) = m := by
  have hm : m = 0 ∨ m = 1 := by
    have hnat := congrArg BitVec.toNat h
    rw [BitVec.extractLsb'_toNat, Nat.shiftRight_eq_div_pow] at hnat
    bv_omega
  rcases hm with rfl | rfl <;> rfl

theorem envInitForm_decodesTo {c : Command} (hop : opField c.w = 0x08) :
    DecodesTo c (envInitForm c.w) :=
  fieldCheck_decodesTo hop (by decide) rfl fun hok => by
    simp only [Bool.and_eq_true, beq_iff_eq] at hok
    obtain ⟨hr, hm⟩ := hok
    exact ⟨hr, congrArg (packWord 0x08 _) (modeImm_modeOfBit hm)⟩

theorem envReadForm_decodesTo {c : Command} (hop : opField c.w = 0x0F) :
    DecodesTo c (envReadForm c.w) := by
  unfold envReadForm
  split_ifs with hpos hstg hgate
  · exact fieldCheck_decodesTo hop (by decide) rfl fun hr => ⟨beq_iff_eq.1 hr, by rw [hpos]; rfl⟩
  · exact fieldCheck_decodesTo hop (by decide) rfl fun hr => ⟨beq_iff_eq.1 hr, by rw [hstg]; rfl⟩
  · exact fieldCheck_decodesTo hop (by decide) rfl fun hr => ⟨beq_iff_eq.1 hr, by rw [hgate]; rfl⟩
  · exact .illegalField (by rw [hop]; decide)

/-- Every answer of the decoder, by the form of its opcode (R87). The cases are numbered in the
order of the opcodes in `assignedOps`; the last is the reserved ones. -/
theorem decode_decodesTo (c : Command) : DecodesTo c (decode c) := by
  unfold decode
  split
  case h_1 | h_22 | h_23 | h_24 | h_25 | h_28 | h_32 =>
    exact plainForm_decodesTo ‹_› (by decide) rfl rfl
  case h_4 | h_5 | h_6 | h_7 | h_9 | h_10 | h_11 | h_12 | h_13 | h_14 | h_16 | h_17 | h_18 | h_19
      | h_20 | h_21 | h_26 | h_27 =>
    exact unitForm_decodesTo ‹_› (by decide) (fun _ => rfl) fun _ => rfl
  case h_2 | h_3 | h_31 => exact immForm_decodesTo ‹_› (by decide) (fun _ => rfl) fun _ => rfl
  case h_29 | h_30 =>
    exact unitImmForm_decodesTo ‹_› (by decide) (fun _ _ => rfl) fun _ _ => rfl
  case h_8 => exact envInitForm_decodesTo ‹_›
  case h_15 => exact envReadForm_decodesTo ‹_›
  case h_33 =>
    refine .illegalOpcode (by_contra fun ha => ?_)
    have hmem := mem_assignedOps ha
    simp only [assignedOps, List.mem_cons, List.not_mem_nil, or_false] at hmem
    tauto

/-! ## O1 to O4 -/

theorem row?_of_isCommand {i : Instr} (h : i.isCommand = true) : ∃ row, i.row? = some row := by
  cases i with
  | pwWrite _ _ _ => cases h
  | _ => exact ⟨_, rfl⟩

/-- The command word of an instruction matches the instruction's row (R86). -/
theorem commandWord_matches (i : Instr) : Laws.RowMatch.Statement i := by
  cases i with
  | nop => exact Laws.RowMatch.nop
  | csrRd n => exact Laws.RowMatch.csrRd n
  | csrWr n a => exact Laws.RowMatch.csrWr n a
  | gateStep g a => exact Laws.RowMatch.gateStep g a
  | gateCfg g a => exact Laws.RowMatch.gateCfg g a
  | gateRd g => exact Laws.RowMatch.gateRd g
  | gateInit g => exact Laws.RowMatch.gateInit g
  | envInit e mode => exact Laws.RowMatch.envInit e mode
  | envAtk e a => exact Laws.RowMatch.envAtk e a
  | envDec e a => exact Laws.RowMatch.envDec e a
  | envSus e a => exact Laws.RowMatch.envSus e a
  | envRel e a => exact Laws.RowMatch.envRel e a
  | envThr e a => exact Laws.RowMatch.envThr e a
  | envStep e a => exact Laws.RowMatch.envStep e a
  | envRdPos e => exact Laws.RowMatch.envRdPos e
  | envRdStg e => exact Laws.RowMatch.envRdStg e
  | envRdGate e => exact Laws.RowMatch.envRdGate e
  | lpfStep f a b => exact Laws.RowMatch.lpfStep f a b
  | lpfInit f => exact Laws.RowMatch.lpfInit f
  | lpfRd f => exact Laws.RowMatch.lpfRd f
  | hpfStep f a b => exact Laws.RowMatch.hpfStep f a b
  | hpfInit f => exact Laws.RowMatch.hpfInit f
  | hpfRd f => exact Laws.RowMatch.hpfRd f
  | dcbStep a => exact Laws.RowMatch.dcbStep a
  | limStep a => exact Laws.RowMatch.limStep a
  | busMaster => exact Laws.RowMatch.busMaster
  | busClr => exact Laws.RowMatch.busClr
  | busAcc v a => exact Laws.RowMatch.busAcc v a
  | voiceSet v a b => exact Laws.RowMatch.voiceSet v a b
  | voiceDel a => exact Laws.RowMatch.voiceDel a
  | paramInit v n a => exact Laws.RowMatch.paramInit v n a
  | paramRd v n a => exact Laws.RowMatch.paramRd v n a
  | paramPost n a b => exact Laws.RowMatch.paramPost n a b
  | paramCommit => exact Laws.RowMatch.paramCommit
  | pwWrite o n x => exact Laws.RowMatch.pwWrite o n x

section
variable {c : Command} {i : Instr}

theorem encode_of_isCommand (h : i.isCommand = true) :
    encode i = some ⟨commandWord i, (operandWords i).1, (operandWords i).2⟩ := if_pos h

/-- Decoding an encoded command gives it back. -/
theorem decode_encode (h : encode i = some c) : decode c = .instr i := by
  cases hi : i.isCommand with
  | false => rw [encode, hi] at h; cases h
  | true =>
    rw [encode_of_isCommand hi] at h
    cases h
    obtain ⟨row, hrow⟩ := row?_of_isCommand hi
    rw [decode_of_match hrow (commandWord_matches i row hrow), ofCommand_encode]

/-- A command that decodes to an instruction has that instruction's command word. -/
theorem decode_instr (h : decode c = .instr i) :
    ¬ ReservedOp (opField c.w) ∧ i.isCommand = true ∧ commandWord i = c.w := by
  have hc := decode_decodesTo c
  rw [h] at hc
  cases hc with
  | instr assigned command word => exact ⟨assigned, command, word⟩

theorem match_of_decode {row : OpRow} (h : decode c = .instr i) (hrow : i.row? = some row) :
    c.w &&& row.mask = row.pattern := by
  obtain ⟨-, -, hw⟩ := decode_instr h
  rw [← hw]
  exact commandWord_matches i row hrow

theorem decode_of_reserved (h : ReservedOp (opField c.w)) :
    decode c = .illegalOpcode (opField c.w) := by
  have hc := decode_decodesTo c
  generalize decode c = d at hc ⊢
  cases hc with
  | illegalOpcode => rfl
  | instr ha | illegalField ha => exact absurd h ha

theorem decode_of_no_match (ha : ¬ ReservedOp (opField c.w))
    (hn : ∀ (j : Instr) (row : OpRow), j.row? = some row → c.w &&& row.mask ≠ row.pattern) :
    decode c = .illegalField c.w := by
  have hc := decode_decodesTo c
  generalize hd : decode c = d at hc ⊢
  cases hc with
  | illegalField => rfl
  | illegalOpcode hr => exact absurd hr ha
  | instr _ hi =>
    obtain ⟨row, hrow⟩ := row?_of_isCommand hi
    exact absurd (match_of_decode hd hrow) (hn _ row hrow)

/-- Only the word 0 is NOP (R88). -/
theorem decode_nop_iff : decode c = .instr .nop ↔ c.w = 0 := by
  refine ⟨fun h => ?_, fun h => decode_of_match (j := .nop) rfl (by rw [h]; rfl)⟩
  obtain ⟨-, -, hw⟩ := decode_instr h
  exact hw.symm

end

/-- Settles O1: an encoded command matches its instruction's row, so it decodes by it
(`decode_of_match`); a command that decodes has its instruction's word (`decode_decodesTo`), so with
that instruction's operand words it is that instruction's encoding. -/
theorem decodeAndEncodeAgree : Obligations.DecodeAndEncodeAgree := by
  refine ⟨fun i => ⟨fun c hc => decode_encode hc, fun hn => ?_⟩, fun c i h => ?_⟩
  · cases i with
    | pwWrite o n x => exact ⟨o, n, x, rfl⟩
    | _ => cases hn
  · obtain ⟨-, hi, hw⟩ := decode_instr h
    refine ⟨hi, hw, ?_⟩
    rw [← hw]
    exact decode_encode (encode_of_isCommand hi)

/-- Settles O2: a word that matches a row decodes to an instruction of that row, and the word of an
instruction matches its row. -/
theorem decodeIsMatchAndMask : Obligations.DecodeIsMatchAndMask := by
  intro j row c p hrow
  constructor
  · rintro ⟨hmatch, hwf⟩
    have hd := decode_of_match hrow hmatch
    exact ⟨_, hd, (row?_ofCommand c j).trans hrow, hwf _ hd⟩
  · rintro ⟨i, hd, hi, hwf⟩
    refine ⟨match_of_decode hd hi, fun k hk => ?_⟩
    cases hd.symm.trans hk
    exact hwf

/-- Settles O3: a word that does not decode takes the fault that the decoder names. -/
theorem reservedAndMalformedWordsFault : Obligations.ReservedAndMalformedWordsFault := by
  intro c s hs op reserved
  refine ⟨fun hr => ?_, fun ha hn => ?_, decode_nop_iff⟩
  · rw [Machine.runCommand_illegalOpcode (decode_of_reserved hr), Machine.gated_raise hs,
      Machine.zext32_eq]
    rfl
  · rw [Machine.runCommand_illegalField (decode_of_no_match ha hn), Machine.gated_raise hs]
    rfl

/-- Settles O4: the four worked commands are encodings, which decode by `decode_encode`. -/
theorem workedEncodingsDecode : Obligations.WorkedEncodingsDecode :=
  ⟨rfl, decode_encode rfl, rfl, decode_encode rfl, rfl, decode_encode rfl, rfl, decode_encode rfl,
    rfl, rfl⟩

end Sys2Proof
end

section
/-! Faults: which command faults, with what, and what a fault leaves (R85, R262, R264, R267): range
checks (O49) and precision (O48). -/

namespace Sys2Proof.Machine

/-! ## Range checks come first (R85 steps 3 and 4) -/

section
variable {i : Instr} {s : State} {k : UnitKind} {u : UnitIx}

/-- The body of a command that uses UNIT is behind the check of UNIT. -/
theorem exec_withUnit (hu : i.unit? = some (k, u)) (s : State) :
    ∃ e, exec i s = gated (commandWord i) s (withUnit s k u e) := by
  cases i <;> cases hu <;> exact ⟨_, rfl⟩

/-- The body of a command with an index is behind the check of UNIT and then of the index. -/
theorem exec_withUnit_withIndex {n : Imm} (hu : i.unit? = some (k, u)) (hn : i.index? = some n)
    (s : State) : ∃ e, exec i s = gated (commandWord i) s (withUnit s k u (withIndex s n e)) := by
  cases i with
  | paramInit _ _ _ | paramRd _ _ _ => cases hu; cases hn; exact ⟨_, rfl⟩
  | _ => cases hn

end

/-- Settles O49: the checks are the outermost parts of a command's body, UNIT's before the
index's. -/
theorem rangeChecksFaultFirst : Obligations.RangeChecksFaultFirst := by
  intro i s k u hs hu
  refine ⟨fun hout => ?_, fun hin n hn hout => ?_⟩
  · obtain ⟨e, he⟩ := exec_withUnit hu s
    rw [he, withUnit_out hout, gated_raise hs, zext32_eq]
    rfl
  · obtain ⟨e, he⟩ := exec_withUnit_withIndex hu hn s
    rw [he, withUnit_ok hin, withIndex_out hout, gated_raise hs, zext32_eq]
    rfl

/-! ## A command that completes leaves FAULT as it was -/

section
variable {s : State}

/-- A body that completes with FAULT as it was. -/
abbrev Effect.KeepsFault (s : State) : Effect → Prop := Effect.Leaves fun t => t.fault = s.fault

theorem writeCsr_fault {r : Csr} {a : Word} {t : State} (h : s.writeCsr r a = some t) :
    t.fault = s.fault := by
  cases r <;> cases h <;> rfl

theorem keepsFault_ite {p : Prop} [Decidable p] {e f : Effect} (he : e.KeepsFault s)
    (hf : f.KeepsFault s) : (if p then e else f).KeepsFault s := by
  split
  · exact he
  · exact hf

theorem gated_body {w : Word} {e : Effect} (hs : s.fault = false) (he : e.KeepsFault s) :
    ∃ e', gated w s e = finish w s e' ∧ e'.KeepsFault s :=
  ⟨e, gated_running hs w e, he⟩

/-- While the block runs, every command is the end of a body that writes no FAULT. -/
theorem exec_running {i : Instr} (hi : i.isCommand = true) (hs : s.fault = false) :
    ∃ e, exec i s = finish (commandWord i) s e ∧ e.KeepsFault s := by
  cases i with
  | pwWrite _ _ _ => cases hi
  | nop => exact ⟨.done s 0, rfl, rfl⟩
  | csrRd n =>
    refine ⟨_, rfl, ?_⟩
    split
    · exact rfl
    · trivial
  | csrWr n a =>
    refine gated_body hs ?_
    split
    · trivial
    · split
      · trivial
      next hw => exact writeCsr_fault hw
  | dcbStep _ | limStep _ | busMaster | busClr => exact gated_body hs rfl
  | busAcc _ _ => exact gated_body hs (withUnit_leaves (keepsFault_ite rfl trivial))
  | voiceSet _ _ _ => exact gated_body hs (withUnit_leaves (keepsFault_ite trivial rfl))
  | voiceDel a =>
    refine gated_body hs ?_
    split
    · exact rfl
    · exact rfl
  | paramInit _ _ _ | paramRd _ _ _ =>
    exact gated_body hs (withUnit_leaves (withIndex_leaves (keepsFault_ite rfl trivial)))
  | paramPost _ _ _ => exact gated_body hs (keepsFault_ite rfl trivial)
  | paramCommit =>
    refine gated_body hs ?_
    split
    · trivial
    · exact rfl
  | gateStep _ _ | gateCfg _ _ | gateRd _ | gateInit _ | lpfStep _ _ _ | lpfInit _ | lpfRd _
  | hpfStep _ _ _ | hpfInit _ | hpfRd _ =>
    exact gated_body hs (withUnit_leaves (e := .done _ _) rfl)
  | envInit _ _ | envAtk _ _ | envDec _ _ | envSus _ _ | envRel _ _ | envThr _ _ | envStep _ _
  | envRdPos _ | envRdStg _ | envRdGate _ =>
    exact gated_body hs (withUnit_leaves (e := .done _ _) rfl)

/-! ## What a command that runs leaves (R262) -/

/-- The end of the command with word `w`, begun in `s` while the block ran: a fault writes the fault
registers, with a cause of R260, and the error response and nothing else; a completion responds
`rsp_err` 0. -/
structure PreciseEnd (w : Word) (s t : State) : Prop where
  faulted : t.fault = true →
    ∃ cause aux, t = s.faulted w cause aux ∧ 0x01 ≤ cause.toNat ∧ cause.toNat ≤ 0x0A
  completed : t.fault = false → ∃ d, t.rsp = some ⟨d, false⟩

theorem finish_precise (w : Word) {e : Effect} (hs : s.fault = false) (he : e.KeepsFault s) :
    ∃ t, finish w s e = .next t ∧ PreciseEnd w s t := by
  cases e with
  | done u d =>
    have hu : (u.respond d).fault = false := Eq.trans he hs
    exact ⟨_, rfl, fun h => Bool.noConfusion (h.symm.trans hu), fun _ => ⟨d, rfl⟩⟩
  | raise c aux =>
    exact ⟨_, congrArg _ (takeFault_running hs w c aux),
      fun _ => ⟨c.code, aux, rfl, code_range c⟩, nofun⟩

theorem exec_precise {i : Instr} (hi : i.isCommand = true) (hs : s.fault = false) :
    ∃ t, exec i s = .next t ∧ PreciseEnd (commandWord i) s t := by
  obtain ⟨e, hexec, he⟩ := exec_running hi hs
  rw [hexec]
  exact finish_precise _ hs he

/-- FINFO is the word accepted, whether it decodes or not. -/
theorem runCommand_precise (c : Command) (hs : s.fault = false) :
    ∃ t, runCommand c s = .next t ∧ PreciseEnd c.w s t := by
  rcases runCommand_cases c s with ⟨i, hd, hr⟩ | ⟨op, -, hr⟩ | ⟨w, -, hr⟩
  · obtain ⟨-, hi, hw⟩ := decode_instr hd
    rw [hr, ← hw]
    exact exec_precise hi hs
  · rw [hr, gated_running hs]
    exact finish_precise _ hs trivial
  · rw [hr, gated_running hs]
    exact finish_precise _ hs trivial

/-! ## What a command accepted while the block is halted leaves (R264, R268) -/

theorem onlyRsp_takeFault_halted (hs : s.fault = true) (w : Word) (cause : Cause) (aux : Word) :
    onlyRsp s (s.takeFault w cause aux) := by
  rw [takeFault_halted hs]
  rfl

theorem exec_halted_onlyRsp {i : Instr} {t : State} (hi : i.isCommand = true) (hs : s.fault = true)
    (h : exec i s = .next t) : onlyRsp s t := by
  cases i with
  | pwWrite _ _ _ => cases hi
  | nop => cases h; rfl
  | csrRd n =>
    rcases finish_next h with ⟨u, d, he, rfl⟩ | ⟨c, aux, -, rfl⟩
    · split at he
      · cases he
        rfl
      · cases he
    · exact onlyRsp_takeFault_halted hs _ c aux
  | _ =>
    obtain ⟨e, he⟩ := exec_gated _ hi nofun nofun s
    rw [he, gated_halted hs] at h
    cases h
    rfl

theorem runCommand_halted_onlyRsp {c : Command} {t : State} (hs : s.fault = true)
    (h : runCommand c s = .next t) : onlyRsp s t := by
  by_cases hd : ∃ i, decode c = .instr i
  · obtain ⟨i, hi⟩ := hd
    obtain ⟨-, hcmd, -⟩ := decode_instr hi
    rw [runCommand_instr hi] at h
    exact exec_halted_onlyRsp hcmd hs h
  · rw [runCommand_halted (not_exists.1 hd) hs] at h
    cases h
    rfl

end

/-- Settles O48: a command that runs ends precisely (`runCommand_precise`, `exec_precise`), and one
accepted after a fault changes nothing but the response (`runCommand_halted_onlyRsp`). -/
theorem faultsArePrecise : Obligations.FaultsArePrecise := by
  refine ⟨fun c s hs => ?_, fun i s hi hs => ?_⟩
  · obtain ⟨t, ht, hend⟩ := runCommand_precise c hs
    exact ⟨t, ht, fun hf => ⟨hend.faulted hf, fun _ _ hu => runCommand_halted_onlyRsp hf hu⟩,
      hend.completed⟩
  · obtain ⟨t, ht, hend⟩ := exec_precise hi hs
    exact ⟨t, ht, hend.faulted, hend.completed⟩

end Sys2Proof.Machine
end

section
/-! Gates: the rows of the transition table (R111) and O17; what one Gate command or ENV.STEP
leaves, and O15, O16, O18 from it; runs of GATE.STEP (R119, R120), and O19. -/

namespace Sys2Proof.Machine

/-! ## The transition table (R111)

One row per relation of sample and threshold, as the moves from Low, RisingEdge, High and
FallingEdge. -/

section
variable {a thr : Word}

/-- With a NaN every comparison is false, so every state takes its `else` branch. -/
theorem gateNext_nan (h : isNaN a = true ∨ isNaN thr = true) :
    gateNext .low a thr = .low ∧ gateNext .risingEdge a thr = .fallingEdge ∧
      gateNext .high a thr = .high ∧ gateNext .fallingEdge a thr = .risingEdge := by
  obtain ⟨hlt, hle⟩ := flt_fle_of_nan h
  obtain ⟨hgt, hge⟩ := flt_fle_of_nan h.symm
  simp [gateNext, fgt, fge, hlt, hle, hgt, hge]

theorem gateNext_above (h : flt thr a = true) :
    gateNext .low a thr = .risingEdge ∧ gateNext .risingEdge a thr = .high ∧
      gateNext .high a thr = .high ∧ gateNext .fallingEdge a thr = .risingEdge := by
  obtain ⟨ht, ha, hk⟩ := flt_iff.1 h
  have hge : fle thr a = true := fle_iff.2 ⟨ht, ha, by omega⟩
  have hlt : flt a thr = false := by rw [flt_eq_not_fle ha ht, hge, Bool.not_true]
  have hle : fle a thr = false := by rw [← Bool.not_eq_true', ← flt_eq_not_fle ht ha, h]
  simp [gateNext, fgt, fge, h, hge, hlt, hle]

theorem gateNext_at (ha : isNaN a = false) (ht : isNaN thr = false)
    (h : orderKey a = orderKey thr) :
    gateNext .low a thr = .low ∧ gateNext .risingEdge a thr = .high ∧
      gateNext .high a thr = .high ∧ gateNext .fallingEdge a thr = .low := by
  have hle : fle a thr = true := fle_iff.2 ⟨ha, ht, by omega⟩
  have hge : fle thr a = true := fle_iff.2 ⟨ht, ha, by omega⟩
  have hlt : flt a thr = false := by rw [flt_eq_not_fle ha ht, hge, Bool.not_true]
  have hgt : flt thr a = false := by rw [flt_eq_not_fle ht ha, hle, Bool.not_true]
  simp [gateNext, fgt, fge, hle, hge, hlt, hgt]

theorem gateNext_below (h : flt a thr = true) :
    gateNext .low a thr = .low ∧ gateNext .risingEdge a thr = .fallingEdge ∧
      gateNext .high a thr = .fallingEdge ∧ gateNext .fallingEdge a thr = .low := by
  obtain ⟨ha, ht, hk⟩ := flt_iff.1 h
  have hle : fle a thr = true := fle_iff.2 ⟨ha, ht, by omega⟩
  have hgt : flt thr a = false := by rw [flt_eq_not_fle ht ha, hle, Bool.not_true]
  have hge : fle thr a = false := by rw [← Bool.not_eq_true', ← flt_eq_not_fle ha ht, h]
  simp [gateNext, fgt, fge, h, hle, hgt, hge]

end

/-- Settles O17: the four rows, with above and below as comparisons of values that are not NaN. -/
theorem gateTransitionTable : Obligations.GateTransitionTable := fun _ _ =>
  ⟨gateNext_nan, fun ha ht =>
    ⟨fun h => gateNext_above (flt_iff.2 ⟨ht, ha, h⟩), gateNext_at ha ht,
      fun h => gateNext_below (flt_iff.2 ⟨ha, ht, h⟩)⟩⟩

/-- No move passes over a transitional state or stays in one (R112), whatever the comparisons
give. -/
theorem gateNext_adjacent (x : GateState) (a thr : Word) :
    (x = .risingEdge → gateNext x a thr = .high ∨ gateNext x a thr = .fallingEdge) ∧
      (x = .fallingEdge → gateNext x a thr = .low ∨ gateNext x a thr = .risingEdge) ∧
      (x = .low → gateNext x a thr ≠ .high) ∧ (x = .high → gateNext x a thr ≠ .low) := by
  cases x with
  | low => cases h : fgt a thr <;> simp [gateNext, h]
  | risingEdge => cases h : fge a thr <;> simp [gateNext, h]
  | high => cases h : flt a thr <;> simp [gateNext, h]
  | fallingEdge => cases h : fle a thr <;> simp [gateNext, h]

/-! ## Commands on a unit that exists -/

section
variable {s : State} (hs : s.fault = false)
include hs

/-- While the block runs, a command on a unit that exists completes as its body does. -/
theorem gated_withUnit_done {k : UnitKind} {u : UnitIx} (hu : u.toNat < s.params.count k)
    (w : Word) (t : State) (d : Word) :
    gated w s (withUnit s k u (.done t d)) = .next (t.respond d) := by
  rw [withUnit_ok hu, gated_done hs]

theorem exec_gateStep {g : UnitIx} (hg : g.toNat < s.params.nGate) (a : Word) :
    exec (.gateStep g a) s =
      .next ((s.setGate g ⟨gateNext (s.gate g).state a (s.gate g).thr, (s.gate g).thr⟩).respond
        (zext32 (gateNext (s.gate g).state a (s.gate g).thr).code)) :=
  gated_withUnit_done hs (k := .gate) hg _ _ _

theorem exec_gateCfg {g : UnitIx} (hg : g.toNat < s.params.nGate) (a : Word) :
    exec (.gateCfg g a) s = .next ((s.setGate g ⟨(s.gate g).state, a⟩).respond 0) :=
  gated_withUnit_done hs (k := .gate) hg _ _ _

theorem exec_gateInit {g : UnitIx} (hg : g.toNat < s.params.nGate) :
    exec (.gateInit g) s = .next ((s.setGate g ⟨.low, (s.gate g).thr⟩).respond 0) :=
  gated_withUnit_done hs (k := .gate) hg _ _ _

theorem exec_envStep {e : UnitIx} (he : e.toNat < s.params.nEnv) (a : Word) :
    exec (.envStep e a) s =
      .next (((s.setEnv e (envNext (s.nan 0) (s.nan 1) s.params s.speriod (s.env e) a)).drew
        2).respond (envNext (s.nan 0) (s.nan 1) s.params s.speriod (s.env e) a).pos) :=
  gated_withUnit_done hs (k := .env) he _ _ _

end

/-- A response is not part of any Gate. -/
@[simp] theorem gate_respond (s : State) (d : Word) (g : UnitIx) :
    (s.respond d).gate g = s.gate g := rfl

theorem gate_setGate_respond {s : State} {g : UnitIx} (hg : g.toNat < s.params.nGate)
    (hl : s.gates.length = s.params.nGate) (u : GateUnit) (d : Word) :
    ((s.setGate g u).respond d).gate g = u := by
  rw [gate_respond, gate_setGate_self (hl ▸ hg)]

theorem onlyGate_setGate_respond (s : State) (g : UnitIx) (u : GateUnit) (d : Word) :
    onlyGate s ((s.setGate g u).respond d) g :=
  ⟨rfl, fun _ hx => gate_setGate_ne hx u⟩

/-- Settles O15: `exec_gateStep`, read at Gate `g` and everywhere else. -/
theorem gateStepAdvancesOneGate : Obligations.GateStepAdvancesOneGate := by
  intro s g a hs hg hl
  refine ⟨_, exec_gateStep hs hg a, ?_, ?_, ?_, onlyGate_setGate_respond s g _ _⟩
  · rw [gate_setGate_respond hg hl]
  · rw [gate_setGate_respond hg hl]
  · rw [gate_setGate_respond hg hl]
    exact congrArg (fun v => some (Response.mk v false)) (zext32_gateCode _)

/-- Settles O16: `exec_gateCfg` and `exec_gateInit`, read at Gate `g` and everywhere else. -/
theorem gateConfigAndInitWriteOneField : Obligations.GateConfigAndInitWriteOneField := by
  intro s g a hs hg hl
  exact
    ⟨⟨_, exec_gateCfg hs hg a, gate_setGate_respond hg hl _ _, rfl,
        onlyGate_setGate_respond s g _ _⟩,
      ⟨_, exec_gateInit hs hg, gate_setGate_respond hg hl _ _, rfl,
        onlyGate_setGate_respond s g _ _⟩⟩

/-- Settles O18: GATE.STEP and ENV.STEP move their Gate by `gateNext`, whose moves are adjacent. -/
theorem edgesLastOneSample : Obligations.EdgesLastOneSample := by
  intro s t u a hs
  refine ⟨fun hu hl h => ?_, fun hu hl h => ?_⟩
  · cases (exec_gateStep hs hu a).symm.trans h
    rw [gate_setGate_respond hu hl]
    exact gateNext_adjacent _ a _
  · cases (exec_envStep hs hu a).symm.trans h
    have hgate : ((s.setEnv u (envNext (s.nan 0) (s.nan 1) s.params s.speriod (s.env u) a)).env
        u).gate = gateNext (s.env u).gate a (s.env u).thr := by
      rw [env_setEnv_self (hl ▸ hu)]
      rfl
    exact hgate ▸ gateNext_adjacent _ a _

/-! ## Runs of GATE.STEP (R119, R120) -/

/-- The block runs, Gate `g` exists, and it holds state `x` and threshold `thr`. -/
structure GateHolds (s : State) (g : UnitIx) (x : GateState) (thr : Word) : Prop where
  running : s.fault = false
  inRange : g.toNat < s.params.nGate
  length : s.gates.length = s.params.nGate
  holds : s.gate g = ⟨x, thr⟩

section
variable {s : State} {g : UnitIx} {x y : GateState} {a thr : Word}

theorem GateHolds.state (h : GateHolds s g x thr) : (s.gate g).state = x :=
  congrArg GateUnit.state h.holds

/-- One GATE.STEP keeps all that the next one needs, and responds the state it leaves. -/
theorem GateHolds.step (h : GateHolds s g x thr) (hxy : gateNext x a thr = y) :
    ∃ t, exec (.gateStep g a) s = .next t ∧ t.rsp = some ⟨zext32 y.code, false⟩ ∧
      GateHolds t g y thr := by
  have hexec := exec_gateStep h.running h.inRange a
  rw [h.holds, hxy] at hexec
  exact ⟨_, hexec, rfl, h.running, h.inRange, (List.length_set ..).trans h.length,
    gate_setGate_respond h.inRange h.length _ _⟩

/-- Samples below the threshold leave a Low Gate Low, however many (R119). -/
theorem GateHolds.stays_low (h : GateHolds s g .low thr) (ha : gateNext .low a thr = .low)
    (n : Nat) :
    ∃ t, execAll (List.replicate n (.gateStep g a)) s = some t ∧ (t.gate g).state = .low := by
  induction n generalizing s with
  | zero => exact ⟨s, rfl, h.state⟩
  | succ n ih =>
    obtain ⟨t, ht, -, hlow⟩ := h.step ha
    rw [List.replicate_succ, execAll, ht]
    exact ih hlow

end

/-- Settles O19: each GATE.STEP is one `GateHolds.step`, by its sample's row of the table. -/
theorem gateStepResponse : Obligations.GateStepResponse := by
  intro s g hi lo hs hg hl hlow habove hbelow
  obtain ⟨riseLow, highRise, -, -⟩ := gateNext_above habove
  obtain ⟨stayLow, fallRise, fallHigh, lowFall⟩ := gateNext_below hbelow
  have h0 : GateHolds s g .low (s.gate g).thr := ⟨hs, hg, hl, by rw [← hlow]⟩
  obtain ⟨t1, e1, r1, h1⟩ := h0.step riseLow
  refine ⟨?_, ?_, h0.stays_low stayLow⟩
  · obtain ⟨t2, e2, r2, h2⟩ := h1.step highRise
    obtain ⟨t3, e3, r3, h3⟩ := h2.step fallHigh
    obtain ⟨t4, e4, r4, h4⟩ := h3.step lowFall
    exact ⟨t1, t2, t3, t4, e1, ⟨h1.state, r1⟩, e2, ⟨h2.state, r2⟩, e3, ⟨h3.state, r3⟩,
      e4, h4.state, r4⟩
  · obtain ⟨t2, e2, r2, h2⟩ := h1.step fallRise
    obtain ⟨t3, e3, r3, h3⟩ := h2.step lowFall
    exact ⟨t1, t2, t3, e1, ⟨h1.state, r1⟩, e2, ⟨h2.state, r2⟩, e3, h3.state, r3⟩

end Sys2Proof.Machine
end

section
/-! Envelopes: what one envelope command leaves, and O20, O21 from it; ENV.STEP stage by stage
(R132 to R137), and O22, O23, O25 from it; positions in [0, 1] (R152), and O24. -/

namespace Sys2Proof.Machine

/-! ## What one envelope command leaves -/

section
variable {s : State} {e : UnitIx} (hs : s.fault = false) (he : e.toNat < s.params.nEnv)
  (hl : s.envs.length = s.params.nEnv)
include hs he hl

/-- While the block runs, a command whose body writes envelope `e`, with `n` operations, leaves that
unit and its response, and nothing else. -/
theorem envCommand_leaves (w : Word) (u : EnvUnit) (n : Nat) (d : Word) :
    ∃ t, gated w s (withUnit s .env e (.done ((s.setEnv e u).drew n) d)) = .next t ∧
      t.env e = u ∧ t.rsp = some ⟨d, false⟩ ∧ onlyEnv s t e :=
  ⟨_, gated_withUnit_done hs (k := .env) he w _ d, env_setEnv_self (hl ▸ he) u, rfl, rfl,
    fun _ hx => env_setEnv_ne hx u⟩

theorem envStep_leaves (a : Word) :
    ∃ t, exec (.envStep e a) s = .next t ∧
      t.env e = envNext (s.nan 0) (s.nan 1) s.params s.speriod (s.env e) a ∧
      t.rsp = some ⟨(envNext (s.nan 0) (s.nan 1) s.params s.speriod (s.env e) a).pos, false⟩ ∧
      onlyEnv s t e :=
  envCommand_leaves hs he hl _ _ _ _

/-- The unit that an ENV.STEP leaves. -/
theorem env_of_envStep {t : State} {a : Word} (h : exec (.envStep e a) s = .next t) :
    t.env e = envNext (s.nan 0) (s.nan 1) s.params s.speriod (s.env e) a := by
  obtain ⟨t', ht', hv, -⟩ := envStep_leaves hs he hl a
  cases ht'.symm.trans h
  exact hv

end

/-- Settles O20: each command writes one field, and its increment is one quotient. -/
theorem envTimesSetTheirIncrement : Obligations.EnvTimesSetTheirIncrement :=
  fun s _ _ hs he hl => ⟨s.nan 0, isNaN_nan s 0, envCommand_leaves hs he hl _ _ 1 _,
    envCommand_leaves hs he hl _ _ 1 _, envCommand_leaves hs he hl _ _ 1 _⟩

/-- Settles O21: as O20, with no operation. -/
theorem envLevelThresholdAndInit : Obligations.EnvLevelThresholdAndInit :=
  fun _ _ _ _ hs he hl => ⟨envCommand_leaves hs he hl _ _ 0 _, envCommand_leaves hs he hl _ _ 0 _,
    envCommand_leaves hs he hl _ _ 0 _⟩

/-! ## The transitions that the Gate drives (R135, R136) -/

/-- R135's retrigger, written out: a rising edge in a stage that allows one. -/
def Retriggers (p : Params) (u : EnvUnit) (g : GateState) : Prop :=
  g = .risingEdge ∧
    (u.stage = .silence ∨ u.stage = .decay ∨ u.stage = .sustain ∨
      (u.stage = .attack ∧ p.retrigAttack = true) ∨
      (u.stage = .release ∧ (u.mode = .ar ∨ p.adsrRetrigRelease = true)))

theorem isLowish_iff (g : GateState) : isLowish g = true ↔ g = .low ∨ g = .fallingEdge := by
  simp [isLowish]

section
variable {p : Params} {u : EnvUnit} {g : GateState}

theorem retriggers_iff :
    (isRisingEdge g && retrigAllowed p u.mode u.stage) = true ↔ Retriggers p u g := by
  rw [Bool.and_eq_true, retrigAllowed_iff, isRisingEdge, beq_iff_eq, Retriggers]

theorem envTransition_retrigger (h : Retriggers p u g) :
    envTransition p u g = (.attack, posZero) := by
  rw [envTransition, if_pos (retriggers_iff.2 h)]

theorem envTransition_sustain (h : ¬ Retriggers p u g) (hst : u.stage = .sustain) :
    envTransition p u g =
      (if u.mode = .adsr ∧ (g = .low ∨ g = .fallingEdge) then .release else .sustain, u.pos) := by
  rw [envTransition, if_neg (mt retriggers_iff.1 h)]
  simp only [hst, ← isLowish_iff, Bool.and_eq_true, beq_iff_eq, and_true]
  split <;> rfl

/-- Without a retrigger, the Gate moves no stage but Sustain. -/
theorem envTransition_stay {st : Stage} (h : ¬ Retriggers p u g) (hst : u.stage = st)
    (hne : st ≠ .sustain) : envTransition p u g = (st, u.pos) := by
  rw [envTransition, if_neg (mt retriggers_iff.1 h), if_neg (by simp [hst, hne]), hst]

end

/-! ## The advance of a stage (R136, R137)

One equation for all stages: a stage goes on from the position advanced, or ends at its target. -/

/-- The position that stage `st` advances to from `x`; Silence and Sustain hold theirs. -/
def EnvUnit.advanced (u : EnvUnit) (n m dt : Word) (st : Stage) (x : Word) : Word :=
  match st with
  | .attack => fadd m x (fmul n u.atk dt)
  | .decay => fsub m x (fmul n u.dec dt)
  | .release => fsub m x (fmul n u.rel dt)
  | .silence | .sustain => x

/-- Whether position `y` reaches or passes the target of stage `st`; Silence and Sustain have
none. -/
def EnvUnit.reaches (u : EnvUnit) (st : Stage) (y : Word) : Bool :=
  match st with
  | .attack => fge y one
  | .decay => fle y u.sus
  | .release => fle y posZero
  | .silence | .sustain => false

/-- The stage after `st` in the chain of the unit's mode (R132, R133), with the target at which `st`
ends. -/
def EnvUnit.chainEnd (u : EnvUnit) : Stage → Stage × Word
  | .attack => (if u.mode = .ar then .release else .decay, one)
  | .decay => (.sustain, u.sus)
  | .release | .silence | .sustain => (.silence, posZero)

theorem chainEnd_ne_release {u : EnvUnit} (hm : u.mode = .adsr) (st : Stage) :
    (u.chainEnd st).1 ≠ .release := by
  cases st <;> simp [EnvUnit.chainEnd, hm]

section
variable {n m dt x : Word} {u : EnvUnit} {st : Stage}

theorem envAdvance_eq (n m : Word) (u : EnvUnit) (dt : Word) (st : Stage) (x : Word) :
    envAdvance n m u dt st x =
      if u.reaches st (u.advanced n m dt st x) then u.chainEnd st
      else (st, u.advanced n m dt st x) := by
  cases st <;> rfl

theorem envAdvance_stage (n m : Word) (u : EnvUnit) (dt : Word) (st : Stage) (x : Word) :
    (envAdvance n m u dt st x).1 = st ∨ (envAdvance n m u dt st x).1 = (u.chainEnd st).1 := by
  rw [envAdvance_eq]
  split
  · exact .inr rfl
  · exact .inl rfl

theorem envAdvance_ends (h : (envAdvance n m u dt st x).1 ≠ st) :
    envAdvance n m u dt st x = u.chainEnd st := by
  rw [envAdvance_eq] at h ⊢
  split at h
  next hr => rw [if_pos hr]
  next => exact absurd rfl h

/-- A NaN reaches no target (R150). -/
theorem envAdvance_of_nan (h : isNaN (u.advanced n m dt st x) = true) :
    envAdvance n m u dt st x = (st, u.advanced n m dt st x) := by
  have hle (y : Word) := (flt_fle_of_nan (b := y) (.inl h)).2
  have hge (y : Word) := (flt_fle_of_nan (a := y) (.inr h)).2
  have hr : u.reaches st (u.advanced n m dt st x) = false := by
    cases st with
    | attack => exact hge one
    | decay => exact hle u.sus
    | release => exact hle posZero
    | silence | sustain => rfl
  rw [envAdvance_eq, hr]
  rfl

end

/-! ## ENV.STEP, stage by stage -/

section
variable {n m dt a x : Word} {p : Params} {u : EnvUnit} {st : Stage}

/-- Where the Gate's transitions take the unit decides what it advances. -/
theorem envNext_stage_pos (h : envTransition p u (gateNext u.gate a u.thr) = (st, x)) :
    ((envNext n m p dt u a).stage, (envNext n m p dt u a).pos) = envAdvance n m u dt st x := by
  rw [envNext, h]

theorem envNext_stage (h : envTransition p u (gateNext u.gate a u.thr) = (st, x)) :
    (envNext n m p dt u a).stage = st ∨ (envNext n m p dt u a).stage = (u.chainEnd st).1 := by
  rw [show (envNext n m p dt u a).stage = _ from congrArg Prod.fst (envNext_stage_pos h)]
  exact envAdvance_stage n m u dt st x

/-- A stage that the advance ends leaves the position at its target. -/
theorem envNext_pos_of_end (h : envTransition p u (gateNext u.gate a u.thr) = (st, x))
    (hne : (envNext n m p dt u a).stage ≠ st) :
    (envNext n m p dt u a).pos = (u.chainEnd st).2 := by
  have hpair := envNext_stage_pos (n := n) (m := m) (dt := dt) h
  have hst : (envNext n m p dt u a).stage = _ := congrArg Prod.fst hpair
  rw [envAdvance_ends (hst ▸ hne)] at hpair
  exact congrArg Prod.snd hpair

/-- A retriggered step leaves Attack, or the stage after it. -/
theorem envNext_stage_of_retrigger (h : Retriggers p u (gateNext u.gate a u.thr)) :
    (envNext n m p dt u a).stage ≠ .sustain ∧ (envNext n m p dt u a).stage ≠ .silence := by
  rcases envNext_stage (n := n) (m := m) (dt := dt) (envTransition_retrigger h) with h | h <;> rw [h]
  · exact ⟨nofun, nofun⟩
  · simp only [EnvUnit.chainEnd]
    split <;> exact ⟨nofun, nofun⟩

end

/-- The two ways of a stage's advance, read off the stage and position it leaves. -/
theorem ite_of_eq_ite_pair {α β : Type} {c : Prop} [Decidable c] {a a₁ a₂ : α} {b b₁ b₂ : β}
    (h : (a, b) = if c then (a₁, b₁) else (a₂, b₂)) :
    if c then b = b₁ ∧ a = a₁ else b = b₂ ∧ a = a₂ := by
  split at h <;> cases h <;> simp [*]

/-- Settles O22: each clause is one transition of the Gate and one stage's advance. -/
theorem envStepByStage : Obligations.EnvStepByStage := by
  intro s e a hs he hl
  obtain ⟨t, ht, hv, hrsp, honly⟩ := envStep_leaves hs he hl a
  have hgo {st : Stage} {x : Word}
      (h : envTransition s.params (s.env e) (gateNext (s.env e).gate a (s.env e).thr) = (st, x)) :
      ((t.env e).stage, (t.env e).pos) =
        envAdvance (s.nan 0) (s.nan 1) (s.env e) s.speriod st x := by
    rw [hv]
    exact envNext_stage_pos h
  refine ⟨t, s.nan 0, s.nan 1, ht, isNaN_nan s 0, isNaN_nan s 1, honly, by rw [hrsp, hv], ?_,
    fun h => ite_of_eq_ite_pair (hgo (envTransition_retrigger h)), fun h hst => ?_,
    fun h hst => ite_of_eq_ite_pair (hgo (envTransition_stay h hst nofun)),
    fun h hst => ite_of_eq_ite_pair (hgo (envTransition_stay h hst nofun)), fun h hst => ?_,
    fun h hst => ite_of_eq_ite_pair (hgo (envTransition_stay h hst nofun))⟩
  · rw [hv]
    rfl
  · exact Prod.mk.inj (hgo (envTransition_stay h hst nofun))
  · have htrans := envTransition_sustain h hst
    split
    next hrel =>
      rw [if_pos hrel] at htrans
      exact ite_of_eq_ite_pair (hgo htrans)
    next hrel =>
      rw [if_neg hrel] at htrans
      exact Prod.mk.inj (hgo htrans)

/-- The three ways of a step, by the stage that is current after the Gate's transitions. -/
theorem envNext_stage_cases (n m : Word) (p : Params) (dt : Word) (u : EnvUnit) (a : Word) :
    let g := gateNext u.gate a u.thr
    let v := envNext n m p dt u a
    (Retriggers p u g ∧ (v.stage = .attack ∨ v.stage = (u.chainEnd .attack).1)) ∨
      (u.stage = .sustain ∧ isLowish g = true) ∨
      (¬ Retriggers p u g ∧ (v.stage = u.stage ∨ v.stage = (u.chainEnd u.stage).1)) := by
  intro g v
  by_cases hr : Retriggers p u g
  · exact .inl ⟨hr, envNext_stage (envTransition_retrigger hr)⟩
  · right
    by_cases hst : u.stage = .sustain
    · have htrans := envTransition_sustain hr hst
      split at htrans
      next hrel => exact .inl ⟨hst, (isLowish_iff g).2 hrel.2⟩
      next => exact .inr ⟨hr, hst ▸ envNext_stage htrans⟩
    · exact .inr ⟨hr, envNext_stage (envTransition_stay hr rfl hst)⟩

/-- Settles O23: no stage of the ADSR chain but Sustain leads to Release, and from Sustain only a
low-ish Gate does. -/
theorem releaseIsEnteredOnlyFromSustain : Obligations.ReleaseIsEnteredOnlyFromSustain := by
  intro s t e a hs he hl hm h
  have hne := chainEnd_ne_release hm
  have hdecay : ((s.env e).chainEnd .attack).1 = .decay := by simp [EnvUnit.chainEnd, hm]
  have hcases := envNext_stage_cases (s.nan 0) (s.nan 1) s.params s.speriod (s.env e) a
  have hv := env_of_envStep hs he hl h
  have hg : (t.env e).gate = gateNext (s.env e).gate a (s.env e).thr := congrArg EnvUnit.gate hv
  simp only [← hv, ← hg] at hcases
  obtain ⟨hr, hatk⟩ | ⟨hst, hlow⟩ | ⟨-, hstage⟩ := hcases
  · refine ⟨fun hrel _ => ?_, fun hedge => absurd hr.1 hedge, fun hedge => absurd hr.1 hedge⟩
    rw [hrel, hdecay] at hatk
    simp at hatk
  · simp [hst, hlow]
  · refine ⟨fun hrel hst => ?_, fun _ hst => ?_, fun _ hst => ?_⟩
    · rw [hrel] at hstage
      rcases hstage with hsame | hnext
      · exact absurd hsame.symm hst
      · exact absurd hnext.symm (hne _)
    · rwa [hst, hdecay] at hstage
    · rwa [hst] at hstage

/-- Settles O25: the product or the sum has a NaN operand, so the position advanced is a NaN. -/
theorem envNanHoldsTheStage : Obligations.EnvNanHoldsTheStage := by
  intro s t e a hs he hl h hno bad hbad
  have hv := env_of_envStep hs he hl h
  have hg : (t.env e).gate = gateNext (s.env e).gate a (s.env e).thr := congrArg EnvUnit.gate hv
  rw [hg] at hno
  have hsum {inc : Word} (h : bad inc) :
      isNaN (s.env e).pos = true ∨ isNaN (fmul (s.nan 0) inc s.speriod) = true := by
    rcases h with h | h | h
    · exact .inr (by rw [fmul_nan (.inl h), isNaN_nan])
    · exact .inr (by rw [fmul_nan (.inr h), isNaN_nan])
    · exact .inl h
  have hhold {st : Stage} (hst : (s.env e).stage = st) (hne : st ≠ .sustain)
      (hy : (s.env e).advanced (s.nan 0) (s.nan 1) s.speriod st (s.env e).pos = s.nan 1) :
      (t.env e).stage = (s.env e).stage ∧ isNaN (t.env e).pos = true := by
    have hpair := envNext_stage_pos (n := s.nan 0) (m := s.nan 1) (dt := s.speriod)
      (envTransition_stay hno hst hne)
    rw [envAdvance_of_nan (by rw [hy, isNaN_nan]), hy, ← hv] at hpair
    obtain ⟨hst', hpos⟩ := Prod.mk.inj hpair
    exact ⟨hst'.trans hst.symm, by rw [hpos, isNaN_nan]⟩
  rcases hbad with ⟨hst, h⟩ | ⟨hst, h⟩ | ⟨hst, h⟩
  · exact hhold hst nofun (fadd_nan (hsum h))
  · exact hhold hst nofun (fsub_nan (hsum h))
  · exact hhold hst nofun (fsub_nan (hsum h))

/-! ## Bounds that rounding keeps -/

theorem fle_of_not_fle {a b : Word} (ha : isNaN a = false) (hb : isNaN b = false)
    (h : fle a b = false) : fle b a = true := by
  have hlt : flt b a = true := by rw [flt_eq_not_fle hb ha, h]; rfl
  obtain ⟨-, -, hk⟩ := flt_iff.1 hlt
  exact fle_iff.2 ⟨hb, ha, Int.le_of_lt hk⟩

section
variable {r c : Word} {num den : Int}

theorem RoundsTo.not_nan (h : RoundsTo r num den) : isNaN r = false := by
  cases hf : isFinite r with
  | true => exact isNaN_of_isFinite hf
  | false => exact isNaN_of_isInf (h.2.1 hf).1

/-- A finite magnitude is below the one from which rounding overflows. -/
theorem magUnits_lt_overflow (hc : isFinite c = true) : magUnits c < (2 ^ 25 - 1) * 2 ^ 252 := by
  have hlt := (isFinite_iff c).1 hc
  rw [← roundMag_magUnits c hlt] at hlt
  have hinf := roundMag_eq_inf_iff (num := magUnits c) Nat.one_pos
  omega

/-- An exact value that is at most a finite binary32 value rounds to at most that value. -/
theorem RoundsTo.fle_of_le (h : RoundsTo r num den) (hden : 0 < den) (hc : isFinite c = true)
    (hle : num ≤ units c * den) : fle r c = true := by
  have hr := h.not_nan
  obtain ⟨hnear, hover, -, hpos, hneg⟩ := h
  refine fle_iff.2 ⟨hr, isNaN_of_isFinite hc, ?_⟩
  cases hf : isFinite r with
  | true =>
    rw [orderKey_le_iff hf hc]
    by_contra hlt
    have hmul : units c * den < units r * den := Int.mul_lt_mul_of_pos_right (not_le.1 hlt) hden
    have := (hnear hf c hc).1
    omega
  | false =>
    obtain ⟨hinf, hbig⟩ := hover hf
    have hnum : num < 0 := by
      by_contra hge
      have hmag : units c * den ≤ magUnits c * den :=
        Int.mul_le_mul_of_nonneg_right (by have := units_eq_or c; omega) (Int.le_of_lt hden)
      have hlt : magUnits c * den.natAbs < (2 ^ 25 - 1) * 2 ^ 252 * den.natAbs :=
        Nat.mul_lt_mul_of_pos_right (magUnits_lt_overflow hc) (by omega)
      have hcast : ((magUnits c * den.natAbs : Nat) : Int) = magUnits c * den := by
        rw [Nat.cast_mul, Int.natAbs_of_nonneg (Int.le_of_lt hden)]
      omega
    have hkey : orderKey r = orderKey 0xFF800000 := by
      rw [isInf_eq_withSign hinf, hneg (mul_neg_of_neg_of_pos hnum hden)]
      rfl
    have := (orderKey_between hc).1
    omega

/-- An exact value that is not below 0 rounds to a value that is not. -/
theorem RoundsTo.nonneg (h : RoundsTo r num den) (hden : 0 < den) (hnum : 0 ≤ num) :
    fle posZero r = true := by
  have hr := h.not_nan
  obtain ⟨hnear, hover, -, hpos, -⟩ := h
  refine fle_iff.2 ⟨rfl, hr, ?_⟩
  cases hf : isFinite r with
  | true =>
    rw [orderKey_le_iff rfl hf]
    by_contra hlt
    have hmul : units r * den < 0 := mul_neg_of_neg_of_pos (not_le.1 hlt) hden
    have := (hnear hf posZero rfl).1
    rw [show units posZero = 0 from rfl, zero_mul] at this
    omega
  | false =>
    obtain ⟨-, hbig⟩ := hover hf
    have hsign := hpos (mul_pos (by omega) hden)
    rw [orderKey, orderKey, hsign]
    exact Int.natCast_nonneg _

end

/-! ## Values not below 0 -/

section
variable {n a b x p : Word}

theorem units_nonneg (hf : isFinite a = true) (h : fle posZero a = true) : 0 ≤ units a := by
  obtain ⟨-, -, hk⟩ := fle_iff.1 h
  exact (orderKey_le_iff rfl hf).1 hk

/-- A value that is not below 0 is finite or the infinity above 0. -/
theorem isFinite_or_eq_inf (h : fle posZero a = true) :
    isFinite a = true ∨ a = 0x7F800000 := by
  obtain ⟨-, hnan, hk⟩ := fle_iff.1 h
  rcases isInf_or_isFinite hnan with hi | hf
  · right
    rw [isInf_eq_withSign hi] at hk ⊢
    cases hn : isNeg a with
    | false => rfl
    | true => rw [hn] at hk; exact absurd hk (by decide)
  · exact .inl hf

theorem fmul_nonneg (ha : finiteNonneg a = true) (hb : finiteNonneg b = true) :
    fle posZero (fmul n a b) = true := by
  obtain ⟨hfa, ha⟩ := Bool.and_eq_true_iff.1 ha
  obtain ⟨hfb, hb⟩ := Bool.and_eq_true_iff.1 hb
  exact (fmul_roundsTo hfa hfb).nonneg (by decide)
    (mul_nonneg (units_nonneg hfa ha) (units_nonneg hfb hb))

section
variable (hf : isFinite x = true) (hp : fle posZero p = true)
include hf hp

theorem fadd_nonneg (hx : fle posZero x = true) : fle posZero (fadd n x p) = true := by
  rcases isFinite_or_eq_inf hp with hfp | rfl
  · exact (fadd_roundsTo hf hfp).nonneg Int.one_pos
      (add_nonneg (units_nonneg hf hx) (units_nonneg hfp hp))
  · rw [fadd_inf_right hf rfl]
    rfl

theorem fsub_fle : fle (fsub n x p) x = true := by
  rcases isFinite_or_eq_inf hp with hfp | rfl
  · refine (fadd_roundsTo hf (by rw [isFinite_fneg, hfp])).fle_of_le Int.one_pos hf ?_
    have := units_nonneg hfp hp
    rw [units_fneg]
    omega
  · rw [fsub, fadd_inf_right hf rfl]
    exact fle_iff.2 ⟨rfl, isNaN_of_isFinite hf, Int.le_of_lt (orderKey_between hf).1⟩

end

end

/-! ## Positions in [0, 1] (R152) -/

section
variable {n m dt x : Word} {u : EnvUnit} {st : Stage}

theorem inUnit_iff : inUnit x = true ↔ fle posZero x = true ∧ fle x one = true :=
  Bool.and_eq_true_iff

theorem inUnit_posZero : inUnit posZero = true := rfl

theorem inUnit_one : inUnit one = true := rfl

theorem isFinite_of_inUnit (h : inUnit x = true) : isFinite x = true := by
  obtain ⟨h0, h1⟩ := inUnit_iff.1 h
  rcases isFinite_or_eq_inf h0 with hf | rfl
  · exact hf
  · exact absurd h1 (by decide)

/-- What R152 asks of a unit's increments and sustain level, and of `dt`. -/
structure EnvUnit.Normal (u : EnvUnit) (dt : Word) : Prop where
  sus : inUnit u.sus = true
  atk : finiteNonneg u.atk = true
  dec : finiteNonneg u.dec = true
  rel : finiteNonneg u.rel = true
  dt : finiteNonneg dt = true

/-- A fall from [0, 1] that has not reached a target in [0, 1] is in [0, 1]. -/
theorem inUnit_of_fall {y target : Word} (hx : inUnit x = true) (hy : fle y x = true)
    (ht : inUnit target = true) (h : fle y target = false) : inUnit y = true := by
  obtain ⟨-, hx1⟩ := inUnit_iff.1 hx
  obtain ⟨ht0, -⟩ := inUnit_iff.1 ht
  obtain ⟨hny, -, -⟩ := fle_iff.1 hy
  obtain ⟨-, hnt, -⟩ := fle_iff.1 ht0
  exact inUnit_iff.2 ⟨fle_trans ht0 (fle_of_not_fle hny hnt h), fle_trans hy hx1⟩

theorem inUnit_chainEnd (hu : u.Normal dt) : inUnit (u.chainEnd st).2 = true := by
  cases st with
  | attack => exact inUnit_one
  | decay => exact hu.sus
  | silence | sustain | release => exact inUnit_posZero

theorem inUnit_advanced (hu : u.Normal dt) (hx : inUnit x = true)
    (h : u.reaches st (u.advanced n m dt st x) = false) :
    inUnit (u.advanced n m dt st x) = true := by
  have hf := isFinite_of_inUnit hx
  cases st with
  | silence | sustain => exact hx
  | attack =>
    have hy := fadd_nonneg (n := m) hf (fmul_nonneg (n := n) hu.atk hu.dt) (inUnit_iff.1 hx).1
    obtain ⟨-, hny, -⟩ := fle_iff.1 hy
    exact inUnit_iff.2 ⟨hy, fle_of_not_fle rfl hny h⟩
  | decay => exact inUnit_of_fall hx (fsub_fle hf (fmul_nonneg hu.dec hu.dt)) hu.sus h
  | release => exact inUnit_of_fall hx (fsub_fle hf (fmul_nonneg hu.rel hu.dt)) inUnit_posZero h

theorem inUnit_envAdvance (hu : u.Normal dt) (hx : inUnit x = true) :
    inUnit (envAdvance n m u dt st x).2 = true := by
  rw [envAdvance_eq]
  split
  next => exact inUnit_chainEnd hu
  next h => exact inUnit_advanced hu hx (Bool.eq_false_iff.2 h)

theorem inUnit_envNext {p : Params} {a : Word} (hu : u.Normal dt) (hx : inUnit u.pos = true) :
    inUnit (envNext n m p dt u a).pos = true := by
  refine inUnit_envAdvance hu ?_
  rcases envTransition_pos p u (gateNext u.gate a u.thr) with h | h <;> rw [h]
  · exact hx
  · exact inUnit_posZero

end

/-- Settles O24: the position stays in [0, 1] through the Gate's transition and the advance, and a
stage that ends is at its target. -/
theorem envPositionStaysNormalized : Obligations.EnvPositionStaysNormalized := by
  intro s e a hs he hl hpos hsus hatk hdec hrel hdt
  obtain ⟨t, ht, hv, -, -⟩ := envStep_leaves hs he hl a
  refine ⟨t, ht, ?_⟩
  rw [hv]
  have hno (h : Retriggers s.params (s.env e) (gateNext (s.env e).gate a (s.env e).thr)) :=
    envNext_stage_of_retrigger (n := s.nan 0) (m := s.nan 1) (dt := s.speriod) h
  refine ⟨inUnit_envNext ⟨hsus, hatk, hdec, hrel, hdt⟩ hpos, fun hst hne => ?_, fun hst h => ?_,
    fun hst h => ?_⟩
  · by_cases hr : Retriggers s.params (s.env e) (gateNext (s.env e).gate a (s.env e).thr)
    · exact envNext_pos_of_end (envTransition_retrigger hr) hne
    · exact envNext_pos_of_end (envTransition_stay hr hst nofun) hne
  · exact envNext_pos_of_end (envTransition_stay (fun hr => (hno hr).1 h) hst nofun)
      (by rw [h]; nofun)
  · exact envNext_pos_of_end (envTransition_stay (fun hr => (hno hr).2 h) hst nofun)
      (by rw [h]; nofun)

end Sys2Proof.Machine
end

section
/-! One-pole filters and NaN memories: what one filter command leaves, and O26 to O28 from it; the
NaNs that go round a recursion (R161, R165, R181, R188), and O29. -/

namespace Sys2Proof.Machine

/-! ## What one filter command leaves -/

section
variable {s : State} {f : UnitIx} (hs : s.fault = false)
include hs

section
variable (hf : f.toNat < s.params.nLpf) (hl : s.lpfs.length = s.params.nLpf)
include hf hl

/-- While the block runs, a command whose body writes lowpass `f`, with `n` operations, leaves that
state and its response, and nothing else. -/
theorem lpfCommand_leaves (w x : Word) (n : Nat) (d : Word) :
    ∃ t, gated w s (withUnit s .lpf f (.done ((s.setLpf f x).drew n) d)) = .next t ∧
      t.lpf f = x ∧ t.rsp = some ⟨d, false⟩ ∧ onlyLpf s t f :=
  ⟨_, gated_withUnit_done hs (k := .lpf) hf w _ d, lpf_setLpf_self (hl ▸ hf) x, rfl, rfl,
    fun _ hx => lpf_setLpf_ne hx x⟩

theorem lpfStep_leaves (a b : Word) :
    ∃ t, exec (.lpfStep f a b) s = .next t ∧
      t.lpf f = lpfNext s.nan s.speriod (s.lpf f) a b ∧
      t.rsp = some ⟨lpfNext s.nan s.speriod (s.lpf f) a b, false⟩ ∧ onlyLpf s t f :=
  lpfCommand_leaves hs hf hl _ _ 7 _

end

section
variable (hf : f.toNat < s.params.nHpf) (hl : s.hpfs.length = s.params.nHpf)
include hf hl

/-- As `lpfCommand_leaves`, for the difference memory of highpass `f`. -/
theorem hpfCommand_leaves (w x : Word) (n : Nat) (d : Word) :
    ∃ t, gated w s (withUnit s .hpf f (.done ((s.setHpf f x).drew n) d)) = .next t ∧
      t.hpf f = x ∧ t.rsp = some ⟨d, false⟩ ∧ onlyHpf s t f :=
  ⟨_, gated_withUnit_done hs (k := .hpf) hf w _ d, hpf_setHpf_self (hl ▸ hf) x, rfl, rfl,
    fun _ hx => hpf_setHpf_ne hx x⟩

theorem hpfStep_leaves (a b : Word) :
    ∃ t, exec (.hpfStep f a b) s = .next t ∧
      t.hpf f = fsub (s.nan 6) (hpfOut s.nan s.speriod (s.hpf f) a b) a ∧
      t.rsp = some ⟨hpfOut s.nan s.speriod (s.hpf f) a b, false⟩ ∧ onlyHpf s t f :=
  hpfCommand_leaves hs hf hl _ _ 7 _

end

end

/-! ## The lowpass by its cutoff (R161, R168) -/

section
variable {nan : Nat → Word} {dt x₀ x cutoff : Word}

theorem lpfNext_of_nonpositive (h : fle cutoff posZero = true) :
    lpfNext nan dt x₀ x cutoff = posZero := if_pos h

theorem lpfNext_of_not_nonpositive (h : fle cutoff posZero = false) :
    lpfNext nan dt x₀ x cutoff =
      fadd (nan 6) x₀ (fmul (nan 5) (fsub (nan 4) x x₀)
        (fdiv (nan 3) dt (fadd (nan 2) dt (filterRc (nan 0) (nan 1) cutoff)))) :=
  if_neg (Bool.eq_false_iff.1 h)

end

/-- Settles O26: the state and the response are both `lpfNext`, which is +0.0 here. -/
theorem lowpassSilencesNonpositiveCutoff : Obligations.LowpassSilencesNonpositiveCutoff := by
  intro s f a b hs hf hl hb
  have hleaves := lpfStep_leaves hs hf hl a b
  rwa [lpfNext_of_nonpositive hb] at hleaves

/-- Settles O27: the draws of the command stand for the NaNs, and `lpfNext` and `hpfOut` are the
spec's operations in their order. -/
theorem filtersFollowTheirRecursions : Obligations.FiltersFollowTheirRecursions := by
  intro s u a b hs
  refine ⟨fun hu hl hb => ?_, fun hu hl => ?_⟩
  · obtain ⟨t, ht, hx, hrsp, honly⟩ := lpfStep_leaves hs hu hl a b
    exact ⟨t, s.nan, isNaN_nan s, ht, hx.trans (lpfNext_of_not_nonpositive hb),
      by rw [hrsp, hx], honly⟩
  · obtain ⟨t, ht, hd, hrsp, honly⟩ := hpfStep_leaves hs hu hl a b
    exact ⟨t, s.nan, isNaN_nan s, ht, ⟨hd, hrsp⟩, honly⟩

/-- Settles O28: a clear writes +0.0 with no operation, whatever the register held. -/
theorem initAndClearWriteZero : Obligations.InitAndClearWriteZero :=
  fun _ _ hs => ⟨fun hu hl => lpfCommand_leaves hs hu hl _ _ 0 _,
    fun hu hl => hpfCommand_leaves hs hu hl _ _ 0 _, gated_done hs _ _ _⟩

/-! ## A NaN in a memory goes round the recursion

The memory is an operand of the operation that writes it, or of one on the way there, so the new
value is that operation's draw. -/

section
variable {s : State}

theorem Primitive.isNaN_of_operand {op : Word → Word → Word → Word} (hop : Primitive op)
    {k : Nat} {a b : Word} (h : isNaN a = true ∨ isNaN b = true) :
    isNaN (op (s.nan k) a b) = true := by
  rw [hop.nan_operand h, isNaN_nan]

theorem isNaN_lpfNext {dt x₀ x cutoff : Word} (h : isNaN x₀ = true)
    (hc : fle cutoff posZero = false) : isNaN (lpfNext s.nan dt x₀ x cutoff) = true := by
  rw [lpfNext_of_not_nonpositive hc]
  exact primitive_fadd.isNaN_of_operand (.inl h)

theorem isNaN_hpfOut {dt d x cutoff : Word} (h : isNaN d = true) :
    isNaN (hpfOut s.nan dt d x cutoff) = true :=
  have hsum : isNaN (fadd (s.nan 4) d x) = true := primitive_fadd.isNaN_of_operand (.inl h)
  primitive_fmul.isNaN_of_operand (.inr hsum)

theorem isNaN_dcStep {x : Word} (h : isNaN s.dcAvg = true) :
    isNaN (s.dcStep x).1.dcAvg = true ∧ isNaN (s.dcStep x).2 = true :=
  have havg : isNaN (s.dcStep x).1.dcAvg = true := primitive_fadd.isNaN_of_operand (.inl h)
  ⟨havg, primitive_fsub.isNaN_of_operand (.inr havg)⟩

/-- The follower takes a NaN from the envelope and from the sample alike. -/
theorem isNaN_follow {y : Word} (h : isNaN y = true ∨ isNaN s.limEnv = true) :
    isNaN (s.follow y) = true := by
  refine primitive_fadd.isNaN_of_operand (h.symm.imp_right fun hy => ?_)
  have hdiff : isNaN (fsub (s.nan 0) (fabs y) s.limEnv) = true :=
    primitive_fsub.isNaN_of_operand (.inl (by rwa [isNaN_fabs]))
  exact primitive_fmul.isNaN_of_operand (.inl hdiff)

/-- Neither the floor nor the clamp stops a NaN (R188). -/
theorem isNaN_limStep {y : Word} (h : isNaN y = true ∨ isNaN s.limEnv = true) :
    isNaN (s.limStep y).1.limEnv = true ∧ isNaN (s.limStep y).2 = true := by
  have henv : isNaN (floorOne (s.follow y)) = true := by
    rw [floorOne_nan (isNaN_follow h)]
    exact isNaN_follow h
  have hden : isNaN (fmul (s.nan 3) (floorOne (s.follow y)) s.params.headroom) = true :=
    primitive_fmul.isNaN_of_operand (.inl henv)
  have hquot : isNaN (fdiv (s.nan 4) y
      (fmul (s.nan 3) (floorOne (s.follow y)) s.params.headroom)) = true :=
    primitive_fdiv.isNaN_of_operand (.inr hden)
  exact ⟨henv, (congrArg isNaN (clamp_nan hquot minusOne one)).trans hquot⟩

end

/-- Settles O29: each command's new memory and response are NaNs by its recursion's lemma. In
BUS.MASTER a NaN average reaches the limiter as its sample. -/
theorem nanStateIsStuck : Obligations.NanStateIsStuck := by
  intro s t u a b hs
  refine ⟨fun hu hl hnan h => ?hpf, fun hu hl hnan hb h => ?lpf, fun hnan h => ?dc,
    fun hnan h => ?lim, fun hnan h => ?master⟩
  case hpf =>
    obtain ⟨t', ht', hd, hrsp, -⟩ := hpfStep_leaves hs hu hl a b
    cases ht'.symm.trans h
    have hy := isNaN_hpfOut (s := s) (dt := s.speriod) (x := a) (cutoff := b) hnan
    exact ⟨hd ▸ primitive_fsub.isNaN_of_operand (.inl hy), _, hrsp, hy⟩
  case lpf =>
    obtain ⟨t', ht', hx, hrsp, -⟩ := lpfStep_leaves hs hu hl a b
    cases ht'.symm.trans h
    have hy := isNaN_lpfNext (s := s) (dt := s.speriod) (x := a) hnan hb
    exact ⟨hx ▸ hy, _, hrsp, hy⟩
  case dc =>
    cases (gated_done hs _ _ _).symm.trans h
    obtain ⟨havg, hout⟩ := isNaN_dcStep (x := a) hnan
    exact ⟨havg, _, rfl, hout⟩
  case lim =>
    cases (gated_done hs _ _ _).symm.trans h
    obtain ⟨henv, hout⟩ := isNaN_limStep (y := a) (.inr hnan)
    exact ⟨henv, _, rfl, hout⟩
  case master =>
    cases (gated_done hs _ _ _).symm.trans h
    have hin : isNaN (s.dcStep s.acc).2 = true ∨ isNaN (s.dcStep s.acc).1.limEnv = true :=
      hnan.imp_left fun h => (isNaN_dcStep h).2
    obtain ⟨henv, hout⟩ := isNaN_limStep hin
    exact ⟨henv, ⟨_, rfl, hout⟩, fun h => (isNaN_dcStep h).1⟩

end Sys2Proof.Machine
end

section
/-! The master bus (R180 to R189): what one step of each recursion and each of the commands leaves,
and O30 and O31 from it; the buffer passes, and O34; the bounds of the limiter, O32; silence, O33. -/

namespace Sys2Proof.Machine

/-! ## The two recursions and the commands -/

section
variable (s : State) (x : Word)

theorem dcStep_dcAvg : (s.dcStep x).1.dcAvg =
    fadd (s.nan 2) s.dcAvg (fmul (s.nan 1) (fsub (s.nan 0) x s.dcAvg) s.dcK) := rfl

theorem dcStep_out : (s.dcStep x).2 = fsub (s.nan 3) x (s.dcStep x).1.dcAvg := rfl

theorem limStep_limEnv : (s.limStep x).1.limEnv = floorOne (s.follow x) := rfl

theorem limStep_out : (s.limStep x).2 =
    clamp (fdiv (s.nan 4) x (fmul (s.nan 3) (s.limStep x).1.limEnv s.params.headroom))
      minusOne one := rfl

/-- The DC blocker leaves the limiter alone. -/
theorem dcStep_frame : onlyMaster s (s.dcStep x).1 ∧ (s.dcStep x).1.limEnv = s.limEnv := ⟨rfl, rfl⟩

/-- The limiter leaves the DC blocker alone. -/
theorem limStep_frame : onlyMaster s (s.limStep x).1 ∧ (s.limStep x).1.dcAvg = s.dcAvg := ⟨rfl, rfl⟩

/-- The limiter does not read the response that waits. -/
theorem limStep_respond (d : Word) :
    ((s.respond d).limStep x).2 = (s.limStep x).2 ∧
      ∀ e, ((s.respond d).limStep x).1.respond e = (s.limStep x).1.respond e :=
  ⟨rfl, fun _ => rfl⟩

theorem onlyMaster_respond {s t : State} (h : onlyMaster s t) (d : Word) :
    onlyMaster s (t.respond d) := by
  rw [onlyMaster] at h ⊢
  rw [h]
  rfl

theorem onlyMaster_trans {s t u : State} (h : onlyMaster s t) (h' : onlyMaster t u) :
    onlyMaster s u := by
  rw [onlyMaster] at h h' ⊢
  rw [h', h]

end

/-- What BUS.MASTER computes (R185): the state after both recursions, and the response. -/
def State.masterStep (s : State) : State × Word := (s.dcStep s.acc).1.limStep (s.dcStep s.acc).2

theorem masterStep_frame (s : State) : onlyMaster s s.masterStep.1 :=
  onlyMaster_trans (dcStep_frame s s.acc).1 (limStep_frame _ _).1

section
variable {s : State} (hs : s.fault = false)
include hs

theorem exec_dcbStep (a : Word) :
    exec (.dcbStep a) s = .next ((s.dcStep a).1.respond (s.dcStep a).2) := gated_done hs _ _ _

theorem exec_limStep (a : Word) :
    exec (.limStep a) s = .next ((s.limStep a).1.respond (s.limStep a).2) := gated_done hs _ _ _

theorem exec_busMaster :
    exec .busMaster s = .next (s.masterStep.1.respond s.masterStep.2) := gated_done hs _ _ _

end

/-- Settles O30: the draws of the command stand for the NaNs. -/
theorem dcBlockerAndLimiterFollowTheirRecursions :
    Obligations.DcBlockerAndLimiterFollowTheirRecursions := by
  intro s a hs
  obtain ⟨hdc, henv⟩ := dcStep_frame s a
  obtain ⟨hlim, havg⟩ := limStep_frame s a
  exact ⟨⟨_, s.nan, isNaN_nan s, exec_dcbStep hs a, dcStep_dcAvg s a,
      by rw [dcStep_out]; rfl, onlyMaster_respond hdc _, henv⟩,
    _, s.nan, isNaN_nan s, exec_limStep hs a, ⟨limStep_limEnv s a, by rw [limStep_out]; rfl⟩,
      onlyMaster_respond hlim _, havg⟩

/-- Settles O31: LIM.STEP sees the state that DCB.STEP left with its response, which it does not
read and overwrites. -/
theorem busMasterIsDcThenLimiter : Obligations.BusMasterIsDcThenLimiter := by
  intro s hs
  have hr : ((s.dcStep s.acc).1.respond (s.dcStep s.acc).2).fault = false := hs
  obtain ⟨hout, hstate⟩ := limStep_respond (s.dcStep s.acc).1 (s.dcStep s.acc).2 (s.dcStep s.acc).2
  refine ⟨_, _, _, exec_dcbStep hs s.acc, rfl, ?_, exec_busMaster hs, rfl,
    onlyMaster_respond (masterStep_frame s) _⟩
  rw [exec_limStep hr, hout, hstate]
  rfl

/-! ## One pass and two passes (R186)

Of the state each recursion reads its own memory, up to the encoding of a NaN, and registers that
neither writes. -/

/-- `s` and `t` are alike to the DC blocker. -/
structure SameDc (s t : State) : Prop where
  dcAvg : sameFloat s.dcAvg t.dcAvg = true
  dcK : s.dcK = t.dcK

/-- `s` and `t` are alike to the limiter. -/
structure SameLim (s t : State) : Prop where
  limEnv : sameFloat s.limEnv t.limEnv = true
  limCA : s.limCA = t.limCA
  limCR : s.limCR = t.limCR
  headroom : s.params.headroom = t.params.headroom

section
variable {a b c d : Word} {s t u : State}

theorem sameFloat_refl (a : Word) : sameFloat a a = true := sameFloat_iff.2 (.inl rfl)

theorem sameFloat_fabs (h : sameFloat a b = true) : sameFloat (fabs a) (fabs b) = true := by
  rw [sameFloat_iff] at *
  rw [isNaN_fabs, isNaN_fabs]
  exact h.imp_left (congrArg fabs)

theorem sameFloat_floorOne (h : sameFloat a b = true) :
    sameFloat (floorOne a) (floorOne b) = true := by
  rw [floorOne, floorOne, (flt_fle_sameFloat h (sameFloat_refl one)).1]
  split
  · exact sameFloat_refl one
  · exact h

theorem sameFloat_clamp (h : sameFloat a b = true) (lo hi : Word) :
    sameFloat (clamp a lo hi) (clamp b lo hi) = true := by
  rw [clamp, clamp, fgt, fgt, (flt_fle_sameFloat h (sameFloat_refl lo)).1,
    (flt_fle_sameFloat (sameFloat_refl hi) h).1]
  split
  · exact sameFloat_refl lo
  · split
    · exact sameFloat_refl hi
    · exact h

/-- An operation of the pseudocode in two states, with the draws of each. -/
theorem Primitive.sameFloat_draws {op : Word → Word → Word → Word} (hop : Primitive op) {k : Nat}
    (hac : sameFloat a c = true) (hbd : sameFloat b d = true) :
    sameFloat (op (s.nan k) a b) (op (t.nan k) c d) = true :=
  hop.sameFloat_congr (isNaN_nan s k) (isNaN_nan t k) hac hbd

theorem SameDc.dcStep (h : SameDc s t) (x : Word) :
    SameDc (s.dcStep x).1 (t.dcStep x).1 ∧ sameFloat (s.dcStep x).2 (t.dcStep x).2 = true := by
  have hx := sameFloat_refl x
  have havg : sameFloat (s.dcStep x).1.dcAvg (t.dcStep x).1.dcAvg = true := by
    rw [dcStep_dcAvg, dcStep_dcAvg, h.dcK]
    exact primitive_fadd.sameFloat_draws h.dcAvg (primitive_fmul.sameFloat_draws
      (primitive_fsub.sameFloat_draws hx h.dcAvg) (sameFloat_refl _))
  exact ⟨⟨havg, h.dcK⟩, primitive_fsub.sameFloat_draws hx havg⟩

theorem SameLim.follow (h : SameLim s t) (hab : sameFloat a b = true) :
    sameFloat (s.follow a) (t.follow b) = true := by
  have habs := sameFloat_fabs hab
  rw [State.follow, State.follow, fgt, fgt, (flt_fle_sameFloat h.limEnv habs).1, h.limCA, h.limCR]
  exact primitive_fadd.sameFloat_draws h.limEnv (primitive_fmul.sameFloat_draws
    (primitive_fsub.sameFloat_draws habs h.limEnv) (sameFloat_refl _))

theorem SameLim.limStep (h : SameLim s t) (hab : sameFloat a b = true) :
    SameLim (s.limStep a).1 (t.limStep b).1 ∧
      sameFloat (s.limStep a).2 (t.limStep b).2 = true := by
  have henv : sameFloat (s.limStep a).1.limEnv (t.limStep b).1.limEnv = true :=
    sameFloat_floorOne (h.follow hab)
  refine ⟨{ h with limEnv := henv }, ?_⟩
  rw [limStep_out, limStep_out, h.headroom]
  exact sameFloat_clamp (primitive_fdiv.sameFloat_draws hab
    (primitive_fmul.sameFloat_draws henv (sameFloat_refl _))) _ _

theorem sameLim_dcPass (h : SameLim s t) (xs : List Word) : SameLim s (dcPass t xs).1 := by
  induction xs generalizing t with
  | nil => exact h
  | cons x xs ih => exact ih (t := (t.dcStep x).1) { h with }

theorem limPass_dcAvg (s : State) (xs : List Word) : (limPass s xs).1.dcAvg = s.dcAvg := by
  induction xs generalizing s with
  | nil => rfl
  | cons x xs ih => exact ih (s.limStep x).1

/-- The two recursions interleaved from `s` give what the DC blocker from a state `t` like `s` and
then the limiter from a state `u` like `s` give. -/
theorem masterPass_same (hdc : SameDc s t) (hlim : SameLim s u) (xs : List Word) :
    List.Forall₂ (fun x y => sameFloat x y = true)
        (masterPass s xs).2 (limPass u (dcPass t xs).2).2 ∧
      SameDc (masterPass s xs).1 (dcPass t xs).1 ∧
      SameLim (masterPass s xs).1 (limPass u (dcPass t xs).2).1 := by
  induction xs generalizing s t u with
  | nil => exact ⟨.nil, hdc, hlim⟩
  | cons x xs ih =>
    obtain ⟨hdc', hy⟩ := hdc.dcStep x
    have hlim' : SameLim (s.dcStep x).1 u := { hlim with }
    obtain ⟨hlim'', hz⟩ := hlim'.limStep hy
    have hdc'' : SameDc ((s.dcStep x).1.limStep (s.dcStep x).2).1 (t.dcStep x).1 := { hdc' with }
    obtain ⟨houts, hends⟩ := ih hdc'' hlim''
    exact ⟨.cons hz houts, hends⟩

end

/-- Settles O34: the limiter's pass starts from a state that the DC pass left alike to the limiter,
and leaves the DC average. -/
theorem masterBusEqualsTwoPasses : Obligations.MasterBusEqualsTwoPasses := by
  intro s xs
  have hdc : SameDc s s := ⟨sameFloat_refl _, rfl⟩
  have hlim : SameLim s s := ⟨sameFloat_refl _, rfl, rfl, rfl⟩
  obtain ⟨houts, hdc', hlim'⟩ := masterPass_same hdc (sameLim_dcPass hlim xs) xs
  refine ⟨houts, ?_, hlim'.limEnv⟩
  rw [limPass_dcAvg]
  exact hdc'.dcAvg

/-! ## Values not below a bound -/

section
variable {n a b x y d e room : Word}

theorem isFinite_of_fle (h0 : fle posZero x = true) (hxy : fle x y = true)
    (hy : isFinite y = true) : isFinite x = true := by
  rcases isFinite_or_eq_inf h0 with hf | rfl
  · exact hf
  · obtain ⟨-, -, hk⟩ := fle_iff.1 hxy
    have := (orderKey_between hy).2
    omega

theorem units_nonpos (hf : isFinite a = true) (h : fle a posZero = true) : units a ≤ 0 := by
  obtain ⟨-, -, hk⟩ := fle_iff.1 h
  exact (orderKey_le_iff hf rfl).1 hk

/-- A difference of finite values that are not below 0 does not overflow. -/
theorem isFinite_fsub_of_nonneg (hfa : isFinite a = true) (hfb : isFinite b = true)
    (ha : fle posZero a = true) (hb : fle posZero b = true) : isFinite (fsub n a b) = true := by
  obtain ⟨-, hover, -⟩ := fadd_roundsTo (n := n) hfa (b := fneg b) (by rw [isFinite_fneg, hfb])
  by_contra hinf
  have hbig := (hover (Bool.eq_false_iff.2 hinf)).2
  have := units_nonneg hfa ha
  have := units_nonneg hfb hb
  have := natAbs_units a
  have := natAbs_units b
  have := magUnits_lt_overflow hfa
  have := magUnits_lt_overflow hfb
  rw [units_fneg] at hbig
  omega

theorem fmul_nonpos (hfa : isFinite a = true) (ha : fle a posZero = true)
    (hb : finiteNonneg b = true) : fle (fmul n a b) posZero = true := by
  obtain ⟨hfb, hb⟩ := Bool.and_eq_true_iff.1 hb
  exact (fmul_roundsTo hfa hfb).fle_of_le (by decide) rfl
    (mul_nonpos_of_nonpos_of_nonneg (units_nonpos hfa ha) (units_nonneg hfb hb))

theorem fneg_fneg (a : Word) : fneg (fneg a) = a := word_eq_of (by simp) (by simp)

theorem orderKey_fneg (a : Word) : orderKey (fneg a) = -orderKey a := by
  rw [orderKey, orderKey, isNeg_fneg, magBits_fneg]
  cases isNeg a <;> simp

/-- Adding a value that is not above 0 does not raise a finite value: it is a fall by its
negation. -/
theorem fadd_fle_of_nonpos (hf : isFinite x = true) (hp : fle y posZero = true) :
    fle (fadd n x y) x = true := by
  obtain ⟨hny, -, hk⟩ := fle_iff.1 hp
  have hneg : fle posZero (fneg y) = true := by
    refine fle_iff.2 ⟨rfl, by rwa [isNaN_fneg], ?_⟩
    rw [orderKey_fneg]
    exact Int.neg_le_neg hk
  have hfall := fsub_fle (n := n) hf hneg
  rwa [fsub, fneg_fneg] at hfall

theorem isNaN_fadd_finite (hx : isFinite x = true) (hy : isNaN y = false) :
    isNaN (fadd n x y) = false := by
  rcases isInf_or_isFinite hy with hi | hf
  · rw [fadd_inf_right hx hi, hy]
  · exact (fadd_roundsTo hx hf).not_nan

/-! ## The floor, the clamp and the divisor (R182) -/

theorem fle_of_not_flt (ha : isNaN a = false) (hb : isNaN b = false) (h : ¬ flt a b = true) :
    fle b a = true := by
  simpa [flt_eq_not_fle ha hb] using h

theorem one_fle_floorOne (he : isNaN e = false) : fle one (floorOne e) = true := by
  rw [floorOne]
  split
  next => rfl
  next h => exact fle_of_not_flt he rfl h

theorem floorOne_fle (he : fle e x = true) (hx : fle one x = true) :
    fle (floorOne e) x = true := by
  rw [floorOne]
  split
  · exact hx
  · exact he

theorem inClamp_clamp (hx : isNaN x = false) : inClamp (clamp x minusOne one) = true := by
  rw [clamp]
  split
  next => rfl
  next hlo =>
    split
    next => rfl
    next hhi => exact Bool.and_eq_true_iff.2 ⟨fle_of_not_flt hx rfl hlo, fle_of_not_flt rfl hx hhi⟩

theorem isZero_of_magBits_pos (h : 0 < magBits a) : isZero a = false := by
  rw [Bool.eq_false_iff, Ne, isZero_iff]
  exact Nat.ne_of_gt h

theorem flt_posZero_iff :
    flt posZero a = true ↔ isNaN a = false ∧ isNeg a = false ∧ 0 < magBits a := by
  rw [flt_iff, show orderKey posZero = 0 from rfl, orderKey]
  cases hn : isNeg a with
  | true => simp
  | false => simp [show isNaN posZero = false from rfl]

theorem positiveFinite_spec (hh : positiveFinite room = true) :
    isFinite room = true ∧ flt posZero room = true := by
  obtain ⟨hpos, hlt⟩ := Bool.and_eq_true_iff.1 hh
  have hpos := of_decide_eq_true hpos
  have hlt := of_decide_eq_true hlt
  have hmag : magBits room = room.toNat := Nat.mod_eq_of_lt (by omega)
  have hf : isFinite room = true := (isFinite_iff room).2 (hmag ▸ hlt)
  have hneg : isNeg room = false := by
    rw [Bool.eq_false_iff, Ne, isNeg_iff]
    omega
  exact ⟨hf, flt_posZero_iff.2 ⟨isNaN_of_isFinite hf, hneg, hmag ▸ hpos⟩⟩

theorem flt_posZero_of_one_fle (he : fle one e = true) : flt posZero e = true := by
  obtain ⟨-, hn, hk⟩ := fle_iff.1 he
  exact flt_iff.2 ⟨rfl, hn, Int.lt_of_lt_of_le (by decide) hk⟩

theorem fle_posZero_of_one_fle (he : fle one e = true) : fle posZero e = true :=
  fle_trans rfl he

/-- The limiter's divisor is above 0: an envelope not below 1.0 does not shrink HEADROOM. -/
theorem flt_posZero_fmul (he : fle one e = true) (hh : positiveFinite room = true) :
    flt posZero (fmul n e room) = true := by
  obtain ⟨hfh, hh⟩ := positiveFinite_spec hh
  obtain ⟨-, hneg, hmag⟩ := flt_posZero_iff.1 hh
  obtain ⟨hne, hnege, -⟩ := flt_posZero_iff.1 (flt_posZero_of_one_fle he)
  rcases isInf_or_isFinite hne with hi | hfe
  · rw [fmul_inf hne (isNaN_of_isFinite hfh) (.inl hi), isZero_of_isInf hi,
      isZero_of_magBits_pos hmag, hnege, hneg, if_neg (by decide)]
    decide
  · refine flt_posZero_iff.2 ⟨(fmul_roundsTo hfe hfh).not_nan, ?_, ?_⟩
    · rw [isNeg_fmul hfe hfh, hnege, hneg]
      rfl
    · obtain ⟨-, -, hk⟩ := fle_iff.1 he
      have hunits : 2 ^ 149 ≤ magUnits e := by
        have hle : units one ≤ units e := (orderKey_le_iff rfl hfe).1 hk
        rw [show units one = 2 ^ 149 by decide, units, hnege, if_neg Bool.false_ne_true] at hle
        exact_mod_cast hle
      have hround := le_roundMag (den := 2 ^ 149) (by decide) room ((isFinite_iff room).1 hfh)
        ((Nat.mul_comm _ _).trans_le (Nat.mul_le_mul_right _ hunits))
      rw [fmul_finite hfe hfh, magBits_withSign _ _ (roundMag_lt _ _)]
      exact Nat.lt_of_lt_of_le hmag hround

/-- A finite value over a divisor above 0, an infinite one included, has the value's sign, is no
NaN, and is a zero for a zero. -/
theorem fdiv_of_pos (ha : isFinite a = true) (hd : flt posZero d = true) :
    ∃ m, m ≤ infBits ∧ (magUnits a = 0 → m = 0) ∧ fdiv n a d = withSign (isNeg a) m := by
  obtain ⟨hnd, hneg, hmag⟩ := flt_posZero_iff.1 hd
  rcases isInf_or_isFinite hnd with hi | hfd
  · exact ⟨0, Nat.zero_le _, fun _ => rfl, by rw [fdiv_inf_right ha hi, hneg, Bool.bne_false]⟩
  · have hunits : 0 < magUnits d := (magBits_lt_iff (a := posZero) rfl hfd).1 hmag
    refine ⟨roundMag (magUnits a * 2 ^ 149) (magUnits d), roundMag_le_inf _ _, fun h0 => ?_, ?_⟩
    · have hle := roundMag_le hunits posZero (num := magUnits a * 2 ^ 149) (by simp [h0])
      exact Nat.le_zero.1 hle
    · rw [fdiv_finite ha hfd (isZero_of_magBits_pos hmag), hneg, Bool.bne_false]

end

/-! ## The limiter of finite values (R188) -/

section
variable {s : State} {y : Word} (he : isFinite s.limEnv = true) (h1 : fle one s.limEnv = true)
include he h1

theorem isNaN_follow_of_finite (hy : isFinite y = true) (hca : isFinite s.limCA = true)
    (hcr : isFinite s.limCR = true) : isNaN (s.follow y) = false := by
  have hfabs : isFinite (fabs y) = true := by rwa [isFinite_fabs]
  have hnonneg : fle posZero (fabs y) = true := by
    refine fle_iff.2 ⟨rfl, isNaN_of_isFinite hfabs, ?_⟩
    rw [orderKey, orderKey, isNeg_fabs]
    exact Int.natCast_nonneg _
  have hdiff : isFinite (fsub (s.nan 0) (fabs y) s.limEnv) = true :=
    isFinite_fsub_of_nonneg hfabs he hnonneg (fle_posZero_of_one_fle h1)
  have hc : isFinite (if fgt (fabs y) s.limEnv then s.limCA else s.limCR) = true := by
    split
    · exact hca
    · exact hcr
  exact isNaN_fadd_finite he (fmul_roundsTo hdiff hc).not_nan

/-- On a zero sample the follower takes the release branch and does not raise the envelope. -/
theorem follow_posZero_fle (hcr : inUnit s.limCR = true) :
    fle (s.follow posZero) s.limEnv = true := by
  have h0 := fle_posZero_of_one_fle h1
  have hbranch : fgt (fabs posZero) s.limEnv = false := by
    rw [fgt, flt_eq_not_fle (isNaN_of_isFinite he) rfl]
    exact congrArg not h0
  have hc : finiteNonneg s.limCR = true :=
    Bool.and_eq_true_iff.2 ⟨isFinite_of_inUnit hcr, (inUnit_iff.1 hcr).1⟩
  have hdiff : fle (fsub (s.nan 0) posZero s.limEnv) posZero = true := fsub_fle rfl h0
  have hprod := fmul_nonpos (n := s.nan 1) (isFinite_fsub_of_nonneg rfl he rfl h0) hdiff hc
  rw [State.follow, hbranch]
  exact fadd_fle_of_nonpos he hprod

end

/-- With an envelope not below 1.0 after the step, a finite sample's response is the clamp of a
value with the sample's sign. -/
theorem limStep_out_of_finite {s : State} {y : Word} (hy : isFinite y = true)
    (h1 : fle one (s.limStep y).1.limEnv = true) (hh : positiveFinite s.params.headroom = true) :
    ∃ m, m ≤ infBits ∧ (magUnits y = 0 → m = 0) ∧
      (s.limStep y).2 = clamp (withSign (isNeg y) m) minusOne one := by
  have hden := flt_posZero_fmul (n := s.nan 3) h1 hh
  obtain ⟨m, hm, hzero, hdiv⟩ := fdiv_of_pos (n := s.nan 4) hy hden
  exact ⟨m, hm, hzero, by rw [limStep_out, hdiv]⟩

/-- Settles O32: no operation of the limiter gives a NaN here, so the floor and the clamp bound what
they pass. -/
theorem limiterOutputIsClamped : Obligations.LimiterOutputIsClamped := by
  intro s a hs ha he h1 hca hcr hh
  have henv : fle one (s.limStep a).1.limEnv = true :=
    one_fle_floorOne (isNaN_follow_of_finite he h1 ha hca hcr)
  obtain ⟨m, hm, -, hout⟩ := limStep_out_of_finite ha henv hh
  refine ⟨_, _, exec_limStep hs a, rfl, ?_, henv⟩
  rw [hout]
  exact inClamp_clamp (isNaN_withSign hm)

/-! ## Silence (R189) -/

section
variable {s : State}

theorem fmul_posZero {n k : Word} (hk : isFinite k = true) :
    fmul n posZero k = withSign (isNeg k) 0 := by
  have hmag : roundMag (magUnits posZero * magUnits k) (2 ^ 149) = 0 := by
    rw [show magUnits posZero = 0 from rfl, Nat.zero_mul]
    rfl
  rw [fmul_finite rfl hk, hmag, show isNeg posZero = false from rfl, Bool.false_bne]

/-- `+0.0` plus a zero of either sign. -/
theorem fadd_posZero_zero (n : Word) (neg : Bool) : fadd n posZero (withSign neg 0) = posZero := by
  cases neg <;> rfl

theorem dcStep_posZero (h0 : s.dcAvg = posZero) (hk : isFinite s.dcK = true) :
    (s.dcStep posZero).1.dcAvg = posZero ∧ (s.dcStep posZero).2 = posZero := by
  have havg : (s.dcStep posZero).1.dcAvg = posZero := by
    rw [dcStep_dcAvg, h0, fsub_self rfl, fmul_posZero hk, fadd_posZero_zero]
  exact ⟨havg, by rw [dcStep_out, havg, fsub_self rfl]⟩

theorem limStep_posZero (he : isFinite s.limEnv = true) (h1 : fle one s.limEnv = true)
    (hcr : inUnit s.limCR = true) (hh : positiveFinite s.params.headroom = true) :
    isFinite (s.limStep posZero).1.limEnv = true ∧ fle one (s.limStep posZero).1.limEnv = true ∧
      (s.limStep posZero).2 = posZero := by
  have hfall := follow_posZero_fle he h1 hcr
  obtain ⟨hnan, -, -⟩ := fle_iff.1 hfall
  have henv : fle one (s.limStep posZero).1.limEnv = true := one_fle_floorOne hnan
  obtain ⟨m, -, hm, hout⟩ := limStep_out_of_finite (s := s) (y := posZero) rfl henv hh
  refine ⟨isFinite_of_fle (fle_posZero_of_one_fle henv) (floorOne_fle hfall h1) he, henv, ?_⟩
  rw [hout, hm rfl]
  rfl

end

/-- Settles O33: the DC blocker hands +0.0 to the limiter, whose envelope falls at most to 1.0. -/
theorem masterBusPassesSilence : Obligations.MasterBusPassesSilence := by
  refine ⟨fun s ⟨hs, hacc, havg, he, h1, hcr, hh, hk⟩ => ?_, fun p hp => ?_⟩
  · obtain ⟨havg', hy⟩ := dcStep_posZero havg hk
    obtain ⟨he', h1', hout⟩ := limStep_posZero (s := (s.dcStep posZero).1) he h1 hcr hh
    have hmaster : s.masterStep = (s.dcStep posZero).1.limStep posZero := by
      rw [State.masterStep, show s.acc = posZero from hacc, hy]
    have hrun := exec_busMaster hs
    rw [hmaster, hout] at hrun
    refine ⟨_, hrun, rfl, ⟨hs, hacc, havg', he', h1', hcr, hh, hk⟩, onlyMaster_respond ?_ _⟩
    rw [← hmaster]
    exact masterStep_frame s
  · have hh : positiveFinite p.headroom = true := (Bool.and_eq_true_iff.1 hp).2
    have henv : isFinite one = true ∧ fle one one = true := by decide
    have hk : isFinite 0x373E37C6 = true := by decide
    exact ⟨rfl, rfl, rfl, henv.1, henv.2, inUnit_posZero, hh, hk⟩

end Sys2Proof.Machine
end

section
/-! The snapshot (R207): the active parameter values of every slot, which PARAM.COMMIT, PARAM.INIT
and VOICE.SET alone change. O45 from that. -/

namespace Sys2Proof.Machine

/-- Every active parameter value of every slot is the same in both states. -/
def SamePact (s t : State) : Prop := t.voices.map (·.params) = s.voices.map (·.params)

/-- A change of one element that `g` does not see. -/
theorem map_modify_of_comp_eq {α β : Type} {f : α → α} {g : α → β} (hfg : ∀ x, g (f x) = g x)
    (l : List α) (n : Nat) : (l.modify n f).map g = l.map g := by
  refine List.ext_getElem? fun i => ?_
  rw [List.getElem?_map, List.getElem?_modify, List.getElem?_map]
  cases l[i]? with
  | none => rfl
  | some x =>
    by_cases hi : n = i
    · simp [hi, hfg]
    · simp [hi]

/-- The instructions that write an active parameter value (R87, R207). -/
def writesPact : Instr → Bool
  | .voiceSet _ _ _ => true
  | .paramInit _ _ _ => true
  | .paramCommit => true
  | _ => false

theorem writesPact_eq_false {i : Instr} (hc : i ≠ .paramCommit)
    (hp : ∀ v n a, i ≠ .paramInit v n a) (hv : ∀ v a b, i ≠ .voiceSet v a b) :
    writesPact i = false := by
  cases i with
  | paramCommit => exact absurd rfl hc
  | paramInit v n a => exact absurd rfl (hp v n a)
  | voiceSet v a b => exact absurd rfl (hv v a b)
  | _ => rfl

section
variable {s t : State} {w : Word} {e : Effect}

theorem samePact_takeFault (s : State) (w : Word) (c : Cause) (aux : Word) :
    SamePact s (s.takeFault w c aux) := by
  unfold State.takeFault
  split <;> exact rfl

theorem finish_samePact (h : finish w s e = .next t) (he : e.Leaves (SamePact s)) :
    SamePact s t := by
  rcases finish_next h with ⟨u, d, rfl, rfl⟩ | ⟨c, aux, -, rfl⟩
  · exact he
  · exact samePact_takeFault s w c aux

theorem gated_samePact (h : gated w s e = .next t) (he : e.Leaves (SamePact s)) :
    SamePact s t := by
  rcases gated_next h with ⟨-, rfl⟩ | ⟨-, u, d, rfl, rfl⟩ | ⟨-, c, aux, -, rfl⟩
  · exact rfl
  · exact he
  · exact rfl

/-- A command on a unit whose body completes with the voice slots as they were. -/
theorem gated_withUnit_samePact {k : UnitKind} {u : UnitIx} {r : State} {d : Word}
    (h : gated w s (withUnit s k u (.done r d)) = .next t) (hr : r.voices = s.voices) :
    SamePact s t :=
  gated_samePact h (withUnit_leaves (e := .done r d) (congrArg _ hr))

theorem leaves_ite {P : State → Prop} {p : Prop} [Decidable p] {e' : Effect} (he : e.Leaves P)
    (he' : e'.Leaves P) : (if p then e else e').Leaves P := by
  split
  · exact he
  · exact he'

theorem writeCsr_voices {r : Csr} {a : Word} (h : s.writeCsr r a = some t) :
    t.voices = s.voices := by
  cases r <;> cases h <;> rfl

theorem execCsrRd_samePact {n : Imm} (h : execCsrRd n s = .next t) : SamePact s t := by
  refine finish_samePact h ?_
  split
  · exact rfl
  · trivial

theorem execCsrWr_samePact {n : Imm} {a : Word} (h : execCsrWr n a s = .next t) :
    SamePact s t := by
  refine gated_samePact h ?_
  split
  · trivial
  · split
    · trivial
    next hw => exact congrArg _ (writeCsr_voices hw)

/-- VOICE.DEL clears an active bit, and the slot keeps its parameters (R209). -/
theorem execVoiceDel_samePact {a : Word} (h : execVoiceDel a s = .next t) : SamePact s t := by
  refine gated_samePact h ?_
  split
  · exact map_modify_of_comp_eq (f := ({ · with active := false })) (g := (·.params))
      (fun _ => rfl) s.voices _
  · exact rfl

theorem exec_samePact {i : Instr} (hi : writesPact i = false) (h : exec i s = .next t) :
    SamePact s t := by
  cases i with
  | nop => cases h; rfl
  | csrRd n => exact execCsrRd_samePact h
  | csrWr n a => exact execCsrWr_samePact h
  | gateStep _ _ | gateCfg _ _ | gateRd _ | gateInit _ => exact gated_withUnit_samePact h rfl
  | envInit _ _ | envAtk _ _ | envDec _ _ | envSus _ _ | envRel _ _ | envThr _ _ | envStep _ _
  | envRdPos _ | envRdStg _ | envRdGate _ => exact gated_withUnit_samePact h rfl
  | lpfStep _ _ _ | lpfInit _ | lpfRd _ => exact gated_withUnit_samePact h rfl
  | hpfStep _ _ _ | hpfInit _ | hpfRd _ => exact gated_withUnit_samePact h rfl
  | dcbStep _ | limStep _ | busMaster | busClr => exact gated_samePact h rfl
  | busAcc _ _ => exact gated_samePact h (withUnit_leaves (leaves_ite rfl trivial))
  | voiceDel a => exact execVoiceDel_samePact h
  | paramRd _ _ _ =>
    exact gated_samePact h (withUnit_leaves (withIndex_leaves (leaves_ite rfl trivial)))
  | paramPost _ _ _ => exact gated_samePact h (leaves_ite rfl trivial)
  | pwWrite o n x => cases (execPwWrite_eq o n x s).symm.trans h; rfl
  | voiceSet _ _ _ | paramInit _ _ _ | paramCommit => cases hi

theorem runCommand_samePact {c : Command} (hc : ∀ i, decode c = .instr i → writesPact i = false)
    (h : runCommand c s = .next t) : SamePact s t := by
  rcases runCommand_cases c s with ⟨i, hi, hr⟩ | ⟨op, -, hr⟩ | ⟨w, -, hr⟩ <;> rw [hr] at h
  · exact exec_samePact (hc i hi) h
  · exact gated_samePact h trivial
  · exact gated_samePact h trivial

theorem hostTurn_samePact
    (hc : s.rsp = none → ∀ c, s.cmdPort.head? = some c → ∀ i, decode c = .instr i →
      writesPact i = false)
    (h : hostTurn s = .next t) : SamePact s t := by
  rcases hostTurn_cases s with ⟨r, -, ht⟩ | ⟨c, rest, hrsp, hport, ht⟩ | ⟨-, -, ht⟩ <;> rw [ht] at h
  · cases h; rfl
  · have hrun := runCommand_samePact (hc hrsp c (by rw [hport]; rfl)) h
    exact hrun
  · cases h; rfl

theorem writerTurn_samePact (h : writerTurn s = .next t) : SamePact s t := by
  rcases writerTurn_cases s with ⟨e, rest, -, -, ht⟩ | ⟨-, ht⟩ <;> rw [ht] at h <;> cases h <;> rfl

/-- A step writes the snapshot only as a reset or as the command it runs. -/
theorem step_samePact (hreset : s.sched.head? ≠ some .reset)
    (hc : s.sched.head? = some (.agent .host) → s.rsp = none → ∀ c, s.cmdPort.head? = some c →
      ∀ i, decode c = .instr i → writesPact i = false)
    (h : step s = .next t) : SamePact s t := by
  rcases step_cases s with ⟨-, hs⟩ | ⟨rest, hsched, hs⟩ | ⟨rest, -, hs⟩ | ⟨rest, hsched, -⟩
  · rw [hs] at h
    cases h
    rfl
  · rw [hs] at h
    have hturn := hostTurn_samePact (s := { s with sched := rest }) (hc (by rw [hsched]; rfl)) h
    exact hturn
  · rw [hs] at h
    have hturn := writerTurn_samePact h
    exact hturn
  · rw [hsched] at hreset
    exact absurd rfl hreset

end

/-- Settles O45: instructions by `exec_samePact`, steps by `step_samePact`. -/
theorem snapshotIsStableBetweenCommits : Obligations.SnapshotIsStableBetweenCommits := by
  refine ⟨fun i s t h hc hp hv => exec_samePact (writesPact_eq_false hc hp hv) h,
    fun s t h hreset hcmd => step_samePact hreset (fun hsched hrsp c hport i hi => ?_) h⟩
  obtain ⟨hc, hp, hv⟩ := hcmd hsched hrsp c hport
  rw [hi] at hc hp hv
  exact writesPact_eq_false (fun he => hc (congrArg _ he))
    (fun v n a he => hp v n a (congrArg _ he)) (fun v a b he => hv v a b (congrArg _ he))

end Sys2Proof.Machine
end

section
/-! Voice slots and pending events (R200 to R213): lookup among slots with distinct ids, and O39;
what a batch leaves in each slot, which of its entries fault and which are dropped, and O42 to
O44. -/

namespace Sys2Proof.Machine

/-! ## Voice lookup (R200) -/

theorem findSlot_isSome (voices : List Voice) (o : Word) :
    (findSlot voices o).isSome = voices.any (·.holds o) := List.findIdx?_isSome

theorem findSlot_isSome_iff {voices : List Voice} {o : Word} :
    (findSlot voices o).isSome = true ↔ ∃ x ∈ voices, x.active = true ∧ x.id = o := by
  simp [findSlot_isSome, holds_iff]

theorem holds_eq_false_of_inactive {x : Voice} (h : x.active = false) (o : Word) :
    x.holds o = false := by
  simp [Voice.holds, h]

/-- The lookup of the id of an active slot finds that slot: no two active slots hold one id. -/
def FoundById (voices : List Voice) : Prop :=
  ∀ (v : Nat) (x : Voice) (o : Word), voices[v]? = some x → x.holds o = true →
    findSlot voices o = some v

theorem foundById_of_nodup {voices : List Voice}
    (h : ((voices.filter (·.active)).map (·.id)).Nodup) : FoundById voices := by
  intro v x o hx hox
  obtain ⟨hax, hidx⟩ := (holds_iff x o).1 hox
  have hsome : (findSlot voices o).isSome = true :=
    findSlot_isSome_iff.2 ⟨x, List.mem_of_getElem? hx, hax, hidx⟩
  obtain ⟨u, hu⟩ := Option.isSome_iff_exists.1 hsome
  obtain ⟨hlt, hou⟩ := findSlot_some hu
  obtain ⟨hau, hidu⟩ := (holds_iff _ o).1 hou
  rw [hu, nodup_ids_iff.1 h (List.getElem?_eq_getElem hlt) hx hau hax (hidu.trans hidx.symm)]

section
variable {voices : List Voice} {v : Nat} {x : Voice} (hfound : FoundById voices)
include hfound

theorem FoundById.findSlot_eq_some_iff (hx : voices[v]? = some x) (o : Word) :
    findSlot voices o = some v ↔ x.holds o = true := by
  refine ⟨fun h => ?_, hfound v x o hx⟩
  obtain ⟨hv, ho⟩ := findSlot_some h
  rw [List.getElem?_eq_getElem hv] at hx
  cases hx
  exact ho

/-- An event changes no lookup and no id, so the next event finds its owner too. -/
theorem FoundById.applyEvent (e : Event) : FoundById (applyEvent voices e) := by
  intro v y o hy ho
  rw [applyEvent_getElem?] at hy
  obtain ⟨x, hx, rfl⟩ := Option.map_eq_some_iff.1 hy
  rw [findSlot_applyEvent]
  refine hfound v x o hx ?_
  split at ho
  · exact ho
  · exact ho

end

/-! ## VOICE.DEL (R209) -/

/-- The slot after the voice with SynthID `o` is removed. -/
def Voice.without (x : Voice) (o : Word) : Voice := { x with active := x.active && x.id != o }

theorem without_of_holds {x : Voice} {o : Word} (h : x.holds o = true) :
    x.without o = { x with active := false } := by
  obtain ⟨-, hid⟩ := (holds_iff x o).1 h
  simp [Voice.without, hid]

theorem without_of_not_holds {x : Voice} {o : Word} (h : x.holds o = false) :
    x.without o = x := by
  have hkeep : (x.active && x.id != o) = x.active := by
    cases ha : x.active with
    | false => rfl
    | true =>
      rw [Voice.holds, ha, Bool.true_and] at h
      rw [Bool.true_and, bne, h, Bool.not_false]
  rw [Voice.without, hkeep]

/-- With distinct ids, the slot found is the only one that the removal changes. -/
theorem FoundById.modify_eq_map_without {voices : List Voice} (hfound : FoundById voices) {o : Word}
    {v : Nat} (hv : findSlot voices o = some v) :
    voices.modify v ({ · with active := false }) = voices.map (·.without o) := by
  refine List.ext_getElem? fun i => ?_
  rw [List.getElem?_modify, List.getElem?_map]
  cases hx : voices[i]? with
  | none => rfl
  | some x =>
    have hiff : v = i ↔ x.holds o = true := by
      rw [← hfound.findSlot_eq_some_iff hx o, hv, Option.some.injEq]
    by_cases hi : v = i
    · simp [hi, without_of_holds (hiff.1 hi)]
    · simp [hi, without_of_not_holds (Bool.eq_false_of_not_eq_true (mt hiff.2 hi))]

theorem map_without_of_findSlot_none {voices : List Voice} {o : Word}
    (h : findSlot voices o = none) : voices.map (·.without o) = voices :=
  (List.map_congr_left fun x hx => without_of_not_holds (findSlot_none.1 h x hx)).trans
    (List.map_id _)

theorem exec_voiceDel {s : State} (hs : s.fault = false) (hfound : FoundById s.voices) (a : Word) :
    exec (.voiceDel a) s =
      .next (State.respond { s with voices := s.voices.map (·.without a) } 0) := by
  cases hv : findSlot s.voices a with
  | some v => simp only [exec, execVoiceDel, hv, hfound.modify_eq_map_without hv, gated_done hs]
  | none => simp only [exec, execVoiceDel, hv, map_without_of_findSlot_none hv, gated_done hs]

/-- Settles O39, by `exec_voiceDel`. -/
theorem voiceDelRemovesTheVoice : Obligations.VoiceDelRemovesTheVoice :=
  fun _ a hs hids => ⟨_, exec_voiceDel hs (foundById_of_nodup hids) a, rfl, rfl, rfl⟩

/-! ## A batch, slot by slot (R205) -/

/-- What an event leaves in a slot whose id no other active slot holds. -/
def Voice.receive (x : Voice) (e : Event) : Voice :=
  if x.holds e.owner then x.setParam e.index e.value else x

theorem FoundById.applyEvent_eq_map {voices : List Voice} (hfound : FoundById voices) (e : Event) :
    Machine.applyEvent voices e = voices.map (·.receive e) := by
  refine List.ext_getElem? fun v => ?_
  rw [applyEvent_getElem?, List.getElem?_map]
  cases hx : voices[v]? with
  | none => rfl
  | some x => simp only [Option.map_some, Voice.receive, hfound.findSlot_eq_some_iff hx]

/-- With distinct ids, each slot takes the events of the batch on its own. -/
theorem FoundById.applyBatch_eq_map {voices : List Voice} (hfound : FoundById voices)
    (es : List Event) : applyBatch voices es = voices.map (es.foldl Voice.receive) := by
  induction es generalizing voices with
  | nil => exact (List.map_id voices).symm
  | cons e es ih =>
    rw [applyBatch_cons, ih (hfound.applyEvent e), hfound.applyEvent_eq_map, List.map_map]
    rfl

section
variable {x : Voice} {e : Event}

/-- An event writes a slot's parameters only. -/
theorem receive_frame (x : Voice) (e : Event) :
    (x.receive e).active = x.active ∧ (x.receive e).id = x.id ∧ (x.receive e).gain = x.gain ∧
      (x.receive e).params.length = x.params.length := by
  unfold Voice.receive
  split
  · exact ⟨rfl, rfl, rfl, setParam_params_length x _ _⟩
  · exact ⟨rfl, rfl, rfl, rfl⟩

theorem receive_of_inactive (h : x.active = false) (e : Event) : x.receive e = x := by
  rw [Voice.receive, holds_eq_false_of_inactive h]
  rfl

/-- An active slot takes an event of its id at the event's index. -/
theorem param_receive {n : Imm} (h : x.active = true) (hn : n.toNat < x.params.length) (e : Event) :
    (x.receive e).param n = if e.owner = x.id ∧ e.index = n then e.value else x.param n := by
  unfold Voice.receive
  by_cases ho : e.owner = x.id
  · rw [if_pos ((holds_iff x _).2 ⟨h, ho.symm⟩)]
    by_cases hi : e.index = n
    · subst hi
      rw [if_pos ⟨ho, rfl⟩, param_setParam_self hn]
    · rw [if_neg (fun hc => hi hc.2), param_setParam_ne (Ne.symm hi)]
  · have hheld : ¬x.holds e.owner = true := fun hc => ho ((holds_iff x _).1 hc).2.symm
    rw [if_neg hheld, if_neg (fun hc => ho hc.1)]

theorem foldl_receive_frame (x : Voice) (es : List Event) :
    (es.foldl Voice.receive x).active = x.active ∧ (es.foldl Voice.receive x).id = x.id ∧
      (es.foldl Voice.receive x).gain = x.gain := by
  induction es generalizing x with
  | nil => exact ⟨rfl, rfl, rfl⟩
  | cons e es ih =>
    obtain ⟨ha, hid, hgain, -⟩ := receive_frame x e
    obtain ⟨ha', hid', hgain'⟩ := ih (x.receive e)
    exact ⟨ha'.trans ha, hid'.trans hid, hgain'.trans hgain⟩

theorem foldl_receive_of_inactive (h : x.active = false) (es : List Event) :
    es.foldl Voice.receive x = x := by
  induction es with
  | nil => rfl
  | cons e es ih => rw [List.foldl_cons, receive_of_inactive h, ih]

/-- A batch leaves in an active slot's parameter the value of the latest entry for it. -/
theorem param_foldl_receive {n : Imm} (h : x.active = true) (hn : n.toNat < x.params.length)
    (es : List Event) :
    (es.foldl Voice.receive x).param n = latest x.id n (x.param n) es := by
  induction es generalizing x with
  | nil => rfl
  | cons e es ih =>
    obtain ⟨ha, hid, -, hlen⟩ := receive_frame x e
    rw [List.foldl_cons, ih (ha.trans h) (hlen ▸ hn), hid, param_receive h hn, latest]

end

/-! ## PARAM.COMMIT (R205, R206, R213) -/

theorem eventOffends_iff {p : Params} {voices : List Voice} {e : Event} :
    eventOffends p voices e = true ↔
      (∃ x ∈ voices, x.active = true ∧ x.id = e.owner) ∧ p.nParam ≤ e.index.toNat := by
  rw [eventOffends, Bool.and_eq_true, findSlot_isSome_iff, Params.hasIndex]
  simp

theorem firstOffender_eq_none_iff {p : Params} {voices : List Voice} {es : List Event} :
    firstOffender p voices es = none ↔
      ∀ e ∈ es, ¬((∃ x ∈ voices, x.active = true ∧ x.id = e.owner) ∧
        p.nParam ≤ e.index.toNat) := by
  simp only [firstOffender, List.find?_eq_none, eventOffends_iff]

section
variable {s : State} (hs : s.fault = false)
include hs

theorem exec_paramCommit (h : firstOffender s.params s.voices s.pwq = none) :
    exec .paramCommit s =
      .next (State.respond { s with voices := applyBatch s.voices s.pwq, pwq := [] } 0) := by
  rw [← gated_done hs (commandWord .paramCommit)]
  simp only [exec, execParamCommit, h]

theorem exec_paramCommit_faulted {e : Event} (h : firstOffender s.params s.voices s.pwq = some e) :
    exec .paramCommit s = .next (s.faulted 0x9C000000 0x09 (zext32 e.index)) := by
  rw [show (0x9C000000 : Word) = commandWord .paramCommit by decide]
  refine Eq.trans ?_ (gated_raise hs (commandWord .paramCommit) .paramIndex (zext32 e.index))
  simp only [exec, execParamCommit, h]

end

/-- Settles O43: the oldest offender is what the commit looks for. -/
theorem commitFaultIsAllOrNothing : Obligations.CommitFaultIsAllOrNothing := by
  intro s before after e hs offends
  refine ⟨fun hq hbefore he => ?_, fun hnone => ?_⟩
  · have hfirst : firstOffender s.params s.voices s.pwq = some e := by
      refine List.find?_eq_some_iff_append.2 ⟨eventOffends_iff.2 he, before, after, hq, ?_⟩
      intro d hd
      rw [Bool.eq_false_of_not_eq_true (mt eventOffends_iff.1 (hbefore d hd)), Bool.not_false]
    rw [exec_paramCommit_faulted hs hfirst, zext32_eq]
  · exact ⟨_, exec_paramCommit hs (firstOffender_eq_none_iff.2 hnone), hs⟩

theorem voice_eq_getElem {s : State} {v : UnitIx} (hv : v.toNat < s.voices.length) :
    s.voice v = s.voices[v.toNat] := List.getD_eq_getElem _ _ hv

theorem voice_of_map {s t : State} {f : Voice → Voice} (h : t.voices = s.voices.map f) {v : UnitIx}
    (hv : v.toNat < s.voices.length) : t.voice v = f (s.voice v) := by
  rw [voice_eq_getElem hv, State.voice, h, List.getD_eq_getElem _ _ (by simpa using hv),
    List.getElem_map]

/-- Settles O42: no pending entry offends, so the commit completes, and each slot has taken the
batch on its own (`FoundById.applyBatch_eq_map`). -/
theorem paramCommitAppliesTheBatch : Obligations.ParamCommitAppliesTheBatch := by
  intro s hs _ hids hrows hindex
  have hnone : firstOffender s.params s.voices s.pwq = none :=
    firstOffender_eq_none_iff.2 fun e he hoff => Nat.not_lt.2 hoff.2 (hindex e he hoff.1)
  refine ⟨_, exec_paramCommit hs hnone, rfl, rfl, rfl, applyBatch_length _ _, fun v hv => ?_⟩
  rw [voice_of_map (f := s.pwq.foldl Voice.receive)
    ((foundById_of_nodup hids).applyBatch_eq_map s.pwq) hv]
  obtain ⟨ha, hid, hgain⟩ := foldl_receive_frame (s.voice v) s.pwq
  refine ⟨ha, hid, hgain, fun n hn => ?_⟩
  split
  next hact =>
    have hlen : n.toNat < (s.voice v).params.length := by
      rwa [voice_eq_getElem hv, hrows _ (List.getElem_mem hv)]
    exact param_foldl_receive hact hlen s.pwq
  next hact => rw [foldl_receive_of_inactive (Bool.eq_false_of_not_eq_true hact)]

theorem applyEvent_of_findSlot_none {voices : List Voice} {e : Event}
    (h : findSlot voices e.owner = none) : applyEvent voices e = voices := by
  rw [applyEvent, h]

/-- Events without an owner among the slots can be left out of a batch (R213). -/
theorem applyBatch_filter_owned (voices : List Voice) (es : List Event) :
    applyBatch voices (es.filter fun e => (findSlot voices e.owner).isSome) =
      applyBatch voices es := by
  induction es generalizing voices with
  | nil => rfl
  | cons e es ih =>
    rw [applyBatch_cons, ← ih]
    simp only [findSlot_applyEvent]
    cases h : findSlot voices e.owner with
    | some v => rw [List.filter_cons_of_pos (by rw [h]; rfl), applyBatch_cons]
    | none => rw [List.filter_cons_of_neg (by rw [h]; nofun), applyEvent_of_findSlot_none h]

/-- Settles O44: a commit that completes has no offender, and dropping the ownerless entries changes
neither that nor what the batch leaves. -/
theorem droppedEventsLeaveNoTrace : Obligations.DroppedEventsLeaveNoTrace := by
  intro s t hs h hrun
  have howned : (fun e : Event => s.voices.any fun x => x.active && x.id == e.owner) =
      fun e => (findSlot s.voices e.owner).isSome :=
    funext fun e => (findSlot_isSome s.voices e.owner).symm
  cases hoff : firstOffender s.params s.voices s.pwq with
  | some e =>
    rw [exec_paramCommit_faulted hs hoff] at h
    cases h
    cases hrun
  | none =>
    rw [exec_paramCommit hs hoff] at h
    have hnone : firstOffender s.params s.voices
        (s.pwq.filter fun e => (findSlot s.voices e.owner).isSome) = none :=
      firstOffender_eq_none_iff.2 fun e he =>
        firstOffender_eq_none_iff.1 hoff e (List.mem_of_mem_filter he)
    rw [howned, ← h]
    refine (exec_paramCommit (s := { s with pwq := s.pwq.filter _ }) hs hnone).trans ?_
    simp only [applyBatch_filter_owned]

end Sys2Proof.Machine
end

section
/-! The commands on one voice slot and on the tail of `PWQ` (R202, R203, R208, R210, R211): what each
leaves while the block runs, and O8, O38, O40, O41 and O50. -/

namespace Sys2Proof.Machine

/-! ## The tail of `PWQ` (R202, R203) -/

theorem pwqHasRoom_of_lt {s : State} (h : s.pwq.length < s.params.pwqDepth) :
    s.pwqHasRoom = true := decide_eq_true h

theorem pwqHasRoom_of_le {s : State} (h : s.params.pwqDepth ≤ s.pwq.length) :
    s.pwqHasRoom = false := decide_eq_false (Nat.not_lt.2 h)

section
variable {s : State} {rest : List Turn} {e : Event} {es : List Event}

/-- The writer's turn takes the event offered while `PWQ` has room. -/
theorem writerTurn_accept (hport : s.pwPort = e :: es)
    (hroom : s.pwq.length < s.params.pwqDepth) :
    writerTurn s = exec (.pwWrite e.owner e.index e.value) { s with pwPort := es } := by
  simp only [writerTurn, State.writerMove, hport, pwqHasRoom_of_lt hroom, if_true]

theorem step_writer_accept (hsched : s.sched = .agent .writer :: rest) (hport : s.pwPort = e :: es)
    (hroom : s.pwq.length < s.params.pwqDepth) :
    step s = exec (.pwWrite e.owner e.index e.value) { s with sched := rest, pwPort := es } :=
  (step_writer hsched).trans (writerTurn_accept (s := { s with sched := rest }) hport hroom)

/-- While `PWQ` is full the writer waits, and only its turn passes. -/
theorem step_writer_wait (hsched : s.sched = .agent .writer :: rest)
    (hfull : s.params.pwqDepth ≤ s.pwq.length) : step s = .next { s with sched := rest } := by
  rw [step_writer hsched]
  rcases writerTurn_cases { s with sched := rest } with ⟨_, _, -, hroom, -⟩ | ⟨-, ht⟩
  · exact absurd hroom (Nat.not_lt.2 hfull)
  · exact ht

theorem pwReady_of_writer (hsched : s.sched = .agent .writer :: rest) :
    s.pwReady = s.pwqHasRoom := by
  rw [State.pwReady, rst_of_agent hsched, Bool.not_false, Bool.true_and]

end

/-- Settles O8: PW.WRITE by `execPwWrite_eq`, the writer's turn by whether `PWQ` has room. -/
theorem portTransactionAppendsOrWaits : Obligations.PortTransactionAppendsOrWaits := by
  refine ⟨fun s o n x => ⟨fun hroom => ?_, fun hfull => ?_⟩,
    fun s rest e es hsched hport => ⟨fun hroom => ⟨?_, step_writer_accept hsched hport hroom⟩,
      fun hfull => ⟨?_, step_writer_wait hsched hfull⟩⟩⟩
  · refine (execPwWrite_eq o n x s).trans ?_
    rw [if_pos hroom]
  · refine (execPwWrite_eq o n x s).trans ?_
    rw [if_neg (Nat.not_lt.2 hfull)]
  · rw [pwReady_of_writer hsched, pwqHasRoom_of_lt hroom]
  · rw [pwReady_of_writer hsched, pwqHasRoom_of_le hfull]

/-- Settles O41: the body of PARAM.POST by whether `PWQ` has room. -/
theorem paramPostAppendsOrFaults : Obligations.ParamPostAppendsOrFaults := by
  intro s n a b hs
  refine ⟨fun hroom => ?_, fun hfull => ?_⟩
  · rw [exec, execParamPost, pwqHasRoom_of_lt hroom, if_pos rfl, gated_done hs]
    rfl
  · rw [exec, execParamPost, pwqHasRoom_of_le hfull, if_neg Bool.false_ne_true, gated_raise hs]
    rfl

/-! ## One voice slot (R208, R210, R211) -/

/-- Another active slot holds the id (R208). -/
theorem heldElsewhere_iff {voices : List Voice} {v : Nat} {o : Word} :
    heldElsewhere voices v o = true ↔
      ∃ u x, u ≠ v ∧ voices[u]? = some x ∧ x.active = true ∧ x.id = o := by
  simp only [heldElsewhere, List.any_eq_true, Prod.exists, List.mem_zipIdx_iff_getElem?,
    Bool.and_eq_true, bne_iff_ne, holds_iff]
  constructor
  · rintro ⟨x, u, hx, hu, ha, ho⟩
    exact ⟨u, x, hu, hx, ha, ho⟩
  · rintro ⟨u, x, hu, hx, ha, ho⟩
    exact ⟨x, u, hx, hu, ha, ho⟩

section
variable {s : State} {v : UnitIx} (hs : s.fault = false) (hv : v.toNat < s.params.nVoice)
include hs hv

/-- While the block runs, a command on a voice slot that exists ends as its body does. -/
theorem gated_withVoice (w : Word) (e : Effect) :
    gated w s (withUnit s .voice v e) = finish w s e := by
  rw [withUnit_ok (k := .voice) hv, gated_running hs]

theorem exec_voiceSet {a : Word} (b : Word) (h : heldElsewhere s.voices v.toNat a = false) :
    exec (.voiceSet v a b) s = .next
      ((s.setVoice v ⟨true, a, b, List.replicate s.params.nParam posZero⟩).respond 0) := by
  rw [exec, execVoiceSet, gated_withVoice hs hv, h, if_neg Bool.false_ne_true, finish_done]

theorem exec_voiceSet_duplicate {a : Word} (b : Word)
    (h : heldElsewhere s.voices v.toNat a = true) :
    exec (.voiceSet v a b) s = .next (s.faulted (commandWord (.voiceSet v a b)) 0x08 a) := by
  rw [exec, execVoiceSet, gated_withVoice hs hv, h, if_pos rfl, finish_raise, takeFault_running hs]
  rfl

theorem exec_busAcc_inactive (a : Word) (h : (s.voice v).active = false) :
    exec (.busAcc v a) s =
      .next (s.faulted (commandWord (.busAcc v a)) 0x07 (BitVec.ofNat 32 v.toNat)) := by
  rw [exec, execBusAcc, gated_withVoice hs hv, h, if_neg Bool.false_ne_true, finish_raise,
    takeFault_running hs, zext32_eq]
  rfl

section
variable {n : Imm} (hn : n.toNat < s.params.nParam)
include hn

theorem exec_paramInit (a : Word) (h : (s.voice v).active = true) :
    exec (.paramInit v n a) s =
      .next ((s.setVoice v ((s.voice v).setParam n a)).respond 0) := by
  rw [exec, execParamInit, gated_withVoice hs hv, withIndex_ok hn, h, if_pos rfl, finish_done]

theorem exec_paramInit_inactive (a : Word) (h : (s.voice v).active = false) :
    exec (.paramInit v n a) s =
      .next (s.faulted (commandWord (.paramInit v n a)) 0x07 (BitVec.ofNat 32 v.toNat)) := by
  rw [exec, execParamInit, gated_withVoice hs hv, withIndex_ok hn, h, if_neg Bool.false_ne_true,
    finish_raise, takeFault_running hs, zext32_eq]
  rfl

theorem exec_paramRd {a : Word} (h : (s.voice v).holds a = true) :
    exec (.paramRd v n a) s = .next (s.respond ((s.voice v).param n)) := by
  rw [exec, execParamRd, gated_withVoice hs hv, withIndex_ok hn, h, if_pos rfl, finish_done]

theorem exec_paramRd_not_owner {a : Word} (h : (s.voice v).holds a = false) :
    exec (.paramRd v n a) s = .next (s.faulted (commandWord (.paramRd v n a)) 0x06 a) := by
  rw [exec, execParamRd, gated_withVoice hs hv, withIndex_ok hn, h, if_neg Bool.false_ne_true,
    finish_raise, takeFault_running hs]
  rfl

end

end

/-- A response is not part of any voice slot. -/
@[simp] theorem voice_respond (s : State) (d : Word) (v : UnitIx) :
    (s.respond d).voice v = s.voice v := rfl

theorem onlyVoice_setVoice_respond (s : State) (v : UnitIx) (x : Voice) (d : Word) :
    onlyVoice s ((s.setVoice v x).respond d) v :=
  ⟨rfl, fun _ hu => voice_setVoice_ne hu x⟩

/-- Settles O38, by `exec_voiceSet`: a slot that held the id elsewhere would contradict the
hypothesis. -/
theorem voiceSetInstallsAVoice : Obligations.VoiceSetInstallsAVoice := by
  intro s v a b hs hv hl hother
  have hfree : heldElsewhere s.voices v.toNat a = false := by
    refine Bool.eq_false_of_not_eq_true fun h => ?_
    obtain ⟨u, x, hu, hx, hheld⟩ := heldElsewhere_iff.1 h
    exact hother u hu x hx hheld
  exact ⟨_, exec_voiceSet hs hv b hfree, voice_setVoice_self (hl ▸ hv) _, rfl,
    onlyVoice_setVoice_respond s v _ 0⟩

/-- Settles O40, by `exec_paramInit`, read at slot `v` and everywhere else, and `exec_paramRd`. -/
theorem paramInitWritesAndParamRdReads : Obligations.ParamInitWritesAndParamRdReads := by
  intro s v n a hs hv hl hn hrow hact
  refine ⟨⟨_, exec_paramInit hs hv hn a hact, ?_⟩,
    fun hid => exec_paramRd hs hv hn ((holds_iff _ _).2 ⟨hact, hid⟩)⟩
  rw [voice_respond, voice_setVoice_self (hl ▸ hv)]
  exact ⟨param_setParam_self (hrow ▸ hn) a, fun m hm => param_setParam_ne hm a, rfl, rfl,
    onlyVoice_setVoice_respond s v _ 0⟩

/-- Settles O50: each fault by the check of its command's body that fails. -/
theorem voiceChecksFault : Obligations.VoiceChecksFault := by
  intro s v n a b hs hv hn
  refine ⟨fun hact => ⟨exec_busAcc_inactive hs hv a hact, exec_paramInit_inactive hs hv hn a hact⟩,
    fun howner => exec_paramRd_not_owner hs hv hn ?_,
    fun u x hu hx hact hid => exec_voiceSet_duplicate hs hv b ?_⟩
  · refine Bool.eq_false_of_not_eq_true fun h => ?_
    obtain ⟨hact, hid⟩ := (holds_iff _ _).1 h
    rcases howner with hinactive | hne
    · rw [hact] at hinactive
      cases hinactive
    · exact hne hid
  · exact heldElsewhere_iff.2 ⟨u, x, hu, hx, hact, hid⟩

end Sys2Proof.Machine
end

section
/-! The sum of the voices (R230, R231, R235): what BUS.CLR and BUS.ACC leave, and O36; the run of a
list of BUS.ACC by induction on the list, and O37. -/

namespace Sys2Proof.Machine

/-! ## Sequences of commands -/

theorem execAll_cons {i : Instr} {s t : State} (h : exec i s = .next t) (is : List Instr) :
    execAll (i :: is) s = execAll is t := by
  rw [execAll, h]

/-- One more command after a list that completes. -/
theorem execAll_concat {is : List Instr} {i : Instr} {s t u : State}
    (his : execAll is s = some t) (h : exec i t = .next u) : execAll (is ++ [i]) s = some u := by
  induction is generalizing s with
  | nil =>
    cases his
    exact execAll_cons h []
  | cons j js ih =>
    rw [List.cons_append]
    obtain ⟨r, hj, -⟩ := everyCommandIsAnswered j s
    rw [execAll_cons hj] at his ⊢
    exact ih his

/-! ## One voice into the sum (R230, R231) -/

/-- What BUS.ACC computes: the sample times the slot's gain added to `ACC`, two operations. -/
def State.addVoice (s : State) (v : UnitIx) (a : Word) : State :=
  State.drew { s with acc := fadd (s.nan 1) s.acc (fmul (s.nan 0) a (s.voice v).gain) } 2

theorem onlyAcc_addVoice_respond (s : State) (v : UnitIx) (a d : Word) :
    onlyAcc s ((s.addVoice v a).respond d) := rfl

theorem onlyAcc_acc_respond (s : State) (x d : Word) :
    onlyAcc s (State.respond { s with acc := x } d) := rfl

theorem onlyAcc_trans {s t u : State} (h : onlyAcc s t) (h' : onlyAcc t u) : onlyAcc s u := by
  rw [onlyAcc] at h h' ⊢
  rw [h', h]

theorem fault_of_onlyAcc {s t : State} (h : onlyAcc s t) : t.fault = s.fault := by
  rw [onlyAcc] at h
  rw [h]

section
variable {s : State} (hs : s.fault = false)
include hs

theorem exec_busClr : exec .busClr s = .next (State.respond { s with acc := posZero } 0) :=
  gated_done hs _ _ _

theorem exec_busAcc {v : UnitIx} (hv : v.toNat < s.params.nVoice)
    (hact : (s.voice v).active = true) (a : Word) :
    exec (.busAcc v a) s = .next ((s.addVoice v a).respond 0) := by
  rw [exec, execBusAcc, gated_withVoice hs hv, hact, if_pos rfl, finish_done]
  rfl

end

/-- Settles O36: the two draws of the command stand for the NaNs. -/
theorem busAccAddsOneScaledSample : Obligations.BusAccAddsOneScaledSample :=
  fun s v a hs hv hact => ⟨_, s.nan 0, s.nan 1, isNaN_nan s 0, isNaN_nan s 1,
    exec_busAcc hs hv hact a, rfl, rfl, onlyAcc_addVoice_respond s v a 0⟩

/-! ## The voices in order (R235)

Each BUS.ACC draws twice, so the numbers of the operations left go down by two with it. -/

theorem nan_drew (s : State) (n k : Nat) : (s.drew n).nan k = s.nan (k + n) := by
  rw [State.nan, State.nan, drew_nanDraws, Nat.add_assoc, Nat.add_comm n]

/-- The sum from its second term on, with the operations numbered from there. -/
theorem voiceSum_succ (nan : Nat → Word) (gain : UnitIx → Word) (acc : Word) (k : Nat)
    (xs : List (UnitIx × Word)) :
    voiceSum nan gain acc (k + 1) xs = voiceSum (fun j => nan (j + 2)) gain acc k xs := by
  induction xs generalizing acc k with
  | nil => rfl
  | cons x xs ih => exact ih _ (k + 1)

/-- From any `ACC`, the BUS.ACC of each voice in order leave there the sum of R235 from it on. -/
theorem execAll_busAccs (xs : List (UnitIx × Word)) {s : State} (hs : s.fault = false)
    (hxs : ∀ x ∈ xs, x.1.toNat < s.params.nVoice ∧ (s.voice x.1).active = true) :
    ∃ t, execAll (xs.map fun x => .busAcc x.1 x.2) s = some t ∧
      t.acc = voiceSum s.nan (fun v => (s.voice v).gain) s.acc 0 xs ∧ onlyAcc s t := by
  induction xs generalizing s with
  | nil => exact ⟨s, rfl, rfl, rfl⟩
  | cons x xs ih =>
    obtain ⟨hx, htail⟩ := List.forall_mem_cons.1 hxs
    obtain ⟨hv, hact⟩ := hx
    have hfirst := exec_busAcc hs hv hact x.2
    obtain ⟨t, hrun, hacc, honly⟩ := ih (s := (s.addVoice x.1 x.2).respond 0) hs htail
    have hnan : ((s.addVoice x.1 x.2).respond 0).nan = fun j => s.nan (j + 2) :=
      funext (nan_drew s 2)
    refine ⟨t, (execAll_cons hfirst _).trans hrun, ?_,
      onlyAcc_trans (onlyAcc_addVoice_respond s x.1 x.2 0) honly⟩
    rw [hacc, hnan, ← voiceSum_succ]
    rfl

/-- Settles O37: BUS.CLR leaves +0.0 and draws nothing, so `execAll_busAccs` from there gives the
sum numbered by the draws of `s`; BUS.MASTER then runs in the state that BUS.MIX left. -/
theorem busMixSumsInOrder : Obligations.BusMixSumsInOrder := by
  intro s xs hs hxs
  obtain ⟨t, hrun, hacc, honly⟩ :=
    execAll_busAccs xs (s := State.respond { s with acc := posZero } 0) hs hxs
  have hmix : execAll (mixCommands xs) s = some t := (execAll_cons (exec_busClr hs) _).trans hrun
  have honly : onlyAcc s t := onlyAcc_trans (onlyAcc_acc_respond s posZero 0) honly
  have hmaster := exec_busMaster ((fault_of_onlyAcc honly).trans hs)
  exact ⟨t, s.nan, isNaN_nan s, hmix, hacc, honly, _, hmaster, execAll_concat hmix hmaster⟩

end Sys2Proof.Machine
end

section
/-! What changes no state of the block: NOP, which leaves only its response (R240), and a step with no
turn to come (R276), with O9. -/

namespace Sys2Proof.Machine

/-- NOP is not gated, so it answers while the block is halted too (R264). -/
theorem exec_nop (s : State) : exec .nop s = .next (s.respond 0) := by
  rw [exec, execNop]

/-- Settles O9: `exec_nop`, with the response written out as a field, and `step_idle`. -/
theorem nopAndIdleChangeNothing : Obligations.NopAndIdleChangeNothing :=
  ⟨exec_nop, fun _ hidle => step_idle hidle⟩

end Sys2Proof.Machine
end

section
/-! The halted block and reset (R264 to R268, R290, R291): what each word gets while FAULT is 1, and
O51 from it; what a step other than reset keeps then, with O52 and O53; the values after reset, O54
and O55. -/

namespace Sys2Proof.Machine

/-! ## Commands while the block is halted (R264, R268) -/

theorem decode_csrRd_word {c : Command} {n : Imm} (h : c.w = commandWord (.csrRd n)) :
    decode c = .instr (.csrRd n) := by
  have hmatch := commandWord_matches (.csrRd n) _ rfl
  rw [← h] at hmatch
  have himm : immField c.w = n := by rw [h]; exact immField_packWord _ _ _
  rw [decode_of_match (j := .csrRd n) rfl hmatch, Instr.ofCommand, himm]

section
variable {s t : State} (hs : s.fault = true)
include hs

theorem exec_csrRd_reserved_halted {n : Imm} (hn : csrOfNumber n = none) :
    exec (.csrRd n) s = .next s.respondError := by
  change execCsrRd n s = _
  rw [execCsrRd, hn, finish_raise, takeFault_halted hs]

theorem exec_discarded {i : Instr} (hi : i.isCommand = true) (hnop : i ≠ .nop)
    (hcsr : ∀ r : Csr, i ≠ .csrRd r.number) : exec i s = .next s.respondError := by
  cases i with
  | pwWrite _ _ _ => cases hi
  | nop => exact absurd rfl hnop
  | csrRd n =>
    exact exec_csrRd_reserved_halted hs (csrOfNumber_none fun r hr => hcsr r (hr ▸ rfl))
  | _ =>
    obtain ⟨e, he⟩ := exec_gated _ hi nofun nofun s
    rw [he, gated_halted hs]

/-- A word that is neither NOP nor a read of a CSR of the map is discarded, whether it decodes or
not. -/
theorem runCommand_discarded {c : Command} (hw : c.w ≠ 0)
    (hcsr : ∀ r : Csr, c.w ≠ commandWord (.csrRd r.number)) :
    runCommand c s = .next s.respondError := by
  by_cases hd : ∃ i, decode c = .instr i
  · obtain ⟨i, hi⟩ := hd
    obtain ⟨-, hcmd, hword⟩ := decode_instr hi
    rw [runCommand_instr hi]
    refine exec_discarded hs hcmd (fun hnop => hw ?_) (fun r hr => hcsr r ?_)
    · rw [← hword, hnop]
      rfl
    · rw [← hword, hr]
  · exact runCommand_halted (not_exists.1 hd) hs

end

/-- Settles O51: NOP and the reads of the map by their decoding, every other word by
`runCommand_discarded`. -/
theorem haltedBlockDiscardsCommands : Obligations.HaltedBlockDiscardsCommands := by
  refine fun c s hs => ⟨fun hw => ?_, fun r hr => ?_, runCommand_discarded hs⟩
  · rw [runCommand_instr (decode_nop_iff.2 hw)]
    exact exec_nop s
  · rw [runCommand_instr (decode_csrRd_word hr)]
    exact exec_csrRd_number r s

/-! ## Steps while the block is halted (R265, R266, R268) -/

@[simp] theorem registers_fault (s : State) : s.registers.fault = s.fault := rfl
@[simp] theorem registers_fie (s : State) : s.registers.fie = s.fie := rfl

theorem registers_of_onlyRsp {s t : State} (h : onlyRsp s t) : t.registers = s.registers := by
  have hregs := congrArg State.registers h
  exact hregs

section
variable {s t : State}

theorem hostTurn_halted_registers (hs : s.fault = true) (h : hostTurn s = .next t) :
    t.registers = s.registers := by
  rcases hostTurn_cases s with ⟨r, -, ht⟩ | ⟨c, rest, -, -, ht⟩ | ⟨-, -, ht⟩ <;> rw [ht] at h
  · cases h
    rfl
  · have hregs := registers_of_onlyRsp
      (runCommand_halted_onlyRsp (s := { s with cmdPort := rest }) hs h)
    exact hregs
  · cases h
    rfl

/-- The writer's turn writes `PWQ` alone, halted or not (R265). -/
theorem writerTurn_registers (h : writerTurn s = .next t) : t.registers = s.registers := by
  rcases writerTurn_cases s with ⟨e, rest, -, -, ht⟩ | ⟨-, ht⟩ <;> rw [ht] at h <;> cases h <;> rfl

theorem step_halted_registers (hs : s.fault = true) (hreset : s.sched.head? ≠ some .reset)
    (h : step s = .next t) : t.registers = s.registers := by
  rcases step_cases s with ⟨-, ht⟩ | ⟨rest, -, ht⟩ | ⟨rest, -, ht⟩ | ⟨rest, hsched, -⟩
  · rw [ht] at h
    cases h
    rfl
  · rw [ht] at h
    exact hostTurn_halted_registers (s := { s with sched := rest }) hs h
  · rw [ht] at h
    exact writerTurn_registers (s := { s with sched := rest }) h
  · rw [hsched] at hreset
    exact absurd rfl hreset

/-- A step that is no reset keeps FAULT 1, and FIE with it. -/
theorem step_halted_fault_fie (hs : s.fault = true) (hreset : s.sched.head? ≠ some .reset)
    (h : step s = .next t) : t.fault = true ∧ t.fie = s.fie := by
  have hregs := step_halted_registers hs hreset h
  refine ⟨?_, ?_⟩
  · rw [← registers_fault, hregs, registers_fault, hs]
  · rw [← registers_fie, hregs, registers_fie]

theorem irq_of_rst_false (h : s.rst = false) : s.irq = (s.fault && s.fie) := by
  rw [State.irq, h]
  rfl

theorem irq_of_rst (h : s.rst = true) : s.irq = false := by
  rw [State.irq, h]
  rfl

theorem irq_iff :
    s.irq = true ↔ s.sched.head? ≠ some .reset ∧ s.fault = true ∧ s.fie = true := by
  simp [State.irq, State.rst]

end

/-- Settles O52: steps by `step_halted_registers`; a word of another opcode is no read of a CSR, so
`runCommand_discarded` covers it too. -/
theorem haltedUntilReset : Obligations.HaltedUntilReset := by
  refine ⟨fun s t hs h hreset => step_halted_registers hs hreset h, fun c s hs hw hcsr => ?_⟩
  refine runCommand_discarded hs hw fun r hr => hcsr ?_ r hr
  rw [hr]
  exact opField_packWord _ _ _

/-- Settles O53: `irq` by the two kinds of cycle, its persistence by `step_halted_fault_fie`. -/
theorem irqHoldsUntilReset : Obligations.IrqHoldsUntilReset := by
  refine ⟨fun s => irq_of_rst_false, fun s => irq_of_rst, fun s t hs h => ?_, fun s t hi h => ?_⟩
  · exact or_iff_not_imp_left.2 fun hreset => step_halted_fault_fie hs hreset h
  · obtain ⟨hreset, hs, hfie⟩ := irq_iff.1 hi
    obtain ⟨hfault, hkept⟩ := step_halted_fault_fie hs hreset h
    cases hrst : t.rst with
    | true => exact .inr rfl
    | false =>
      left
      rw [irq_of_rst_false hrst, hfault, hkept, hfie]
      rfl

/-! ## Reset (R290, R291) -/

theorem status_resetEvent (s : State) : s.resetEvent.status = 0 := by
  change 0#16 ++ 0#8 ++ 0#7 ++ BitVec.ofBool false = 0
  decide

theorem ctrl_resetEvent (s : State) : s.resetEvent.ctrl = 0 := by
  change 0#31 ++ BitVec.ofBool false = 0
  decide

theorem pwqlvl_resetEvent (s : State) : s.resetEvent.pwqlvl = 0 := by
  change halves 0 0 = 0
  decide

/-- Settles O54: the step is the reset event, whose fields are R291's values. -/
theorem resetEventGivesEveryRegisterItsValue :
    Obligations.ResetEventGivesEveryRegisterItsValue := by
  intro s rest hsched
  exact ⟨_, step_reset hsched, rfl, rfl, rfl, rfl, rfl, rfl, rfl, rfl, rfl, rfl, status_resetEvent _,
    rfl, rfl, ctrl_resetEvent _, pwqlvl_resetEvent _, rfl, rfl, rfl, rfl, rfl, rfl, rfl, rfl, rfl⟩

/-- Any code of an OPEN parameter stands for a positive finite pattern (R7). -/
theorem positiveFinite_code (k : Fin 0x7F7FFFFF) :
    positiveFinite (BitVec.ofNat 32 (k.val + 1)) = true := by
  have hk := k.isLt
  have hval : (BitVec.ofNat 32 (k.val + 1)).toNat = k.val + 1 := by
    rw [BitVec.toNat_ofNat]
    omega
  rw [positiveFinite, hval]
  simp only [Bool.and_eq_true, decide_eq_true_eq]
  omega

theorem config_legal : Config.params.legal = true :=
  Bool.and_eq_true_iff.2
    ⟨Bool.and_eq_true_iff.2 ⟨rfl, positiveFinite_code _⟩, positiveFinite_code _⟩

/-- Settles O55: `initial_wf`, and the free parameters of `State.reset` are legal. -/
theorem resetStateIsWellFormed : Obligations.ResetStateIsWellFormed :=
  ⟨fun _ hp => initial_wf hp, initial_wf config_legal⟩

end Sys2Proof.Machine
end

section
/-! The limiter after reset (R293): with both coefficients +0.0 its envelope stays at 1.0 on finite
samples, and O35 from that. -/

namespace Sys2Proof.Machine

/-! ## Products with 0 and with 1.0 -/

theorem roundMag_exact {den : Nat} (hd : 0 < den) {a : Word} (ha : isFinite a = true) :
    roundMag (magUnits a * den) den = magBits a :=
  Nat.le_antisymm (roundMag_le hd a le_rfl) (le_roundMag hd a ((isFinite_iff a).1 ha) le_rfl)

section
variable {n a : Word} (ha : isFinite a = true)
include ha

theorem fmul_one_left : fmul n one a = a := by
  rw [fmul_finite rfl ha, show magUnits one = 2 ^ 149 by decide, Nat.mul_comm,
    roundMag_exact (by decide) ha, show isNeg one = false from rfl, Bool.false_bne, withSign_eq]

theorem fmul_posZero_right : fmul n a posZero = withSign (isNeg a) 0 := by
  rw [fmul_finite ha rfl, show magUnits posZero = 0 from rfl, Nat.mul_zero,
    show roundMag 0 (2 ^ 149) = 0 from rfl, show isNeg posZero = false from rfl, Bool.bne_false]

end

/-- `1.0` plus a zero of either sign. -/
theorem fadd_one_zero (n : Word) (neg : Bool) : fadd n one (withSign neg 0) = one := by
  have hz : isFinite (withSign neg 0) = true ∧ units (withSign neg 0) = 0 := by
    cases neg <;> decide
  have hround : units one + 0 ≠ 0 ∧ roundUnits (units one + 0) = one := by decide
  rw [fadd_finite rfl hz.1, hz.2, if_neg hround.1, hround.2]

theorem fle_posZero_fabs {a : Word} (ha : isFinite a = true) : fle posZero (fabs a) = true := by
  refine fle_iff.2 ⟨rfl, isNaN_of_isFinite (by rwa [isFinite_fabs]), ?_⟩
  rw [orderKey, orderKey, isNeg_fabs]
  exact Int.natCast_nonneg _

/-! ## The limiter with both coefficients `+0.0` -/

section
variable {s : State} {y : Word} (hca : s.limCA = posZero) (hcr : s.limCR = posZero)
  (he : s.limEnv = one) (hy : isFinite y = true)
include hca hcr he hy

/-- A finite sample's distance from the envelope is finite, so the coefficient makes it a zero. -/
theorem follow_of_zero_coefficients : s.follow y = one := by
  have hdiff : isFinite (fsub (s.nan 0) (fabs y) one) = true :=
    isFinite_fsub_of_nonneg (by rwa [isFinite_fabs]) rfl (fle_posZero_fabs hy) rfl
  rw [State.follow, hca, hcr, he, ite_self, fmul_posZero_right hdiff, fadd_one_zero]

theorem limStep_of_zero_coefficients (hh : isFinite s.params.headroom = true) :
    (s.limStep y).1.limEnv = one ∧
      (s.limStep y).2 = clamp (fdiv (s.nan 4) y s.params.headroom) minusOne one := by
  have henv : (s.limStep y).1.limEnv = one := by
    rw [limStep_limEnv, follow_of_zero_coefficients hca hcr he hy]
    rfl
  refine ⟨henv, ?_⟩
  rw [limStep_out, henv, fmul_one_left hh]

end

/-- Settles O35: the draw of the division stands for a NaN quotient, of which there is none here. -/
theorem limiterIsFixedAtZeroCoefficients : Obligations.LimiterIsFixedAtZeroCoefficients := by
  intro s a hs hca hcr he hh ha
  obtain ⟨henv, hout⟩ := limStep_of_zero_coefficients hca hcr he ha (positiveFinite_spec hh).1
  exact ⟨_, s.nan 4, isNaN_nan s 4, exec_limStep hs a, henv, by rw [← hout]; rfl⟩

end Sys2Proof.Machine
end
